-- ==== Sys2Proof/Word.lean ====
section
/-!
DEFINITION. The words of HUFFCORE: the data byte, the 16-bit command word, and the two kinds of record
the block's tables hold (spec/10_state.md R38, R41). There is no other arithmetic here: every quantity
of the block is an unsigned integer of a stated width (00_scope.md R9).
-/

namespace Sys2Proof

/-- One byte of input, output or symbol alphabet (00_scope.md R7, R15). -/
abbrev Byte := BitVec 8

/-- One 16-bit command word (30_encoding.md R100). -/
abbrev CmdWord := BitVec 16

/-- A node index: `IDXW` = 9 bits (00_scope.md R7). -/
abbrev NodeIdx := BitVec 9

/-- The kind of an arena node (10_state.md R38): a leaf holds a symbol, an internal node two children. -/
inductive NodeKind where
  | internal
  | leaf
deriving DecidableEq, Repr, Inhabited

/-- One entry of the node arena `NODE` (10_state.md R38). -/
structure NodeRec where
  kind   : NodeKind
  sym    : Byte
  weight : BitVec 32
  left   : NodeIdx
  right  : NodeIdx
deriving DecidableEq, Repr, Inhabited

/-- One entry of the code table `CODE` (10_state.md R41): `bits[k]` is code bit `c[k]` for `k < len`. -/
structure CodeRec where
  valid : Bool
  len   : BitVec 9
  bits  : BitVec 255
deriving DecidableEq, Repr, Inhabited

end Sys2Proof
end

