-- ==== Sys2Proof/Config.lean ====
section
/-!
DEFINITION. What is fixed for a HUFFCORE and what the spec leaves free: the constants and parameters of
spec/00_scope.md R7, and the free values, which are opaque constants (no body, so that nothing can be
proved of their values). Assumption log entries 1, 6, 7, 10, 19.
-/

namespace Sys2Proof.Config

/-- `NSYM`, the alphabet size (R7). -/
def nsym : Nat := 256

/-- `NODE_CAP`, the number of arena entries (R7). -/
def nodeCap : Nat := 511

/-- `MAXLEN`, the longest code in bits (R7, 43_code_generator.md R193). -/
def maxLen : Nat := 255

/-- `MARK_LEAF`, the leaf marker byte `'1'` (R7). -/
def markLeaf : Byte := 0x31

/-- `MARK_INT`, the internal-node marker byte `'0'` (R7). -/
def markInt : Byte := 0x30

/-- `BIT0`, the bit-symbol byte `'0'` (R7). -/
def bit0 : Byte := 0x30

/-- `BIT1`, the bit-symbol byte `'1'` (R7). -/
def bit1 : Byte := 0x31

/-- `SINGLE_CODE`, the code of the sole symbol when `D = 1`: the 1-bit string `0` (R7). -/
def singleCode : List Bool := [false]

/-- The parameters of R7: "arguments the model takes", fixed for a run (10_state.md R42). -/
structure Params where
  /-- `IN_CAP`, the capacity of `IBUF` in bytes. -/
  inCap  : Nat
  /-- `OUT_CAP`, the capacity of `OBUF` in bytes. -/
  outCap : Nat
  /-- `DELIM`, the delimiter byte string. -/
  delim  : List Byte
deriving DecidableEq, Repr

/-- The defaults of R7: `IN_CAP` = 65536, `OUT_CAP` = 1048576, `DELIM` = `0A 2D 2D 2D 2D 0A`. -/
def defaultParams : Params :=
  { inCap := 65536, outCap := 1048576, delim := [0x0A, 0x2D, 0x2D, 0x2D, 0x2D, 0x0A] }

/-- The registers, flags and queue that a fault leaves unspecified (60_exceptions.md R275); the
memories need no field, since after a fault they list nothing (log entries 1, 7). -/
structure Unspecified where
  freqV : Bool
  heapV : Bool
  treeV : Bool
  codeV : Bool
  xrV   : Bool
  ilen  : BitVec 32
  ipos  : BitVec 32
  olen  : BitVec 32
  dsym  : BitVec 9
  hsize : BitVec 9
  ncnt  : BitVec 10
  root  : NodeIdx
  xr    : NodeIdx
  cur   : NodeIdx
  pq    : List NodeIdx
deriving DecidableEq, Repr, Inhabited

/-- FREE VALUE (log entry 1). What the unspecified state is after the `n`-th fault, whose command word
was `w`: any value (R275, 93_implementation_defined.md U7). -/
opaque afterFault (n : Nat) (w : CmdWord) : Unspecified

/-- FREE VALUE (log entry 7). What `IBUF[i]` holds while no command has defined it, after `n` resets
and faults (93_implementation_defined.md U8, U9). -/
opaque undefIbuf (n i : Nat) : Byte

/-- FREE VALUE (log entry 7). What `OBUF[i]` holds while it is undefined (U8, U9). -/
opaque undefObuf (n i : Nat) : Byte

/-- FREE VALUE (log entry 7). What `FREQ[i]` holds while it is undefined (U8, U10). -/
opaque undefFreq (n i : Nat) : BitVec 32

/-- FREE VALUE (log entry 7). What `NODE[i]` holds while it is undefined (U8, U10). -/
opaque undefNode (n i : Nat) : NodeRec

/-- FREE VALUE (log entry 7). What `CODE[i]` holds while it is undefined (U8, U10). -/
opaque undefCode (n i : Nat) : CodeRec

end Sys2Proof.Config
end

