-- ==== Sys2Proof/Syntax.lean ====
section
/-!
DEFINITION. The 23 commands of HUFFCORE, one constructor per row of spec/opcode_table.json
(30_encoding.md R103), and the pseudo-instructions of R120, which are only lists of commands.
-/

namespace Sys2Proof

/-- A command. Format I commands carry their data byte (R101); the others have no operand. -/
inductive Instr where
  /-- 0x01, append `imm` to `IBUF` (R130). -/
  | ipush (imm : Byte)
  /-- 0x02, new input sequence (R131). -/
  | iclr
  /-- 0x03, read cursor to start (R132). -/
  | irew
  /-- 0x04, new output sequence (R133). -/
  | oclr
  /-- 0x05, output becomes input (R134). -/
  | omov
  /-- 0x08, frequency table scan (R136). -/
  | fscan
  /-- 0x10, `buildFrom(entries)` (R154). -/
  | pqbuild
  /-- 0x11, `insert(node)` (R156). -/
  | pqins
  /-- 0x12, `extractMin()` (R158). -/
  | pqext
  /-- 0x18, one merge of the builder loop (R170). -/
  | merge
  /-- 0x19, the last node is the root (R172). -/
  | troot
  /-- 0x1A, `build(entries)` (R174). -/
  | tbuild
  /-- 0x20, `generate(root)` (R190). -/
  | cgen
  /-- 0x28, tree serializer (R201). -/
  | tser
  /-- 0x29, `reconstruct(stream)` (R203). -/
  | tdes
  /-- 0x30, `encode(input, codes)`, bits only (R221). -/
  | enc
  /-- 0x31, write the delimiter (R223). -/
  | dlmw
  /-- 0x32, `compress(bytes)` (R225). -/
  | comp
  /-- 0x38, locate and skip the delimiter (R240). -/
  | dlms
  /-- 0x39, decoder: consume one bit symbol (R244). -/
  | dstep (imm : Byte)
  /-- 0x3A, decoder: end-of-stream check (R246). -/
  | dend
  /-- 0x3B, decode the rest of the input (R248). -/
  | dec
  /-- 0x3C, `decompress(formatted input)` (R250). -/
  | decomp
deriving DecidableEq, Repr

/-- The pseudo-instructions of 30_encoding.md R120. -/
inductive Pseudo where
  | ipushs (bytes : List Byte)
  | dbits (bits : List Bool)
  | load (bytes : List Byte)
  | roundtrip
  | buildStepwise (n : Nat)
deriving DecidableEq, Repr

end Sys2Proof
end

