-- ==== Sys2Proof/WellFormed.lean ====
section
/-!
DEFINITION. The checks: a command's operand is one unsigned byte (30_encoding.md R101), a command word has
an assigned opcode and, in format N, a zero operand byte (R100, R103), and the parameters lie in the
ranges of 00_scope.md R7 (92_eei_decisions.md D6, D37).
-/

namespace Sys2Proof

/-- The operand of a command is an unsigned byte 0..255 (R101). The type of `imm` already says so, so
every `Instr` passes; the check is written per constructor so that a wider operand could not slip by. -/
def Instr.wellFormed : Instr → Bool
  | .ipush imm => decide (imm.toNat < 256)
  | .dstep imm => decide (imm.toNat < 256)
  | .iclr | .irew | .oclr | .omov | .fscan | .pqbuild | .pqins | .pqext | .merge | .troot | .tbuild
  | .cgen | .tser | .tdes | .enc | .dlmw | .comp | .dlms | .dend | .dec | .decomp => true

/-- The opcodes of format I (R103). -/
def formatIOpcodes : List Byte := [0x01, 0x39]

/-- The opcodes of format N (R103). -/
def formatNOpcodes : List Byte :=
  [0x02, 0x03, 0x04, 0x05, 0x08] ++ [0x10, 0x11, 0x12] ++ [0x18, 0x19, 0x1A] ++ [0x20] ++ [0x28, 0x29]
    ++ [0x30, 0x31, 0x32] ++ [0x38, 0x3A, 0x3B, 0x3C]

/-- A word's fields are those of a command (R100, R103): an assigned opcode, and a zero operand byte
unless the format is I. -/
def wordWellFormed (op imm : Byte) : Bool :=
  formatIOpcodes.contains op || (formatNOpcodes.contains op && imm == 0)

/-- `IN_CAP` and `OUT_CAP` lie in 1 .. 2^32 − 1 (R7). -/
def capWellFormed (cap : Nat) : Bool := decide (1 ≤ cap) && decide (cap ≤ 4294967295)

/-- `1 ≤ |DELIM| ≤ min(IN_CAP, OUT_CAP)` (R7). -/
def delimWellFormed (p : Config.Params) : Bool :=
  decide (1 ≤ p.delim.length) && decide (p.delim.length ≤ min p.inCap p.outCap)

/-- The parameters of a HUFFCORE (R7). -/
def paramsWellFormed (p : Config.Params) : Bool :=
  capWellFormed p.inCap && capWellFormed p.outCap && delimWellFormed p

end Sys2Proof
end

