-- ==== Sys2Proof/Decode.lean ====
section
/-!
DEFINITION. The decoder of 30_encoding.md R104, total on all 65536 command words and rejecting by name (R105),
and after it the encoder, written from the same opcode map (R103).
-/

namespace Sys2Proof

/-- Why a word is illegal (R105). Either way the block raises `IllegalCommandError`. -/
inductive Reject where
  /-- `op` is in no row of R103. -/
  | unassignedOpcode (op : Byte)
  /-- `op` is a format-N opcode and `imm ≠ 0`. -/
  | nonzeroOperand (op imm : Byte)
deriving DecidableEq, Repr

/-- `op = word[15:8]` (R100). -/
def opField (w : CmdWord) : Byte := w.extractLsb' 8 8

/-- `imm = word[7:0]` (R100). -/
def immField (w : CmdWord) : Byte := w.extractLsb' 0 8

/-- The command of a format-N opcode (R103). -/
def formatNInstr (op : Byte) : Option Instr :=
  match op.toNat with
  | 0x02 => some .iclr
  | 0x03 => some .irew
  | 0x04 => some .oclr
  | 0x05 => some .omov
  | 0x08 => some .fscan
  | 0x10 => some .pqbuild
  | 0x11 => some .pqins
  | 0x12 => some .pqext
  | 0x18 => some .merge
  | 0x19 => some .troot
  | 0x1A => some .tbuild
  | 0x20 => some .cgen
  | 0x28 => some .tser
  | 0x29 => some .tdes
  | 0x30 => some .enc
  | 0x31 => some .dlmw
  | 0x32 => some .comp
  | 0x38 => some .dlms
  | 0x3A => some .dend
  | 0x3B => some .dec
  | 0x3C => some .decomp
  | _ => none

/-- The decoding algorithm of R104. -/
def decode (w : CmdWord) : Except Reject Instr :=
  let op := opField w
  let imm := immField w
  if op = 0x01 then .ok (.ipush imm)
  else if op = 0x39 then .ok (.dstep imm)
  else
    match formatNInstr op with
    | none => .error (.unassignedOpcode op)
    | some i => if imm = 0 then .ok i else .error (.nonzeroOperand op imm)

/-- The opcode of a command (R103). -/
def Instr.opcode : Instr → Byte
  | .ipush _ => 0x01
  | .iclr => 0x02
  | .irew => 0x03
  | .oclr => 0x04
  | .omov => 0x05
  | .fscan => 0x08
  | .pqbuild => 0x10
  | .pqins => 0x11
  | .pqext => 0x12
  | .merge => 0x18
  | .troot => 0x19
  | .tbuild => 0x1A
  | .cgen => 0x20
  | .tser => 0x28
  | .tdes => 0x29
  | .enc => 0x30
  | .dlmw => 0x31
  | .comp => 0x32
  | .dlms => 0x38
  | .dstep _ => 0x39
  | .dend => 0x3A
  | .dec => 0x3B
  | .decomp => 0x3C

/-- The operand byte of a command: its `imm` in format I, zero in format N (R100, R101). -/
def Instr.operand : Instr → Byte
  | .ipush imm => imm
  | .dstep imm => imm
  | .iclr | .irew | .oclr | .omov | .fscan | .pqbuild | .pqins | .pqext | .merge | .troot | .tbuild
  | .cgen | .tser | .tdes | .enc | .dlmw | .comp | .dlms | .dend | .dec | .decomp => 0

/-- The command word of a command: `op` in bits 15..8, `imm` in bits 7..0 (R100). -/
def encode (i : Instr) : CmdWord := i.opcode ++ i.operand

/-- The decoder in the numbering of spec/opcode_table.json, for the host: a row has 16 bits, one word. -/
def decodeTableWord (nbits w : Nat) : Option Instr :=
  match decode (BitVec.ofNat 16 (w % 2 ^ nbits)) with
  | .ok i => some i
  | .error _ => none

/-- One row of the opcode map of R103: a word `w` is the command when `w &&& mask = pattern`. -/
structure OpcodeRow where
  pattern : CmdWord
  mask    : CmdWord
deriving DecidableEq, Repr

/-- The `match` and `mask` columns of R103 for a command's row. -/
def Instr.row : Instr → OpcodeRow
  | .ipush _ => ⟨0x0100, 0xFF00⟩
  | .iclr => ⟨0x0200, 0xFFFF⟩
  | .irew => ⟨0x0300, 0xFFFF⟩
  | .oclr => ⟨0x0400, 0xFFFF⟩
  | .omov => ⟨0x0500, 0xFFFF⟩
  | .fscan => ⟨0x0800, 0xFFFF⟩
  | .pqbuild => ⟨0x1000, 0xFFFF⟩
  | .pqins => ⟨0x1100, 0xFFFF⟩
  | .pqext => ⟨0x1200, 0xFFFF⟩
  | .merge => ⟨0x1800, 0xFFFF⟩
  | .troot => ⟨0x1900, 0xFFFF⟩
  | .tbuild => ⟨0x1A00, 0xFFFF⟩
  | .cgen => ⟨0x2000, 0xFFFF⟩
  | .tser => ⟨0x2800, 0xFFFF⟩
  | .tdes => ⟨0x2900, 0xFFFF⟩
  | .enc => ⟨0x3000, 0xFFFF⟩
  | .dlmw => ⟨0x3100, 0xFFFF⟩
  | .comp => ⟨0x3200, 0xFFFF⟩
  | .dlms => ⟨0x3800, 0xFFFF⟩
  | .dstep _ => ⟨0x3900, 0xFF00⟩
  | .dend => ⟨0x3A00, 0xFFFF⟩
  | .dec => ⟨0x3B00, 0xFFFF⟩
  | .decomp => ⟨0x3C00, 0xFFFF⟩

/-- A word belongs to a row (R103). -/
def OpcodeRow.covers (r : OpcodeRow) (w : CmdWord) : Bool := w &&& r.mask == r.pattern

/-- The commands a pseudo-instruction stands for (R120). -/
def Pseudo.expand : Pseudo → List Instr
  | .ipushs bs => bs.map .ipush
  | .dbits cs => cs.map fun c => .dstep (if c then Config.bit1 else Config.bit0)
  | .load bs => .iclr :: bs.map .ipush
  | .roundtrip => [.comp, .omov, .decomp]
  | .buildStepwise n => [.fscan, .pqbuild] ++ List.replicate n .merge ++ [.troot]

end Sys2Proof
end

