-- ==== Sys2Proof/Machine/State.lean ====
section
/-!
DEFINITION. The state of HUFFCORE as plain data (spec/10_state.md), the reasons a step of the model can stop,
the vocabulary of the hardware's own faults (60_exceptions.md R270 to R273), and the state after reset (R46).
-/

namespace Sys2Proof.Machine

open Sys2Proof.Config

/-- The address spaces of 20_memory.md R70. -/
inductive Space where
  | reg
  | ibuf
  | obuf
  | freq
  | node
  | code
  | pq
deriving DecidableEq, Repr

/-- Why the MODEL stops. None of these is a fault of HUFFCORE (a HUFFCORE fault is a next state, log entry 1);
each arises only in states that no run from reset reaches (log entry 11). -/
inductive Fault where
  /-- An access to an element the spec says does not exist (R70, R71), such as `NODE[511]` or
  `IBUF[IN_CAP]`. Raised by the element reads and writes of Machine/Ops.lean. SAFE: the model stops. -/
  | noElement (space : Space) (index : Nat)
  /-- A traversal went deeper than the 256 levels any tree of the arena has (10_state.md R39, R44): the
  nodes do not form a tree. Raised by Machine/Tree.lean `treeAt` and by TDES. SAFE: the model stops. -/
  | notATree
  /-- `HSIZE > 0` while `PQ` has no member, against `|PQ| = HSIZE` (R40). Raised by `pqExtractMin`. SAFE. -/
  | queueMismatch
  /-- A code longer than the 255 bits `CODE[s].bits` holds (R41). Raised by ENC. SAFE. -/
  | noCodeBit (len : Nat)
deriving DecidableEq, Repr

/-- Why the model gives an instruction no meaning. -/
inductive Refusal where
  /-- The instruction has no meaning yet. No arm of `exec` answers this. SAFE: the model stops. -/
  | notModelled (mnemonic : String)
deriving DecidableEq, Repr

/-- The error kinds of HUFFCORE (60_exceptions.md R270, R272). -/
inductive ErrKind where
  | emptyInput
  | emptyQueue
  | malformedTree
  | truncatedStream
  | unknownSymbol
  | io
  | badBitSymbol
  | illegalCommand
  | sequence
deriving DecidableEq, Repr

/-- The stages of HUFFCORE (R273). -/
inductive Stage where
  | cmd
  | buf
  | freq
  | pq
  | build
  | cgen
  | ser
  | des
  | enc
  | delim
  | dec
deriving DecidableEq, Repr

/-- What the host may do to the block between commands (20_memory.md R86), apart from reading. -/
inductive HostEvent where
  /-- Issue a command word. -/
  | command (w : CmdWord)
  /-- Assert reset (70_reset_and_hazards.md R310). -/
  | reset
deriving DecidableEq, Repr

/-- A memory or table: (index, element) pairs, indices strictly rising (`Memory.wf`); an element that is
not listed is undefined (log entries 7, 8). With bytes this is a list of `Host.Cell`. -/
abbrev Memory (α : Type) := List (Nat × α)

/-- The state: everything spec/10_state.md gives the block, and three fields of the model's own. -/
structure State where
  /-- `STATUS.FAULT` (R33). -/
  fault     : Bool
  /-- `STATUS.FREQ_V` (R33). -/
  freqV     : Bool
  /-- `STATUS.HEAP_V` (R33). -/
  heapV     : Bool
  /-- `STATUS.TREE_V` (R33). -/
  treeV     : Bool
  /-- `STATUS.CODE_V` (R33). -/
  codeV     : Bool
  /-- `STATUS.XR_V` (R33). -/
  xrV       : Bool
  /-- `STATUS.ERROFF_V` (R33). -/
  erroffV   : Bool
  /-- `ERR`, reg 0x01 (R30). -/
  err       : BitVec 4
  /-- `ERRSTAGE`, reg 0x02 (R30). -/
  errStage  : BitVec 4
  /-- `ERROFF`, reg 0x03 (R30). -/
  errOff    : BitVec 32
  /-- `ERRCMD`, reg 0x0E (R30). -/
  errCmd    : CmdWord
  /-- `CIX`, reg 0x04, the number of commands retired since reset (R21, R31). -/
  cix       : BitVec 32
  /-- `ILEN`, reg 0x05 (R22). -/
  ilen      : BitVec 32
  /-- `IPOS`, reg 0x06 (R23). -/
  ipos      : BitVec 32
  /-- `OLEN`, reg 0x07 (R24). -/
  olen      : BitVec 32
  /-- `D`, reg 0x08, the number of distinct symbols (R25). -/
  dsym      : BitVec 9
  /-- `HSIZE`, reg 0x09 (R26). -/
  hsize     : BitVec 9
  /-- `NCNT`, reg 0x0A (R27). -/
  ncnt      : BitVec 10
  /-- `ROOT`, reg 0x0B (R28). -/
  root      : NodeIdx
  /-- `XR`, reg 0x0C, the node in hand (R32). -/
  xr        : NodeIdx
  /-- `CUR`, reg 0x0D, the decoder's cursor (R29). -/
  cur       : NodeIdx
  /-- `IBUF` (R35). -/
  ibuf      : List Host.Cell
  /-- `OBUF` (R36). -/
  obuf      : List Host.Cell
  /-- `FREQ` (R37). -/
  freq      : Memory (BitVec 32)
  /-- `NODE`, the arena (R38). -/
  node      : Memory NodeRec
  /-- `CODE` (R41). -/
  code      : Memory CodeRec
  /-- `PQ`, a set of node indices, kept strictly rising (R40, R43; log entry 12). -/
  pq        : List NodeIdx
  /-- The model's own: the parameters of 00_scope.md R7, fixed for a run (log entry 6). -/
  params    : Params
  /-- The model's own: the events the host has yet to deliver, first one first (log entry 4). -/
  host      : List HostEvent
  /-- The model's own: how often the block has been reset or has faulted; free values depend on it (log entry 10). -/
  freeCount : Nat
deriving DecidableEq, Repr

/-- The state right after reset (R46, 70_reset_and_hazards.md R310): every register and flag 0, the queue
empty, memory contents unspecified (nothing listed). The model's own fields: the default parameters, no
pending host event, count 0. -/
def State.reset : State :=
  { fault := false, freqV := false, heapV := false, treeV := false, codeV := false, xrV := false
    erroffV := false, err := 0, errStage := 0, errOff := 0, errCmd := 0, cix := 0
    ilen := 0, ipos := 0, olen := 0, dsym := 0, hsize := 0, ncnt := 0, root := 0, xr := 0, cur := 0
    ibuf := [], obuf := [], freq := [], node := [], code := [], pq := []
    params := defaultParams, host := [], freeCount := 0 }

end Sys2Proof.Machine
end

