-- ==== Sys2Proof/Machine/Flags.lean ====
section
/-!
DEFINITION. STATUS and the flags (10_state.md R33): the register's word as a view of the flags the state holds,
and the output pin `fault_o` (60_exceptions.md R283). There are no arithmetic condition codes.
-/

namespace Sys2Proof.Machine

/-- `STATUS` (reg 0x00): bit 0 `FAULT`, 1 `FREQ_V`, 2 `HEAP_V`, 3 `TREE_V`, 4 `CODE_V`, 5 `XR_V`, 6 `ERROFF_V`,
bit 7 reserved and reading 0 (R33). -/
def status (s : State) : BitVec 8 :=
  BitVec.ofNat 8
    (s.fault.toNat + 2 * s.freqV.toNat + 4 * s.heapV.toNat + 8 * s.treeV.toNat + 16 * s.codeV.toNat
      + 32 * s.xrV.toNat + 64 * s.erroffV.toNat)

/-- The output pin `fault_o`, equal to `STATUS.FAULT` at all times (60_exceptions.md R283). -/
def faultPin (s : State) : Bool := s.fault

end Sys2Proof.Machine
end

