-- ==== Sys2Proof/Machine/Operands.lean ====
section
/-!
DEFINITION. The operand forms. A command's only operand is a data byte (30_encoding.md R101); the bytes the
block interprets are marker bytes and bit symbols (20_memory.md R73); a code is stored as a bit field (10_state.md R41).
-/

namespace Sys2Proof.Machine

open Sys2Proof.Config

/-- The bit a bit-symbol byte stands for, if it is one (30_encoding.md R114). -/
def bitOfSymbol (b : Byte) : Option Bool :=
  if b = bit0 then some false else if b = bit1 then some true else none

/-- The bit symbol of a code bit: `0x30` for 0, `0x31` for 1 (R114, 45_encoder.md R221). -/
def symbolOfBit (c : Bool) : Byte := if c then bit1 else bit0

/-- The kind of node a marker byte announces, if it is a marker (30_encoding.md R111). -/
def kindOfMarker (m : Byte) : Option NodeKind :=
  if m = markLeaf then some .leaf else if m = markInt then some .internal else none

/-- A bit string as a number, `c[0]` least significant. -/
def natOfBits : List Bool → Nat
  | [] => 0
  | c :: cs => c.toNat + 2 * natOfBits cs

/-- The code record of a path: `bits[k] = p[k]` for `k < |p|` and 0 above (10_state.md R41, 43_code_generator.md R190). -/
def codeOfPath (p : List Bool) : CodeRec :=
  { valid := true, len := BitVec.ofNat 9 p.length, bits := BitVec.ofNat 255 (natOfBits p) }

/-- A cleared code record (R190). -/
def noCode : CodeRec := { valid := false, len := 0, bits := 0 }

/-- The code bits `c[0] .. c[len-1]` a record holds (R41). -/
def pathOfCode (c : CodeRec) : List Bool := (List.range c.len.toNat).map c.bits.getLsbD

end Sys2Proof.Machine
end

