-- ==== Sys2Proof/Machine/Ops.lean ====
section
/-!
DEFINITION. The named operations: memories in canonical form, element reads and writes of each address space,
the queue's set operations, the primitives of 00_scope.md R12, taking a fault and retiring (60_exceptions.md R274 to R277),
and what the host does to the block between commands.
-/

namespace Sys2Proof.Machine

open Sys2Proof.Config

/-! ## Memories -/

/-- Read one element; an unlisted one has no value (log entry 7). -/
def Memory.read {α : Type} : Memory α → Nat → Option α
  | [], _ => none
  | (j, a) :: m, i => if j = i then some a else Memory.read m i

/-- Write one element, keeping the indices strictly rising. -/
def Memory.write {α : Type} : Memory α → Nat → α → Memory α
  | [], i, a => [(i, a)]
  | (j, b) :: m, i, a =>
    if i < j then (i, a) :: (j, b) :: m
    else if i = j then (i, a) :: m
    else (j, b) :: Memory.write m i a

/-- The memory whose elements `0, 1, ..` are the elements of a list. -/
def Memory.ofList {α : Type} (l : List α) : Memory α := l.zipIdx.map fun p => (p.2, p.1)

/-- The canonical form: indices strictly rising. -/
abbrev Memory.wf {α : Type} (m : Memory α) : Prop := (m.map Prod.fst).Pairwise (· < ·)

/-! ## The queue's set (41_priority_queue.md R153) -/

/-- `PQ ∪ {x}`, kept strictly rising. -/
def pqAdd (x : NodeIdx) : List NodeIdx → List NodeIdx
  | [] => [x]
  | y :: ys => if x < y then x :: y :: ys else if x = y then y :: ys else y :: pqAdd x ys

/-- `PQ \ {x}`. -/
def pqDrop (x : NodeIdx) (q : List NodeIdx) : List NodeIdx := q.filter (· ≠ x)

/-- The set of the node indices in a list, in canonical form; there is no `NODE[511]` (20_memory.md R70). -/
def pqOfList (l : List NodeIdx) : List NodeIdx :=
  (l.filter (·.toNat < nodeCap)).foldr pqAdd []

/-- The canonical form: strictly rising, every member an index of the arena. -/
abbrev pqWf (q : List NodeIdx) : Prop := q.Pairwise (· < ·) ∧ ∀ x ∈ q, x.toNat < nodeCap

/-! ## What a component step answers -/

/-- A step of a command's pseudocode: it completes, it raises an error (00_scope.md R11), or the model stops. -/
inductive Res (α : Type) where
  | done (a : α)
  | raised (k : ErrKind) (st : Stage) (off : Option (BitVec 32))
  | stopped (f : Fault)
deriving DecidableEq, Repr

/-- One step after another; a `raise` "never returns" (R11). -/
def Res.bind {α β : Type} (r : Res α) (f : α → Res β) : Res β :=
  match r with
  | .done a => f a
  | .raised k st off => .raised k st off
  | .stopped e => .stopped e

/-! ## Element access -/

/-- `IBUF[i]`; a free value while undefined (log entry 7). -/
def ibufAt (s : State) (i : Nat) : Byte := (Memory.read s.ibuf i).getD (undefIbuf s.freeCount i)

/-- `OBUF[i]`; a free value while undefined. -/
def obufAt (s : State) (i : Nat) : Byte := (Memory.read s.obuf i).getD (undefObuf s.freeCount i)

/-- `FREQ[y]`; a free value while undefined. -/
def freqAt (s : State) (y : Nat) : BitVec 32 := (Memory.read s.freq y).getD (undefFreq s.freeCount y)

/-- `NODE[i]`; a free value while undefined. -/
def nodeAt (s : State) (i : NodeIdx) : NodeRec :=
  (Memory.read s.node i.toNat).getD (undefNode s.freeCount i.toNat)

/-- `CODE[y]`; a free value while undefined. -/
def codeAt (s : State) (y : Byte) : CodeRec :=
  (Memory.read s.code y.toNat).getD (undefCode s.freeCount y.toNat)

/-- `isLeaf(i)` of 00_scope.md R12. -/
def isLeaf (s : State) (i : NodeIdx) : Bool := decide ((nodeAt s i).kind = .leaf)

/-- Read `NODE[i]`; the arena is `NODE[0 .. 510]` (20_memory.md R70). -/
def readNode (s : State) (i : NodeIdx) : Res NodeRec :=
  if i.toNat < nodeCap then .done (nodeAt s i) else .stopped (.noElement .node i.toNat)

/-- The bytes `IBUF[0 .. ILEN-1]` in increasing index, a whole-input scan (20_memory.md R76). -/
def inputBytes (s : State) : List Byte := (List.range s.ilen.toNat).map (ibufAt s)

/-- The bytes `OBUF[0 .. OLEN-1]` in increasing index. -/
def outputBytes (s : State) : List Byte := (List.range s.olen.toNat).map (obufAt s)

/-- Scan the whole input; no element lies at or beyond `IN_CAP` (R70). -/
def scanInput (s : State) : Res (List Byte) :=
  if s.ilen.toNat ≤ s.params.inCap then .done (inputBytes s)
  else .stopped (.noElement .ibuf s.params.inCap)

/-- The bytes not yet consumed, `IBUF[IPOS .. ILEN-1]` (00_scope.md R12, 20_memory.md R76). -/
def restBytes (s : State) : Res (List Byte) :=
  (scanInput s).bind fun bs => .done (bs.drop s.ipos.toNat)

/-- Scan the whole output; no element lies at or beyond `OUT_CAP` (R70). -/
def scanOutput (s : State) : Res (List Byte) :=
  if s.olen.toNat ≤ s.params.outCap then .done (outputBytes s)
  else .stopped (.noElement .obuf s.params.outCap)

/-- Write `IBUF[ILEN]` and count it (40_buffers_freq.md R130). -/
def State.pushIn (b : Byte) (s : State) : State :=
  { s with ibuf := Memory.write s.ibuf s.ilen.toNat b, ilen := s.ilen + 1 }

/-- Write `OBUF[OLEN]` and count it (00_scope.md R12). -/
def State.pushOut (b : Byte) (s : State) : State :=
  { s with obuf := Memory.write s.obuf s.olen.toNat b, olen := s.olen + 1 }

/-- `OutAppend(b, st)` of 00_scope.md R12. -/
def outAppend (st : Stage) (b : Byte) (s : State) : Res State :=
  if s.olen.toNat = s.params.outCap then .raised .io st (some s.olen)
  else if s.params.outCap < s.olen.toNat then .stopped (.noElement .obuf s.olen.toNat)
  else .done (s.pushOut b)

/-- `OutAppend` of each byte in order. -/
def outAppendAll (st : Stage) : List Byte → State → Res State
  | [], s => .done s
  | b :: bs, s => (outAppend st b s).bind (outAppendAll st bs)

/-- `OLEN <- 0`; the bytes of `OBUF` become undefined (40_buffers_freq.md R133, 10_state.md R36; log entry 8). -/
def State.clearOut (s : State) : State := { s with olen := 0, obuf := [] }

/-! ## Faults and retirement (60_exceptions.md) -/

/-- The code `ERR` takes (R270, R272). -/
def ErrKind.number : ErrKind → BitVec 4
  | .emptyInput => 1
  | .emptyQueue => 2
  | .malformedTree => 3
  | .truncatedStream => 4
  | .unknownSymbol => 5
  | .io => 6
  | .badBitSymbol => 7
  | .illegalCommand => 8
  | .sequence => 9

/-- The code `ERRSTAGE` takes (R273). -/
def Stage.number : Stage → BitVec 4
  | .cmd => 0
  | .buf => 1
  | .freq => 2
  | .pq => 3
  | .build => 4
  | .cgen => 5
  | .ser => 6
  | .des => 7
  | .enc => 8
  | .delim => 9
  | .dec => 10

/-- Fault entry (R274): the record is written, `CIX` is unchanged, and everything else is unspecified
(R275), a free value each (log entry 1). `w` is the command word being executed. -/
def State.enterFault (w : CmdWord) (k : ErrKind) (st : Stage) (off : Option (BitVec 32)) (s : State) : State :=
  let u := afterFault s.freeCount w
  { fault := true, err := k.number, errStage := st.number, errCmd := w
    erroffV := off.isSome, errOff := off.getD 0
    cix := s.cix
    freqV := u.freqV, heapV := u.heapV, treeV := u.treeV, codeV := u.codeV, xrV := u.xrV
    ilen := u.ilen, ipos := u.ipos, olen := u.olen, dsym := u.dsym, hsize := u.hsize, ncnt := u.ncnt
    root := u.root, xr := u.xr, cur := u.cur
    ibuf := [], obuf := [], freq := [], node := [], code := [], pq := pqOfList u.pq
    params := s.params, host := s.host, freeCount := s.freeCount + 1 }

/-- Retirement: `CIX <- (CIX + 1) mod 2^32` (10_state.md R21). -/
def State.retire (s : State) : State := { s with cix := s.cix + 1 }

/-- Issue a command (R277): refused without effect while `FAULT = 1` (R276); else its pseudocode runs, and it
retires or faults. -/
def issue (i : Instr) (body : State → Res State) (s : State) : Host.Outcome State Fault Refusal :=
  if s.fault then .next s
  else
    match body s with
    | .done t => .next t.retire
    | .raised k st off => .next (s.enterFault (encode i) k st off)
    | .stopped f => .fault f

/-- Issue an illegal word (30_encoding.md R105): refused while `FAULT = 1`, else `IllegalCommandError(CMD, none)`. -/
def issueIllegal (w : CmdWord) (s : State) : Host.Outcome State Fault Refusal :=
  if s.fault then .next s else .next (s.enterFault w .illegalCommand .cmd none)

/-- The `SequenceError` test that stands first in a command's pseudocode (10_state.md R33). -/
def need (ok : Bool) (st : Stage) (s : State) : Res State :=
  if ok then .done s else .raised .sequence st none

/-! ## The host (20_memory.md R86) -/

/-- The block after the host's first pending event has been taken from the list. -/
def State.withHost (es : List HostEvent) (s : State) : State := { s with host := es }

/-- Reset asserted (70_reset_and_hazards.md R310): the reset state of R46. The parameters are the block's own;
the host's remaining events stay; memory contents are unspecified anew (log entries 6, 7, 14). -/
def State.hostReset (es : List HostEvent) (s : State) : State :=
  { State.reset with params := s.params, host := es, freeCount := s.freeCount + 1 }

end Sys2Proof.Machine
end

