-- ==== Sys2Proof/Machine/Tree.lean ====
section
/-!
DEFINITION. Trees as values (00_scope.md R14): the value `T(r)` of an arena node, its serialization (44_tree_serdes.md
R200), its path codes (43_code_generator.md R190), and the container format (30_encoding.md R110).
-/

namespace Sys2Proof.Machine

open Sys2Proof.Config

/-- A strict binary tree with symbols at its leaves: the tree value of R14. -/
inductive Tree where
  | leaf (sym : Byte)
  | node (left right : Tree)
deriving DecidableEq, Repr

/-- The number of leaves. -/
def Tree.leaves : Tree → Nat
  | .leaf _ => 1
  | .node l r => l.leaves + r.leaves

/-- The depth in edges (43_code_generator.md R193). -/
def Tree.depth : Tree → Nat
  | .leaf _ => 0
  | .node l r => max l.depth r.depth + 1

/-- The symbols at the leaves, in pre-order. -/
def Tree.symbols : Tree → List Byte
  | .leaf y => [y]
  | .node l r => l.symbols ++ r.symbols

/-- `ser(i)` of R200: marker and payload bytes in pre-order. It depends only on the tree value. -/
def Tree.ser : Tree → List Byte
  | .leaf y => [markLeaf, y]
  | .node l r => markInt :: (l.ser ++ r.ser)

/-- `walk(i, p)` of R190: each leaf's symbol with its path, left subtree first. -/
def Tree.walk : Tree → List Bool → List (Byte × List Bool)
  | .leaf y, p => [(y, p)]
  | .node l r, p => l.walk (p ++ [false]) ++ r.walk (p ++ [true])

/-- The codes CGEN assigns, in the order it writes them (R190); a leaf root gets `SINGLE_CODE` (R191). -/
def Tree.codes : Tree → List (Byte × List Bool)
  | .leaf y => [(y, singleCode)]
  | .node l r => (Tree.node l r).walk []

/-- `CONTAINER = TREE ++ DELIM ++ BITS` (30_encoding.md R110). -/
def container (delim : List Byte) (t : Tree) (bits : List Bool) : List Byte :=
  t.ser ++ delim ++ bits.map symbolOfBit

/-- The levels of the deepest tree the arena can hold: 256 nodes on a path (10_state.md R39, R44). -/
def treeLevels : Nat := 256

/-- `T(i)` (R14), read from the arena with at most the given number of levels. -/
def treeAt (s : State) : Nat → NodeIdx → Res Tree
  | 0, _ => .stopped .notATree
  | fuel + 1, i =>
    (readNode s i).bind fun n =>
      match n.kind with
      | .leaf => .done (.leaf n.sym)
      | .internal =>
        (treeAt s fuel n.left).bind fun l => (treeAt s fuel n.right).bind fun r => .done (.node l r)

/-- `T(ROOT)`. -/
def rootTree (s : State) : Res Tree := treeAt s treeLevels s.root

end Sys2Proof.Machine
end

