-- ==== Sys2Proof/Machine/TreeSerdes.lean ====
section
/-!
DEFINITION. The tree serializer and deserializer: TSER, TDES (spec/44_tree_serdes.md R200 to R206).
-/

namespace Sys2Proof.Machine

open Sys2Proof.Config

/-- The pseudocode of TSER (R201). -/
def tser (s : State) : Res State :=
  (need s.treeV .ser s).bind fun s =>
    (rootTree s).bind fun t => outAppendAll .ser t.ser s

/-- What `parse()` of R203 works on: the bytes from `IPOS` to the end of the input, `IPOS` itself, the number `n`
of nodes created, and the arena rebuilt from index 0. -/
structure ParseState where
  rest : List Byte
  ipos : BitVec 32
  n    : Nat
  node : Memory NodeRec
deriving DecidableEq, Repr

/-- `parse()` took one byte: `IPOS <- IPOS + 1`. -/
def ParseState.took (rest : List Byte) (p : ParseState) : ParseState := { p with rest := rest, ipos := p.ipos + 1 }

/-- `parse()` created node `n`. -/
def ParseState.create (p : ParseState) : ParseState := { p with n := p.n + 1 }

/-- `parse()` wrote `NODE[i]`. -/
def ParseState.put (i : Nat) (r : NodeRec) (p : ParseState) : ParseState :=
  { p with node := Memory.write p.node i r }

/-- The record TDES gives a leaf (R203): weight 0. -/
def desLeaf (y : Byte) : NodeRec := { kind := .leaf, sym := y, weight := 0, left := 0, right := 0 }

/-- The record TDES gives an internal node (R203): weight 0, symbol 0. -/
def desInternal (l r : Nat) : NodeRec :=
  { kind := .internal, sym := 0, weight := 0, left := BitVec.ofNat 9 l, right := BitVec.ofNat 9 r }

/-- `parse()` of R203: the index of the node it made and what is left. Nested calls are bounded by the 511 nodes of
the arena, so 512 levels are never exhausted (log entry 13). -/
def parseNode : Nat → ParseState → Res (Nat × ParseState)
  | 0, _ => .stopped .notATree
  | fuel + 1, p =>
    match p.rest with
    | [] => .raised .malformedTree .des (some p.ipos)
    | m :: rest =>
      match kindOfMarker m with
      | none => .raised .malformedTree .des (some p.ipos)
      | some kind =>
        if p.n = nodeCap then .raised .malformedTree .des (some p.ipos)
        else
          let q := (p.took rest).create
          match kind with
          | .leaf =>
            match q.rest with
            | [] => .raised .malformedTree .des (some q.ipos)
            | y :: rest => .done (p.n, (q.took rest).put p.n (desLeaf y))
          | .internal =>
            (parseNode fuel (q.put p.n (desInternal 0 0))).bind fun l =>
              (parseNode fuel (l.2.put p.n (desInternal l.1 0))).bind fun r =>
                .done (p.n, r.2.put p.n (desInternal l.1 r.1))

/-- The levels `parse()` may nest (log entry 13). -/
def parseLevels : Nat := 512

/-- The pseudocode of TDES (R203). `NODE` at and beyond the new `NCNT` is undefined (log entry 8). -/
def tdes (s : State) : Res State :=
  (restBytes s).bind fun rest =>
    (parseNode parseLevels { rest := rest, ipos := s.ipos, n := 0, node := [] }).bind fun r =>
      .done { s with
        ipos := r.2.ipos
        node := r.2.node
        ncnt := BitVec.ofNat 10 r.2.n
        root := BitVec.ofNat 9 r.1, cur := BitVec.ofNat 9 r.1
        treeV := true, heapV := false, xrV := false }

/-- TSER (0x28). -/
def execTser (s : State) : Host.Outcome State Fault Refusal := issue .tser tser s

/-- TDES (0x29). -/
def execTdes (s : State) : Host.Outcome State Fault Refusal := issue .tdes tdes s

end Sys2Proof.Machine
end

