-- ==== Sys2Proof/Machine/Decoder.lean ====
section
/-!
DEFINITION. The decoder and decompression: DLMS, DSTEP, DEND, DEC, DECOMP (spec/46_decoder.md R240 to R253).
-/

namespace Sys2Proof.Machine

open Sys2Proof.Config

/-- The offset of the first occurrence of a byte string, counted from `p` at the head of the list (R240). -/
def findDelim (delim : List Byte) : Nat → List Byte → Option Nat
  | p, [] => if delim.isPrefixOf [] then some p else none
  | p, b :: bs => if delim.isPrefixOf (b :: bs) then some p else findDelim delim (p + 1) bs

/-- The pseudocode of DLMS (R240). -/
def dlms (s : State) : Res State :=
  (restBytes s).bind fun rest =>
    match findDelim s.params.delim s.ipos.toNat rest with
    | none => .raised .malformedTree .delim (some s.ipos)
    | some p => .done { s with ipos := BitVec.ofNat 32 (p + s.params.delim.length) }

/-- The child of `CUR` a bit leads to (30_encoding.md R115). -/
def childOf (n : NodeRec) (c : Bool) : NodeIdx := if c then n.right else n.left

/-- `step(b, off)` of R244. -/
def decStep (b : Byte) (off : Option (BitVec 32)) (s : State) : Res State :=
  match bitOfSymbol b with
  | none => .raised .badBitSymbol .dec off
  | some c =>
    (readNode s s.root).bind fun r =>
      match r.kind with
      | .leaf => if c then .raised .badBitSymbol .dec off else outAppend .dec r.sym s
      | .internal =>
        (readNode s s.cur).bind fun n =>
          (readNode s (childOf n c)).bind fun m =>
            match m.kind with
            | .leaf => (outAppend .dec m.sym s).bind fun t => .done { t with cur := t.root }
            | .internal => .done { s with cur := childOf n c }

/-- The pseudocode of DSTEP (R244). -/
def dstep (imm : Byte) (s : State) : Res State := (need s.treeV .dec s).bind (decStep imm none)

/-- `if CUR ≠ ROOT then raise TruncatedStreamError(DEC, off)` (R246, R248). -/
def atRoot (off : Option (BitVec 32)) (s : State) : Res State :=
  if s.cur = s.root then .done s else .raised .truncatedStream .dec off

/-- The pseudocode of DEND (R246). -/
def dend (s : State) : Res State := (need s.treeV .dec s).bind (atRoot none)

/-- The loop of DEC over the bytes not yet consumed (R248). -/
def decBytes : List Byte → State → Res State
  | [], s => .done s
  | b :: bs, s =>
    (decStep b (some s.ipos) s).bind fun t => decBytes bs { t with ipos := t.ipos + 1 }

/-- The pseudocode of DEC (R248). -/
def dec (s : State) : Res State :=
  (need s.treeV .dec s).bind fun s =>
    (restBytes s).bind fun rest => (decBytes rest s).bind fun t => atRoot (some t.ilen) t

/-- The pseudocode of DECOMP (R250): IREW, OCLR, TDES, DLMS, DEC. -/
def decomp (s : State) : Res State :=
  (tdes { s.clearOut with ipos := 0 }).bind fun s => (dlms s).bind dec

/-- DLMS (0x38). -/
def execDlms (s : State) : Host.Outcome State Fault Refusal := issue .dlms dlms s

/-- DSTEP `imm` (0x39). -/
def execDstep (imm : Byte) (s : State) : Host.Outcome State Fault Refusal := issue (.dstep imm) (dstep imm) s

/-- DEND (0x3A). -/
def execDend (s : State) : Host.Outcome State Fault Refusal := issue .dend dend s

/-- DEC (0x3B). -/
def execDec (s : State) : Host.Outcome State Fault Refusal := issue .dec dec s

/-- DECOMP (0x3C). -/
def execDecomp (s : State) : Host.Outcome State Fault Refusal := issue .decomp decomp s

end Sys2Proof.Machine
end

