-- ==== Sys2Proof/Machine/Buffers.lean ====
section
/-!
DEFINITION. The buffer commands and the frequency table: IPUSH, ICLR, IREW, OCLR, OMOV, FSCAN
(spec/40_buffers_freq.md R130 to R136). Each command is `issue` of its pseudocode.
-/

namespace Sys2Proof.Machine

open Sys2Proof.Config

/-- The pseudocode of IPUSH (R130). -/
def ipush (imm : Byte) (s : State) : Res State :=
  if s.ilen.toNat = s.params.inCap then .raised .io .buf (some s.ilen)
  else if s.params.inCap < s.ilen.toNat then .stopped (.noElement .ibuf s.ilen.toNat)
  else .done (s.pushIn imm)

/-- The pseudocode of ICLR (R131); "the bytes of IBUF become undefined" (log entry 8). -/
def iclr (s : State) : Res State := .done { s with ilen := 0, ipos := 0, ibuf := [] }

/-- The pseudocode of IREW (R132). -/
def irew (s : State) : Res State := .done { s with ipos := 0 }

/-- The pseudocode of OCLR (R133). -/
def oclr (s : State) : Res State := .done s.clearOut

/-- The pseudocode of OMOV (R134). `IBUF` beyond the new `ILEN` and `OBUF` are undefined (log entry 8). -/
def omov (s : State) : Res State :=
  if s.params.inCap < s.olen.toNat then .raised .io .buf (some (BitVec.ofNat 32 s.params.inCap))
  else (scanOutput s).bind fun bs =>
    .done { s.clearOut with ibuf := Memory.ofList bs, ilen := s.olen, ipos := 0 }

/-- The number of occurrences of the byte of value `y` (10_state.md R37), a 32-bit count. -/
def countOf (bs : List Byte) (y : Nat) : BitVec 32 := BitVec.ofNat 32 (bs.count (BitVec.ofNat 8 y))

/-- The frequency table of a byte sequence: all 256 counts (R136; log entry 17). -/
def freqTable (bs : List Byte) : Memory (BitVec 32) := Memory.ofList ((List.range nsym).map (countOf bs))

/-- The symbols with a positive count, in increasing order: HC's entries (R137). -/
def presentSymbols (count : Nat → BitVec 32) : List Nat := (List.range nsym).filter fun y => count y ≠ 0

/-- The pseudocode of FSCAN (R136). -/
def fscan (s : State) : Res State :=
  (scanInput s).bind fun bs =>
    .done { s with
      freq := freqTable bs
      dsym := BitVec.ofNat 9 (presentSymbols (countOf bs)).length
      freqV := true }

/-- IPUSH `imm` (0x01). -/
def execIpush (imm : Byte) (s : State) : Host.Outcome State Fault Refusal := issue (.ipush imm) (ipush imm) s

/-- ICLR (0x02). -/
def execIclr (s : State) : Host.Outcome State Fault Refusal := issue .iclr iclr s

/-- IREW (0x03). -/
def execIrew (s : State) : Host.Outcome State Fault Refusal := issue .irew irew s

/-- OCLR (0x04). -/
def execOclr (s : State) : Host.Outcome State Fault Refusal := issue .oclr oclr s

/-- OMOV (0x05). -/
def execOmov (s : State) : Host.Outcome State Fault Refusal := issue .omov omov s

/-- FSCAN (0x08). -/
def execFscan (s : State) : Host.Outcome State Fault Refusal := issue .fscan fscan s

end Sys2Proof.Machine
end

