-- ==== Sys2Proof/Machine/Queue.lean ====
section
/-!
DEFINITION. The priority queue: the order of 41_priority_queue.md R151, the abstract queue of R153, and the commands
PQBUILD, PQINS, PQEXT (R154 to R158).
-/

namespace Sys2Proof.Machine

open Sys2Proof.Config

/-- `less(i, j)` of R151: ascending weight, then ascending node index. -/
def less (s : State) (i j : NodeIdx) : Bool :=
  decide ((nodeAt s i).weight < (nodeAt s j).weight)
    || (decide ((nodeAt s i).weight = (nodeAt s j).weight) && decide (i < j))

/-- The member that is least under `less` (R153). -/
def pqLeast (s : State) : List NodeIdx → Option NodeIdx
  | [] => none
  | x :: xs =>
    match pqLeast s xs with
    | none => some x
    | some y => if less s y x then some y else some x

/-- `pq_insert(x)` of R153. -/
def pqInsert (x : NodeIdx) (s : State) : Res State :=
  if x.toNat < nodeCap then .done { s with pq := pqAdd x s.pq, hsize := s.hsize + 1 }
  else .stopped (.noElement .pq x.toNat)

/-- `pq_extractMin(stage)` of R153: the extracted node and the state after. -/
def pqExtractMin (st : Stage) (s : State) : Res (NodeIdx × State) :=
  if s.hsize = 0 then .raised .emptyQueue st none
  else
    match pqLeast s s.pq with
    | none => .stopped .queueMismatch
    | some x => .done (x, { s with pq := pqDrop x s.pq, hsize := s.hsize - 1 })

/-- The leaf PQBUILD makes for a frequency entry (R154). -/
def leafOf (count : Nat → BitVec 32) (y : Nat) : NodeRec :=
  { kind := .leaf, sym := BitVec.ofNat 8 y, weight := count y, left := 0, right := 0 }

/-- The pseudocode of PQBUILD (R154). `NODE` at and beyond the new `NCNT` is undefined (log entry 8). -/
def pqbuild (s : State) : Res State :=
  (need s.freqV .pq s).bind fun s =>
    let ys := presentSymbols (freqAt s)
    .done { s with
      node := Memory.ofList (ys.map (leafOf (freqAt s)))
      ncnt := BitVec.ofNat 10 ys.length
      pq := (List.range ys.length).map (BitVec.ofNat 9)
      hsize := BitVec.ofNat 9 ys.length
      heapV := true, treeV := false, xrV := false }

/-- The pseudocode of PQINS (R156). -/
def pqins (s : State) : Res State :=
  (need (s.heapV && s.xrV) .pq s).bind fun s =>
    (pqInsert s.xr s).bind fun s => .done { s with xrV := false }

/-- The pseudocode of PQEXT (R158). -/
def pqext (s : State) : Res State :=
  (need s.heapV .pq s).bind fun s =>
    (pqExtractMin .pq s).bind fun p => .done { p.2 with xr := p.1, xrV := true }

/-- PQBUILD (0x10). -/
def execPqbuild (s : State) : Host.Outcome State Fault Refusal := issue .pqbuild pqbuild s

/-- PQINS (0x11). -/
def execPqins (s : State) : Host.Outcome State Fault Refusal := issue .pqins pqins s

/-- PQEXT (0x12). -/
def execPqext (s : State) : Host.Outcome State Fault Refusal := issue .pqext pqext s

end Sys2Proof.Machine
end

