-- ==== Sys2Proof/Machine/Builder.lean ====
section
/-!
DEFINITION. The Huffman tree builder: MERGE, TROOT, TBUILD (spec/42_tree_builder.md R170 to R174).
-/

namespace Sys2Proof.Machine

open Sys2Proof.Config

/-- Write `NODE[NCNT]` and count it; the arena is `NODE[0 .. 510]` (20_memory.md R70). -/
def appendNode (n : NodeRec) (s : State) : Res State :=
  if s.ncnt.toNat < nodeCap then
    .done { s with node := Memory.write s.node s.ncnt.toNat n, ncnt := s.ncnt + 1 }
  else .stopped (.noElement .node s.ncnt.toNat)

/-- The internal node MERGE makes of two extracted nodes (R170): the weight is a 32-bit sum (R179). -/
def parentOf (na nb : NodeRec) (a b : NodeIdx) : NodeRec :=
  { kind := .internal, sym := 0, weight := na.weight + nb.weight, left := a, right := b }

/-- The pseudocode of MERGE (R170). -/
def merge (s : State) : Res State :=
  (need s.heapV .build s).bind fun s =>
    (pqExtractMin .build s).bind fun a =>
      (pqExtractMin .build a.2).bind fun b =>
        (readNode b.2 a.1).bind fun na =>
          (readNode b.2 b.1).bind fun nb =>
            (appendNode (parentOf na nb a.1 b.1) b.2).bind fun t =>
              pqInsert (b.2.ncnt.setWidth 9) t

/-- The pseudocode of TROOT (R172). -/
def troot (s : State) : Res State :=
  (need s.heapV .build s).bind fun s =>
    if s.hsize = 0 then .raised .emptyQueue .build none
    else if 1 < s.hsize.toNat then .raised .sequence .build none
    else (pqExtractMin .build s).bind fun p =>
      .done { p.2 with root := p.1, cur := p.1, heapV := false, treeV := true }

/-- `while HSIZE > 1: MERGE` (R174). Each MERGE lowers `HSIZE` by one, so `HSIZE` rounds are enough. -/
def mergeLoop : Nat → State → Res State
  | 0, s => .done s
  | fuel + 1, s => if 1 < s.hsize.toNat then (merge s).bind (mergeLoop fuel) else .done s

/-- The pseudocode of TBUILD (R174). -/
def tbuild (s : State) : Res State :=
  (need s.freqV .build s).bind fun s =>
    if s.dsym = 0 then .raised .emptyInput .build none
    else (pqbuild s).bind fun s => (mergeLoop s.hsize.toNat s).bind troot

/-- MERGE (0x18). -/
def execMerge (s : State) : Host.Outcome State Fault Refusal := issue .merge merge s

/-- TROOT (0x19). -/
def execTroot (s : State) : Host.Outcome State Fault Refusal := issue .troot troot s

/-- TBUILD (0x1A). -/
def execTbuild (s : State) : Host.Outcome State Fault Refusal := issue .tbuild tbuild s

end Sys2Proof.Machine
end

