-- ==== Sys2Proof/Machine/CodeGen.lean ====
section
/-!
DEFINITION. The code generator: CGEN (spec/43_code_generator.md R190 to R194).
-/

namespace Sys2Proof.Machine

open Sys2Proof.Config

/-- The cleared code table: all 256 entries invalid (R190). -/
def clearedCodes : Memory CodeRec := Memory.ofList (List.replicate nsym noCode)

/-- The code table of a tree: the codes written in pre-order over the cleared table, so that the last leaf of a
repeated symbol wins (R194). -/
def codeTable (t : Tree) : Memory CodeRec :=
  t.codes.foldl (fun m e => Memory.write m e.1.toNat (codeOfPath e.2)) clearedCodes

/-- The pseudocode of CGEN (R190). -/
def cgen (s : State) : Res State :=
  (need s.treeV .cgen s).bind fun s =>
    (rootTree s).bind fun t => .done { s with code := codeTable t, codeV := true }

/-- CGEN (0x20). -/
def execCgen (s : State) : Host.Outcome State Fault Refusal := issue .cgen cgen s

end Sys2Proof.Machine
end

