-- ==== Sys2Proof/Machine/Encoder.lean ====
section
/-!
DEFINITION. The encoder and compression: ENC, DLMW, COMP (spec/45_encoder.md R220 to R227).
-/

namespace Sys2Proof.Machine

open Sys2Proof.Config

/-- The code of the input byte `y` at offset `i` is appended, one bit symbol per code bit (R221). A code of more than
255 bits has no bits to read (10_state.md R41; log entry 11). -/
def encByte (i : Nat) (y : Byte) (s : State) : Res State :=
  let c := codeAt s y
  if c.valid = false then .raised .unknownSymbol .enc (some (BitVec.ofNat 32 i))
  else if maxLen < c.len.toNat then .stopped (.noCodeBit c.len.toNat)
  else outAppendAll .enc ((pathOfCode c).map symbolOfBit) s

/-- The input bytes from offset `i` on, in increasing offset (R221). -/
def encBytes : Nat → List Byte → State → Res State
  | _, [], s => .done s
  | i, y :: ys, s => (encByte i y s).bind (encBytes (i + 1) ys)

/-- The pseudocode of ENC (R221). -/
def enc (s : State) : Res State :=
  (need s.codeV .enc s).bind fun s => (scanInput s).bind fun bs => encBytes 0 bs s

/-- The pseudocode of DLMW (R223). -/
def dlmw (s : State) : Res State := outAppendAll .delim s.params.delim s

/-- The pseudocode of COMP (R225): OCLR, FSCAN, TBUILD, CGEN, TSER, DLMW, ENC. -/
def comp (s : State) : Res State :=
  (fscan s.clearOut).bind fun s =>
    (tbuild s).bind fun s => (cgen s).bind fun s => (tser s).bind fun s => (dlmw s).bind enc

/-- ENC (0x30). -/
def execEnc (s : State) : Host.Outcome State Fault Refusal := issue .enc enc s

/-- DLMW (0x31). -/
def execDlmw (s : State) : Host.Outcome State Fault Refusal := issue .dlmw dlmw s

/-- COMP (0x32). -/
def execComp (s : State) : Host.Outcome State Fault Refusal := issue .comp comp s

end Sys2Proof.Machine
end

