-- ==== Sys2Proof/Machine/Dispatch.lean ====
section
/-!
DEFINITION. One arm per command (30_encoding.md R103).
-/

namespace Sys2Proof.Machine

def exec (i : Instr) (s : State) : Host.Outcome State Fault Refusal :=
  match i with
  | .ipush imm => Sys2Proof.Machine.execIpush imm s
  | .iclr => Sys2Proof.Machine.execIclr s
  | .irew => Sys2Proof.Machine.execIrew s
  | .oclr => Sys2Proof.Machine.execOclr s
  | .omov => Sys2Proof.Machine.execOmov s
  | .fscan => Sys2Proof.Machine.execFscan s
  | .pqbuild => Sys2Proof.Machine.execPqbuild s
  | .pqins => Sys2Proof.Machine.execPqins s
  | .pqext => Sys2Proof.Machine.execPqext s
  | .merge => Sys2Proof.Machine.execMerge s
  | .troot => Sys2Proof.Machine.execTroot s
  | .tbuild => Sys2Proof.Machine.execTbuild s
  | .cgen => Sys2Proof.Machine.execCgen s
  | .tser => Sys2Proof.Machine.execTser s
  | .tdes => Sys2Proof.Machine.execTdes s
  | .enc => Sys2Proof.Machine.execEnc s
  | .dlmw => Sys2Proof.Machine.execDlmw s
  | .comp => Sys2Proof.Machine.execComp s
  | .dlms => Sys2Proof.Machine.execDlms s
  | .dstep imm => Sys2Proof.Machine.execDstep imm s
  | .dend => Sys2Proof.Machine.execDend s
  | .dec => Sys2Proof.Machine.execDec s
  | .decomp => Sys2Proof.Machine.execDecomp s

end Sys2Proof.Machine
end

