-- ==== Sys2Proof/Machine/Step.lean ====
section
/-!
DEFINITION. One step of the machine: the host's first pending event is taken (20_memory.md R80, R86). A command word is
decoded and run, or is illegal (30_encoding.md R104, R105); reset puts the block in the reset state (70_reset_and_hazards.md
R310); with no event the block waits (60_exceptions.md R291). Log entries 4, 5.
-/

namespace Sys2Proof.Machine

/-- Run a command word: decode it, then execute it (60_exceptions.md R277). -/
def runWord (w : CmdWord) (s : State) : Host.Outcome State Fault Refusal :=
  match decode w with
  | .ok i => exec i s
  | .error _ => issueIllegal w s

/-- One step. -/
def step (s : State) : Host.Outcome State Fault Refusal :=
  match s.host with
  | [] => .next s
  | .command w :: es => runWord w (s.withHost es)
  | .reset :: es => .next (s.hostReset es)

/-- The state with a command word put first among the host's pending events, in the numbering of
spec/opcode_table.json; the next step takes and runs it (log entry 5). -/
def State.withFetchWord (s : State) (nbits w : Nat) : State :=
  s.withHost (.command (BitVec.ofNat 16 (w % 2 ^ nbits)) :: s.host)

end Sys2Proof.Machine
end

