-- ==== Sys2Proof/Machine/Assembler.lean ====
section
/-!
DEFINITION. The assembler of 30_encoding.md R119 with the pseudo-instructions of R120 (expanded by `Pseudo.expand` of
Decode.lean), and the listing convention of R102: text to command words and back. Log entry 23.
-/

namespace Sys2Proof.Machine

/-- The mnemonic of a command, upper case (R103, R119). -/
def mnemonic : Instr → String
  | .ipush _ => "IPUSH"
  | .iclr => "ICLR"
  | .irew => "IREW"
  | .oclr => "OCLR"
  | .omov => "OMOV"
  | .fscan => "FSCAN"
  | .pqbuild => "PQBUILD"
  | .pqins => "PQINS"
  | .pqext => "PQEXT"
  | .merge => "MERGE"
  | .troot => "TROOT"
  | .tbuild => "TBUILD"
  | .cgen => "CGEN"
  | .tser => "TSER"
  | .tdes => "TDES"
  | .enc => "ENC"
  | .dlmw => "DLMW"
  | .comp => "COMP"
  | .dlms => "DLMS"
  | .dstep _ => "DSTEP"
  | .dend => "DEND"
  | .dec => "DEC"
  | .decomp => "DECOMP"

/-- The format-N commands, whose lines are a mnemonic alone. -/
def plainCommands : List Instr :=
  [.iclr, .irew, .oclr, .omov, .fscan, .pqbuild, .pqins, .pqext, .merge, .troot, .tbuild, .cgen, .tser, .tdes,
    .enc, .dlmw, .comp, .dlms, .dend, .dec, .decomp]

/-- Drop leading blanks. -/
def skipBlanks (cs : List Char) : List Char := cs.dropWhile (fun c => c == ' ' || c == '\t')

/-- Nothing is left of a line but blanks and a comment, which `;` starts (R119). -/
def atEnd (cs : List Char) : Bool :=
  match skipBlanks cs with
  | [] => true
  | c :: _ => c == ';'

/-- The value of a hexadecimal digit, of either case (DESIGN CHOICE, log entry 23). -/
def digitValue (c : Char) : Option Nat :=
  if '0' ≤ c ∧ c ≤ '9' then some (c.toNat - 48)
  else if 'a' ≤ c ∧ c ≤ 'f' then some (c.toNat - 87)
  else if 'A' ≤ c ∧ c ≤ 'F' then some (c.toNat - 55)
  else none

/-- Read digits of a base from the front; the number read so far, whether any digit was read, and the rest. -/
def readDigits (base : Nat) : Nat → Bool → List Char → Option (Nat × List Char)
  | acc, any, [] => if any then some (acc, []) else none
  | acc, any, c :: cs =>
    match digitValue c with
    | some d => if d < base then readDigits base (acc * base + d) true cs else if any then some (acc, c :: cs) else none
    | none => if any then some (acc, c :: cs) else none

/-- The ASCII code of the quote character. -/
def quoteChar : Char := Char.ofNat 39

/-- The number an operand text stands for (R119): hexadecimal after `0x`, a quoted character, or decimal. DESIGN CHOICE
(log entry 23): whatever character stands between the quotes is the operand, so a quoted `;` starts no comment. -/
def readNumber (cs : List Char) : Option (Nat × List Char) :=
  if cs.take 2 = "0x".toList then readDigits 16 0 false (cs.drop 2)
  else if (cs.take 1 ++ (cs.drop 2).take 1) = List.replicate 2 quoteChar then
    (cs.drop 1).head?.map fun c => (c.toNat, cs.drop 3)
  else readDigits 10 0 false cs

/-- An operand: a number 0..255, taken as a data byte (R101). -/
def readOperand (cs : List Char) : Option (Byte × List Char) :=
  match readNumber cs with
  | some (n, rest) => if n < 256 then some (BitVec.ofNat 8 n, rest) else none
  | none => none

/-- The ASCII codes of the double quote and the backslash. -/
def doubleQuote : Char := Char.ofNat 34

def backslash : Char := Char.ofNat 92

/-- The bytes of a quoted string from after its opening quote, and the rest of the line; backslash and `n` stand for `0A`
(the convention of 95_test_vectors.md). DESIGN CHOICE (log entry 23): a `;` before the closing quote is a byte of the string
and starts no comment. -/
def readQuoted : List Char → Option (List Byte × List Char)
  | [] => none
  | c :: cs =>
    if c = doubleQuote then some ([], cs)
    else if c = backslash then
      match cs with
      | d :: ds => if d = 'n' then (readQuoted ds).map fun p => (0x0A :: p.1, p.2) else none
      | [] => none
    else if c.toNat < 256 then (readQuoted cs).map fun p => (BitVec.ofNat 8 c.toNat :: p.1, p.2)
    else none

/-- Byte values up to the end of the line, each in a form of R119 (DESIGN CHOICE, log entry 23); `fuel` bounds their number. -/
def readByteList : Nat → List Char → Option (List Byte)
  | 0, _ => none
  | fuel + 1, cs =>
    if atEnd cs then some []
    else
      match readOperand (skipBlanks cs) with
      | some (b, rest) => (readByteList fuel rest).map (b :: ·)
      | none => none

/-- The operand of IPUSHS and LOAD: "a string or a list of byte values" (R120), to the end of the line. -/
def readBytes (cs : List Char) : Option (List Byte) :=
  let cs := skipBlanks cs
  if cs.head? = some doubleQuote then
    match readQuoted (cs.drop 1) with
    | some (bs, rest) => if atEnd rest then some bs else none
    | none => none
  else readByteList (cs.length + 1) cs

/-- The operand of DBITS: a string of `'0'` and `'1'` characters (R120). -/
def readBits (cs : List Char) : Option (List Bool) :=
  if (skipBlanks cs).head? = some doubleQuote then
    match readBytes cs with
    | some bs => if bs.all (fun b => b == Config.bit0 || b == Config.bit1) then some (bs.map (· == Config.bit1)) else none
    | none => none
  else none

/-- The line of a pseudo-instruction (R120). -/
def readPseudo (word rest : List Char) : Option Pseudo :=
  if word = "IPUSHS".toList then (readBytes rest).map .ipushs
  else if word = "LOAD".toList then (readBytes rest).map .load
  else if word = "DBITS".toList then (readBits rest).map .dbits
  else if word = "ROUNDTRIP".toList then if atEnd rest then some .roundtrip else none
  else if word = "BUILDSTEPWISE".toList then
    match readNumber (skipBlanks rest) with
    | some (n, rest) => if atEnd rest then some (.buildStepwise n) else none
    | none => none
  else none

/-- The line of a command (R119). -/
def readCommand (word rest : List Char) : Option Instr :=
  if word = (mnemonic (.ipush 0)).toList ∨ word = (mnemonic (.dstep 0)).toList then
    match readOperand (skipBlanks rest) with
    | some (b, rest) =>
      if atEnd rest then some (if word = (mnemonic (.ipush 0)).toList then .ipush b else .dstep b) else none
    | none => none
  else if atEnd rest then plainCommands.find? (fun i => word = (mnemonic i).toList)
  else none

/-- The commands of one line: none for a blank line or a comment; no answer for a line that is not assembler text. -/
def assembleLine (line : List Char) : Option (List Instr) :=
  let cs := skipBlanks line
  if atEnd cs then some []
  else
    let word := cs.takeWhile Char.isUpper
    let rest := cs.dropWhile Char.isUpper
    match readCommand word rest with
    | some i => some [i]
    | none => (readPseudo word rest).map Pseudo.expand

/-- Assemble the lines of a program, in order, to command words. -/
def assemble : List (List Char) → Option (List CmdWord)
  | [] => some []
  | line :: lines =>
    match assembleLine line, assemble lines with
    | some is, some ws => some (is.map encode ++ ws)
    | _, _ => none

/-- One hexadecimal digit, upper case. -/
def hexDigit (n : Nat) : Char := if n < 10 then Char.ofNat (48 + n) else Char.ofNat (55 + n)

/-- A command word as four hexadecimal digits, `op` first (R102). -/
def listing (w : CmdWord) : List Char :=
  [hexDigit (w.toNat / 4096 % 16), hexDigit (w.toNat / 256 % 16), hexDigit (w.toNat / 16 % 16), hexDigit (w.toNat % 16)]

end Sys2Proof.Machine
end

