-- ==== Sys2Proof/Machine/Observe.lean ====
section
/-!
DEFINITION. The observation port (20_memory.md R84): what the host reads of an element between commands. A read is a
function of the state and changes nothing (R75). An undefined element has no value (log entry 15).
-/

namespace Sys2Proof.Machine

open Sys2Proof.Config

/-- What a port read answers. -/
inductive ObsWord where
  /-- Space 0: the register, zero-extended to 32 bits. -/
  | reg (v : BitVec 32)
  /-- Spaces 1 and 2: the byte. -/
  | byte (v : Byte)
  /-- Space 3: the count. -/
  | count (v : BitVec 32)
  /-- Space 4: a packed node record. -/
  | node (v : BitVec 64)
  /-- Space 5: a packed code record. -/
  | code (v : BitVec 272)
  /-- Space 6: 1 when the index is a member of `PQ`. -/
  | member (v : BitVec 1)
  /-- The element is undefined: "a model must not give it" a value. -/
  | unspecified
  /-- There is no such element. -/
  | absent
deriving DecidableEq, Repr

/-- `[31:0]` weight, `[39:32]` sym, `[48:40]` left, `[57:49]` right, `[58]` kind (1 = LEAF), `[63:59]` zero. -/
def packNode (n : NodeRec) : BitVec 64 :=
  (0 : BitVec 5) ++ (BitVec.ofBool (decide (n.kind = .leaf)) ++ (n.right ++ (n.left ++ (n.sym ++ n.weight))))

/-- `[254:0]` bits, `[255]` zero, `[264:256]` len, `[265]` valid, `[271:266]` zero. -/
def packCode (c : CodeRec) : BitVec 272 :=
  (0 : BitVec 6) ++ (BitVec.ofBool c.valid ++ (c.len ++ ((0 : BitVec 1) ++ c.bits)))

/-- A value where the element is defined, else unspecified. -/
def obsIf (defined : Bool) (v : ObsWord) : ObsWord := if defined then v else .unspecified

/-- Space 0. The fault record, STATUS and `CIX` are always defined (60_exceptions.md R275); after a fault no other register
is; `D`, `HSIZE`, `ROOT`, `CUR`, `XR` are meaningful only under their flags (10_state.md R25 to R32). -/
def observeReg (s : State) (r : Nat) : ObsWord :=
  let live := !s.fault
  match r with
  | 0x00 => .reg ((status s).setWidth 32)
  | 0x01 => .reg (s.err.setWidth 32)
  | 0x02 => .reg (s.errStage.setWidth 32)
  | 0x03 => .reg s.errOff
  | 0x04 => .reg s.cix
  | 0x05 => obsIf live (.reg s.ilen)
  | 0x06 => obsIf live (.reg s.ipos)
  | 0x07 => obsIf live (.reg s.olen)
  | 0x08 => obsIf (live && s.freqV) (.reg (s.dsym.setWidth 32))
  | 0x09 => obsIf (live && s.heapV) (.reg (s.hsize.setWidth 32))
  | 0x0A => obsIf live (.reg (s.ncnt.setWidth 32))
  | 0x0B => obsIf (live && s.treeV) (.reg (s.root.setWidth 32))
  | 0x0C => obsIf (live && s.xrV) (.reg (s.xr.setWidth 32))
  | 0x0D => obsIf (live && s.treeV) (.reg (s.cur.setWidth 32))
  | 0x0E => .reg (s.errCmd.setWidth 32)
  | _ => .absent

/-- Read one element through the observation port (R84). -/
def observe (s : State) (sp : Space) (i : Nat) : ObsWord :=
  let live := !s.fault
  match sp with
  | .reg => observeReg s i
  | .ibuf =>
    if i < s.params.inCap then obsIf (live && decide (i < s.ilen.toNat)) (.byte (ibufAt s i)) else .absent
  | .obuf =>
    if i < s.params.outCap then obsIf (live && decide (i < s.olen.toNat)) (.byte (obufAt s i)) else .absent
  | .freq => if i < nsym then obsIf (live && s.freqV) (.count (freqAt s i)) else .absent
  | .node =>
    if i < nodeCap then
      obsIf (live && (s.heapV || s.treeV) && decide (i < s.ncnt.toNat)) (.node (packNode (nodeAt s (BitVec.ofNat 9 i))))
    else .absent
  | .code => if i < nsym then obsIf (live && s.codeV) (.code (packCode (codeAt s (BitVec.ofNat 8 i)))) else .absent
  | .pq =>
    if i < nodeCap then
      obsIf (live && s.heapV) (.member (BitVec.ofBool (decide (BitVec.ofNat 9 i ∈ s.pq))))
    else .absent

end Sys2Proof.Machine
end

