-- ==== Sys2Proof/Safety.lean ====
section
/-!
DEFINITION. What a safe run is, in the terms claims use: the canonical forms, the invariants of 10_state.md R22 to R41 that
hold while `FAULT = 0`, and the faults each command may raise (60_exceptions.md R281).
-/

namespace Sys2Proof.Machine

open Sys2Proof.Config

/-- Every memory lists its elements with strictly rising indices, and `PQ` is a strictly rising list of arena indices. -/
structure MemoryForm (s : State) : Prop where
  ibuf : Memory.wf s.ibuf
  obuf : Memory.wf s.obuf
  freq : Memory.wf s.freq
  node : Memory.wf s.node
  code : Memory.wf s.code
  pq   : pqWf s.pq

/-- A memory lists exactly the elements `0 .. n-1`. -/
def Defined {α : Type} (m : Memory α) (n : Nat) : Prop := m.map Prod.fst = List.range n

/-- The bounds of 10_state.md R22 to R24, and of 00_scope.md R7 for the parameters; the buffers hold exactly the bytes
below their lengths (R35, R36). -/
structure BufferInv (s : State) : Prop where
  params  : paramsWellFormed s.params = true
  ilen    : s.ilen.toNat ≤ s.params.inCap
  ipos    : s.ipos.toNat ≤ s.ilen.toNat
  olen    : s.olen.toNat ≤ s.params.outCap
  ibuf    : Defined s.ibuf s.ilen.toNat
  obuf    : Defined s.obuf s.olen.toNat

/-- While `FREQ_V = 1`: all 256 counts are defined, `D` counts the positive ones (R25), and their sum does not pass the
32 bits of a weight (R37, R38). -/
structure FreqInv (s : State) : Prop where
  freq : Defined s.freq nsym
  dsym : s.dsym.toNat = (presentSymbols (freqAt s)).length
  sum  : ((List.range nsym).map fun y => (freqAt s y).toNat).sum ≤ 4294967295

/-- A code record as CGEN leaves it (R41): valid with 1 to 255 bits and zeros above, or cleared. -/
def codeRecOk (c : CodeRec) : Prop :=
  if c.valid then 1 ≤ c.len.toNat ∧ c.len.toNat ≤ maxLen ∧ c.bits.toNat < 2 ^ c.len.toNat else c = noCode

/-- While `CODE_V = 1`: all 256 entries are defined, each as R41 says. -/
structure CodeInv (s : State) : Prop where
  code  : Defined s.code nsym
  codes : ∀ y : Byte, codeRecOk (codeAt s y)

/-- The child indices of a node record. -/
def nodeChildren (n : NodeRec) : List NodeIdx :=
  match n.kind with
  | .leaf => []
  | .internal => [n.left, n.right]

/-- Every child index of an arena, in the order of the parents. -/
def childrenOf (m : Memory NodeRec) : List NodeIdx := m.flatMap fun e => nodeChildren e.2

/-- While the arena is in use (`HEAP_V` or `TREE_V`): `NODE[0 .. NCNT-1]` are defined, children are defined nodes, and no
node is the child of two nodes or a child twice (R39). -/
structure ArenaInv (s : State) : Prop where
  node   : Defined s.node s.ncnt.toNat
  ncnt   : s.ncnt.toNat ≤ nodeCap
  closed : ∀ c ∈ childrenOf s.node, c.toNat < s.ncnt.toNat
  strict : (childrenOf s.node).Nodup

/-- The pending roots: the members of `PQ`, and `XR` while `XR_V = 1` (00_scope.md R15). -/
def pending (s : State) : List NodeIdx := if s.xrV then s.xr :: s.pq else s.pq

/-- The number of leaves of the tree at a node, 0 if there is none. -/
def leavesAt (s : State) (i : NodeIdx) : Nat :=
  match treeAt s treeLevels i with
  | .done t => t.leaves
  | .raised _ _ _ => 0
  | .stopped _ => 0

/-- While `HEAP_V = 1` (R39, R40): `|PQ| = HSIZE`, each pending root is a defined node that is no node's child and holds a
tree, the trees have at most 256 leaves together, the arena has room for the merges to come, and internal weights are sums
of the children's with the pending roots' weights within 32 bits (R38). -/
structure HeapInv (s : State) : Prop where
  size     : s.hsize.toNat = s.pq.length
  distinct : (pending s).Nodup
  defined  : ∀ x ∈ pending s, x.toNat < s.ncnt.toNat
  roots    : ∀ x ∈ pending s, x ∉ childrenOf s.node
  trees    : ∀ x ∈ pending s, ∃ t, treeAt s treeLevels x = .done t
  leaves   : ((pending s).map (leavesAt s)).sum ≤ 256
  room     : s.ncnt.toNat + (pending s).length ≤ 512
  weights  : ((pending s).map fun x => (nodeAt s x).weight.toNat).sum ≤ 4294967295
  sums     : ∀ e ∈ s.node, e.2.kind = .internal →
    e.2.weight.toNat = (nodeAt s e.2.left).weight.toNat + (nodeAt s e.2.right).weight.toNat

/-- While `TREE_V = 1` (R28, R29, R39): `ROOT` is a defined node without a parent, it holds a tree of at most 256 leaves,
and `CUR` is `ROOT` or a defined internal node. -/
structure TreeInv (s : State) : Prop where
  root   : s.root.toNat < s.ncnt.toNat
  orphan : s.root ∉ childrenOf s.node
  tree   : ∃ t, rootTree s = .done t ∧ t.leaves ≤ 256
  cur    : s.cur = s.root ∨ (s.cur.toNat < s.ncnt.toNat ∧ (nodeAt s s.cur).kind = .internal)

/-- What holds between commands while `FAULT = 0`. -/
structure LiveInv (s : State) : Prop where
  buffers : BufferInv s
  oneUse  : ¬ (s.heapV = true ∧ s.treeV = true)
  freq    : s.freqV = true → FreqInv s
  code    : s.codeV = true → CodeInv s
  arena   : s.heapV = true ∨ s.treeV = true → ArenaInv s
  heap    : s.heapV = true → HeapInv s
  tree    : s.treeV = true → TreeInv s

/-- The invariant of the machine. After a fault all but the record is unspecified (60_exceptions.md R275), so only the
canonical forms, the parameters and the cleared memories are left to say. -/
structure Inv (s : State) : Prop where
  form   : MemoryForm s
  params : paramsWellFormed s.params = true
  live   : s.fault = false → LiveInv s

/-- The faults a command may raise, as error kind and stage (60_exceptions.md R281, R273). -/
def faultsOf : Instr → List (ErrKind × Stage)
  | .ipush _ => [(.io, .buf)]
  | .iclr | .irew | .oclr | .fscan => []
  | .omov => [(.io, .buf)]
  | .pqbuild => [(.sequence, .pq)]
  | .pqins => [(.sequence, .pq)]
  | .pqext => [(.sequence, .pq), (.emptyQueue, .pq)]
  | .merge => [(.sequence, .build), (.emptyQueue, .build)]
  | .troot => [(.sequence, .build), (.emptyQueue, .build)]
  | .tbuild => [(.sequence, .build), (.emptyInput, .build)]
  | .cgen => [(.sequence, .cgen)]
  | .tser => [(.sequence, .ser), (.io, .ser)]
  | .tdes => [(.malformedTree, .des)]
  | .enc => [(.sequence, .enc), (.unknownSymbol, .enc), (.io, .enc)]
  | .dlmw => [(.io, .delim)]
  | .comp => [(.emptyInput, .build), (.io, .ser), (.io, .delim), (.io, .enc)]
  | .dlms => [(.malformedTree, .delim)]
  | .dstep _ => [(.sequence, .dec), (.badBitSymbol, .dec), (.io, .dec)]
  | .dend => [(.sequence, .dec), (.truncatedStream, .dec)]
  | .dec => [(.sequence, .dec), (.badBitSymbol, .dec), (.truncatedStream, .dec), (.io, .dec)]
  | .decomp =>
    [(.malformedTree, .des), (.malformedTree, .delim), (.badBitSymbol, .dec), (.truncatedStream, .dec), (.io, .dec)]

/-! ## The vocabulary of the statements -/

/-- The fault record of 60_exceptions.md R274 in the state after, for the command word `w`; `CIX` is unchanged. -/
def FaultRecord (w : CmdWord) (k : ErrKind) (st : Stage) (off : Option (BitVec 32)) (s t : State) : Prop :=
  t.fault = true ∧ t.err = k.number ∧ t.errStage = st.number ∧ t.errCmd = w ∧ t.erroffV = off.isSome ∧
    t.errOff = off.getD 0 ∧ t.cix = s.cix

/-- Command `i` faults in state `s`: the machine answers a next state with the fault record written (R274). -/
def Faults (i : Instr) (s : State) (k : ErrKind) (st : Stage) (off : Option (BitVec 32)) : Prop :=
  ∃ t, exec i s = .next t ∧ FaultRecord (encode i) k st off s t

/-- The bytes `bs` were appended to `OBUF` at `OLEN`: they stand there, `OLEN` has grown by their number, and every
other byte of `OBUF` reads as before (00_scope.md R12, 10_state.md R36). -/
def Appended (s t : State) (bs : List Byte) : Prop :=
  t.olen.toNat = s.olen.toNat + bs.length ∧
    (∀ k (h : k < bs.length), Memory.read t.obuf (s.olen.toNat + k) = some bs[k]) ∧
    ∀ a, a < s.olen.toNat ∨ s.olen.toNat + bs.length ≤ a → Memory.read t.obuf a = Memory.read s.obuf a

/-- The bytes of a sequence of node tokens (30_encoding.md R111): an internal node's marker, or a leaf's marker and
payload. -/
def tokenBytes : List (Option Byte) → List Byte
  | [] => []
  | none :: ts => markInt :: tokenBytes ts
  | some y :: ts => markLeaf :: y :: tokenBytes ts

/-- The commands of a list, one after another; the machine goes on while each answers a next state. -/
def execAll : List Instr → State → Host.Outcome State Fault Refusal
  | [], s => .next s
  | i :: is, s =>
    match exec i s with
    | .next t => execAll is t
    | .fault e => .fault e
    | .refused r => .refused r

end Sys2Proof.Machine
end

