-- ==== Sys2Proof/Certificates/Slice0/Obligations.lean ====
section
/-!
DEFINITION. The statements for the provers, in the order of the spec: encoding, the step, faults and reset, the machine's
invariant and frames, then each command family. A statement's docstring names the rule it formalises. "The spec's own
inference" marks a rule that the spec itself labels "[derived: ...]".
-/

open Sys2Proof Sys2Proof.Machine Sys2Proof.Config

/-! ## Encoding (30_encoding.md) -/

/-- Words of every family, read off the opcode map of R103 by hand, decode to the commands they stand for. -/
def Obligations.KnownWordsDecode : Prop :=
  decode 0x0161 = .ok (.ipush 0x61) ∧ decode 0x0500 = .ok .omov ∧ decode 0x0800 = .ok .fscan ∧
    decode 0x1200 = .ok .pqext ∧ decode 0x1A00 = .ok .tbuild ∧ decode 0x2000 = .ok .cgen ∧ decode 0x2900 = .ok .tdes ∧
    decode 0x3200 = .ok .comp ∧ decode 0x3931 = .ok (.dstep 0x31) ∧ decode 0x3C00 = .ok .decomp

/-- Decoding and encoding agree for every command with every operand, and no second word decodes to a command: a word
decodes to `i` exactly when it is the encoding of `i` (R100, R104, the latter the spec's own inference). -/
def Obligations.DecodeAndEncodeAgree : Prop :=
  ∀ (w : CmdWord) (i : Instr), decode w = .ok i ↔ encode i = w

/-- R119 with the mnemonics of R103: the line of every command assembles to the word R103 gives it, a comment after it or
not. A format-I command's operand is a hexadecimal number, a decimal number, or a quoted character meaning its ASCII byte.
That the quoted character may be any of the 128, among them `;` (no comment then), the quote itself and a line break, and
that upper-case hexadecimal digits are read, are the model's choices (log entry 23). -/
def Obligations.AssemblerReadsEveryCommand : Prop :=
  (∀ (p : String × CmdWord) (comment : List Char),
    p ∈ [("ICLR", 0x0200), ("IREW", 0x0300), ("OCLR", 0x0400), ("OMOV", 0x0500), ("FSCAN", 0x0800), ("PQBUILD", 0x1000), ("PQINS", 0x1100)] ∨
    p ∈ [("PQEXT", 0x1200), ("MERGE", 0x1800), ("TROOT", 0x1900), ("TBUILD", 0x1A00), ("CGEN", 0x2000), ("TSER", 0x2800), ("TDES", 0x2900)] ∨
    p ∈ [("ENC", 0x3000), ("DLMW", 0x3100), ("COMP", 0x3200), ("DLMS", 0x3800), ("DEND", 0x3A00), ("DEC", 0x3B00), ("DECOMP", 0x3C00)] →
    assemble [p.1.toList] = some [p.2] ∧ assemble [p.1.toList ++ [' ', ';'] ++ comment] = some [p.2]) ∧
  (∀ (b : Byte) (operand : List Char), operand = ['0', 'x', hexDigit (b.toNat / 16), hexDigit (b.toNat % 16)] ∨
    operand = b.toNat.repr.toList ∨ (b.toNat < 128 ∧ operand = [Char.ofNat 39, Char.ofNat b.toNat, Char.ofNat 39]) →
    assemble ["IPUSH ".toList ++ operand] = some [BitVec.ofNat 16 (0x0100 + b.toNat)] ∧
    assemble ["DSTEP ".toList ++ operand] = some [BitVec.ofNat 16 (0x3900 + b.toNat)] ∧
    ∀ comment : List Char,
      assemble ["IPUSH ".toList ++ operand ++ [' ', ';'] ++ comment] = some [BitVec.ofNat 16 (0x0100 + b.toNat)] ∧
      assemble ["DSTEP ".toList ++ operand ++ [' ', ';'] ++ comment] = some [BitVec.ofNat 16 (0x3900 + b.toNat)]) ∧
  ∀ comment : List Char, assemble [';' :: comment] = some []

/-- R103: a word `w` is the command of a row when `w & mask = match`, for each of the 23 rows. -/
def Obligations.OpcodeRowsDecideTheCommand : Prop :=
  ∀ (w : CmdWord) (i : Instr), i.row.covers w = true ↔ ∃ j, decode w = .ok j ∧ j.row = i.row

/-- Every word that is no command is rejected by name (R104, R105): an opcode outside R103, or a format-N opcode with a
nonzero operand byte. R104 is the spec's own inference. -/
def Obligations.IllegalWordsAreRejectedByName : Prop :=
  ∀ w : CmdWord,
    (decode w = .error (.unassignedOpcode (opField w)) ↔
      opField w ∉ formatIOpcodes ∧ opField w ∉ formatNOpcodes) ∧
    (decode w = .error (.nonzeroOperand (opField w) (immField w)) ↔
      opField w ∈ formatNOpcodes ∧ immField w ≠ 0) ∧
    ((∃ e, decode w = .error e) ↔ wordWellFormed (opField w) (immField w) = false)

/-! ## The step (20_memory.md R80, R86; log entries 4, 5, 14) -/

/-- When the host's next event is a word that decodes to `i`, the step is `exec i` on the block with that event taken from
the list. The list of host events is the model's (log entry 4). -/
def Obligations.StepRunsTheDecodedCommand : Prop :=
  ∀ (s : State) (w : CmdWord) (es : List HostEvent) (i : Instr), s.host = .command w :: es → decode w = .ok i →
    step s = exec i (s.withHost es)

/-- An illegal word raises `IllegalCommandError(CMD, none)` (R105, R272). The state beside the record is free (log entry 2). -/
def Obligations.IllegalWordFaults : Prop :=
  ∀ (s : State) (w : CmdWord) (es : List HostEvent) (e : Reject), s.host = .command w :: es → s.fault = false →
    decode w = .error e → ∃ t, step s = .next t ∧ FaultRecord w .illegalCommand .cmd none s t

/-- Reset, asserted at any time, gives the reset state of R46; with no event the block waits and its state survives
(R310, R291). The parameters, the host's list and the free-value counter are the model's (log entries 4, 6, 10). -/
def Obligations.ResetAndWaiting : Prop :=
  (∀ (s : State) (es : List HostEvent), s.host = .reset :: es →
    ∃ n, step s = .next { State.reset with params := s.params, host := es, freeCount := n }) ∧
  (∀ s : State, s.host = [] → step s = .next s)

/-! ## Reset and faults (10_state.md R46, 60_exceptions.md) -/

/-- R46: the state after reset. -/
def Obligations.ResetState : Prop :=
  status State.reset = 0 ∧ State.reset.err = 0 ∧ State.reset.errStage = 0 ∧ State.reset.errOff = 0 ∧
    State.reset.errCmd = 0 ∧ State.reset.cix = 0 ∧ State.reset.ilen = 0 ∧ State.reset.ipos = 0 ∧ State.reset.olen = 0 ∧
    State.reset.dsym = 0 ∧ State.reset.hsize = 0 ∧ State.reset.ncnt = 0 ∧ State.reset.root = 0 ∧ State.reset.xr = 0 ∧
    State.reset.cur = 0 ∧ State.reset.pq = []

/-- R270, R272, R273: the codes `ERR` and `ERRSTAGE` take. -/
def Obligations.ErrorAndStageCodes : Prop :=
  [ErrKind.emptyInput, .emptyQueue, .malformedTree, .truncatedStream, .unknownSymbol, .io, .badBitSymbol,
      .illegalCommand, .sequence].map ErrKind.number = [1, 2, 3, 4, 5, 6, 7, 8, 9] ∧
    [Stage.cmd, .buf, .freq, .pq, .build, .cgen, .ser, .des, .enc, .delim, .dec].map Stage.number =
      [0, 1, 2, 3, 4, 5, 6, 7, 8, 9, 10]

/-- R274: when a command's pseudocode raises, the record is written with the command's own word, `CIX` is unchanged and
`fault_o` follows `FAULT`; so after commands that all retired, `CIX` is the faulting command's position in the sequence. -/
def Obligations.FaultEntryWritesTheRecord : Prop :=
  (∀ (w : CmdWord) (k : ErrKind) (st : Stage) (off : Option (BitVec 32)) (s : State),
    FaultRecord w k st off s (s.enterFault w k st off) ∧ faultPin (s.enterFault w k st off) = true) ∧
  (∀ (i : Instr) (s t : State), s.fault = false → exec i s = .next t → t.fault = true →
    ∃ k st off, FaultRecord (encode i) k st off s t) ∧
  (∀ (before : List Instr) (i : Instr) (s t u : State), execAll before s = .next t → t.fault = false →
    exec i t = .next u → u.fault = true → u.cix = s.cix + BitVec.ofNat 32 before.length)

/-- R276: while `FAULT = 1` every word, legal or not, has no effect on any state, and only reset clears `FAULT`. -/
def Obligations.NothingRunsAfterAFault : Prop :=
  (∀ (s : State) (i : Instr), s.fault = true → exec i s = .next s) ∧
  (∀ (s : State) (w : CmdWord) (es : List HostEvent), s.fault = true → s.host = .command w :: es →
    step s = .next (s.withHost es)) ∧
  (∀ s t : State, s.fault = true → step s = .next t → t.fault = false → ∃ es, s.host = .reset :: es)

/-- R281: which command can raise what, and that its record names the kind, the stage and the command word (R274). The
table is the spec's own inference. -/
def Obligations.CommandsRaiseOnlyTheirFaults : Prop :=
  ∀ (i : Instr) (s t : State), Inv s → s.fault = false → exec i s = .next t → t.fault = true →
    ∃ k st off, (k, st) ∈ faultsOf i ∧ FaultRecord (encode i) k st off s t

/-- R311: what each command does as the first one after reset, for any parameters in the ranges of R7. The spec's own
inference. -/
def Obligations.FirstCommandAfterReset : Prop :=
  ∀ (p : Params) (imm : Byte) (s : State), paramsWellFormed p = true → s = { State.reset with params := p } →
    (∀ i ∈ [Instr.ipush imm, .iclr, .irew, .oclr, .omov, .fscan, .dlmw], ∃ t, exec i s = .next t ∧ t.fault = false) ∧
    Faults .comp s .emptyInput .build none ∧
    (∀ i ∈ [Instr.tdes, .decomp], Faults i s .malformedTree .des (some 0)) ∧
    Faults .dlms s .malformedTree .delim (some 0) ∧
    (∀ i ∈ [Instr.pqbuild, .pqins, .pqext], Faults i s .sequence .pq none) ∧
    (∀ i ∈ [Instr.merge, .troot, .tbuild], Faults i s .sequence .build none) ∧
    Faults .cgen s .sequence .cgen none ∧ Faults .tser s .sequence .ser none ∧ Faults .enc s .sequence .enc none ∧
    (∀ i ∈ [Instr.dstep imm, .dend, .dec], Faults i s .sequence .dec none)

/-! ## The machine's invariant and the frames (10_state.md) -/

/-- The invariant of the machine holds right after reset (R22 to R41, R46). -/
def Obligations.InvariantHoldsAtReset : Prop := Inv State.reset

/-- Every step from a state that meets the invariant answers a next state that meets it: the block never stops, indices stay
in range (R71), lengths stay within capacities (R22 to R24), the arena stays a forest (R39), `|PQ| = HSIZE` (R40), the
codes have 1 to 255 bits (R41). R39 and R71 are the spec's own inferences. -/
def Obligations.EveryStepKeepsTheInvariant : Prop :=
  ∀ s : State, Inv s → ∃ t, step s = .next t ∧ Inv t

/-- The canonical form of every memory and of the queue is kept by every step, whatever the state (log entries 7, 12). -/
def Obligations.EveryStepKeepsTheMemoryForm : Prop :=
  ∀ s t : State, MemoryForm s → step s = .next t → MemoryForm t

/-- R42: the parameters are fixed for a run; a step takes exactly the host's first event (log entries 4, 6). -/
def Obligations.StepsKeepParametersAndTakeOneEvent : Prop :=
  ∀ s t : State, step s = .next t → t.params = s.params ∧ t.host = s.host.tail

/-- R21: a command that retires does `CIX <- (CIX + 1) mod 2^32`, one that faults or is refused leaves it, no command reads
it, and a sequence of n commands that all retire advances it by n. -/
def Obligations.CixCountsRetiredCommands : Prop :=
  (∀ (i : Instr) (s t : State), exec i s = .next t →
    (t.fault = false → t.cix = s.cix + 1) ∧ (t.fault = true → t.cix = s.cix)) ∧
  (∀ (i : Instr) (s t : State) (c : BitVec 32), exec i s = .next t →
    exec i { s with cix := c } = .next { t with cix := if t.fault = true then c else c + 1 }) ∧
  (∀ (is : List Instr) (s t : State), execAll is s = .next t → t.fault = false →
    t.cix = s.cix + BitVec.ofNat 32 is.length)

/-- R34 with the table of R33: the bits of `STATUS` (bit 7 reads 0), and what each flag is after a command that retires; a
flag a command does not list is unchanged. -/
def Obligations.FlagsAreWrittenAsTheTableSays : Prop :=
  (∀ s : State, (status s).getLsbD 0 = s.fault ∧ (status s).getLsbD 1 = s.freqV ∧ (status s).getLsbD 2 = s.heapV ∧
    (status s).getLsbD 3 = s.treeV ∧ (status s).getLsbD 4 = s.codeV ∧ (status s).getLsbD 5 = s.xrV ∧
    (status s).getLsbD 6 = s.erroffV ∧ (status s).getLsbD 7 = false) ∧
  ∀ (i : Instr) (s t : State), exec i s = .next t → t.fault = false →
    t.freqV = (if i ∈ [Instr.fscan, .comp] then true else s.freqV) ∧
    t.heapV = (if i = .pqbuild then true else if i ∈ [Instr.troot, .tbuild, .tdes, .comp, .decomp] then false
      else s.heapV) ∧
    t.treeV = (if i = .pqbuild then false else if i ∈ [Instr.troot, .tbuild, .tdes, .comp, .decomp] then true
      else s.treeV) ∧
    t.codeV = (if i ∈ [Instr.cgen, .comp] then true else s.codeV) ∧
    t.xrV = (if i = .pqext then true
      else if i ∈ [Instr.pqins, .pqbuild, .tbuild, .tdes, .comp, .decomp] then false else s.xrV) ∧
    t.erroffV = s.erroffV

/-- The frame of every command over the buffers and their cursors (R22 to R24, R35, R36): a command that retires leaves
`ILEN`, `IPOS`, `OLEN` and every byte of `IBUF` and `OBUF` as they were unless it is one of the commands named for
them. -/
def Obligations.BufferFrame : Prop :=
  ∀ (i : Instr) (s t : State), exec i s = .next t → t.fault = false →
    (((∀ imm, i ≠ .ipush imm) ∧ i ∉ [Instr.iclr, .omov]) →
      t.ilen = s.ilen ∧ ∀ a, Memory.read t.ibuf a = Memory.read s.ibuf a) ∧
    (i ∉ [Instr.iclr, .irew, .omov, .tdes, .dlms, .dec, .decomp] → t.ipos = s.ipos) ∧
    (((∀ imm, i ≠ .dstep imm) ∧ i ∉ [Instr.oclr, .omov, .tser, .dlmw, .enc, .comp, .dec, .decomp]) →
      t.olen = s.olen ∧ ∀ a, Memory.read t.obuf a = Memory.read s.obuf a)

/-- The frame of every command over the tables, the queue, the tree registers and the fault record (R25 to R30, R32,
R37, R38, R40, R41): what a command that retires does not name keeps its value, element by element. That a register keeps its
value while its validity flag is 0 is the model's choice (log entry 9). -/
def Obligations.TableFrame : Prop :=
  ∀ (i : Instr) (s t : State), exec i s = .next t → t.fault = false →
    (i ∉ [Instr.fscan, .comp] → t.dsym = s.dsym ∧ ∀ y, Memory.read t.freq y = Memory.read s.freq y) ∧
    (i ∉ [Instr.pqbuild, .pqins, .pqext, .merge, .troot, .tbuild, .comp] → t.hsize = s.hsize ∧ t.pq = s.pq) ∧
    (i ∉ [Instr.pqbuild, .merge, .tbuild, .tdes, .comp, .decomp] →
      t.ncnt = s.ncnt ∧ ∀ j, Memory.read t.node j = Memory.read s.node j) ∧
    (i ∉ [Instr.troot, .tbuild, .tdes, .comp, .decomp] → t.root = s.root) ∧
    (((∀ imm, i ≠ .dstep imm) ∧ i ∉ [Instr.troot, .tbuild, .tdes, .comp, .dec, .decomp]) → t.cur = s.cur) ∧
    (i ≠ .pqext → t.xr = s.xr) ∧
    (i ∉ [Instr.cgen, .comp] → ∀ y, Memory.read t.code y = Memory.read s.code y) ∧
    t.err = s.err ∧ t.errStage = s.errStage ∧ t.errOff = s.errOff ∧ t.errCmd = s.errCmd ∧ t.erroffV = s.erroffV

/-- R36, R12: TSER, DLMW, ENC, DSTEP and DEC write `OBUF` only at and above the old `OLEN` and below the new one. -/
def Obligations.AppendingKeepsEarlierOutput : Prop :=
  ∀ (i : Instr) (imm : Byte) (s t : State), i ∈ [Instr.tser, .dlmw, .enc, .dstep imm, .dec] →
    paramsWellFormed s.params = true → exec i s = .next t → t.fault = false →
    s.olen.toNat ≤ t.olen.toNat ∧
      ∀ a, a < s.olen.toNat ∨ t.olen.toNat ≤ a → Memory.read t.obuf a = Memory.read s.obuf a

/-- R23, R241: between commands `IPOS ≤ ILEN`, and a command that retires moves `IPOS` forward or leaves it, but for ICLR,
IREW, OMOV and DECOMP, after the first three of which it is 0. R241 is the spec's own inference. -/
def Obligations.CursorOnlyMovesForward : Prop :=
  ∀ (i : Instr) (s t : State), Inv s → exec i s = .next t → t.fault = false →
    t.ipos.toNat ≤ t.ilen.toNat ∧ (i ∉ [Instr.iclr, .irew, .omov, .decomp] → s.ipos.toNat ≤ t.ipos.toNat) ∧
      (i ∈ [Instr.iclr, .irew, .omov] → t.ipos = 0)

/-- R84: what a read of the port answers. The fault record, `STATUS` and `CIX` are read in every state. While `FAULT = 0`
every defined element reads as its value, a node or code record packed as R84's table says; an undefined one reads as
unspecified. After a fault everything else is unspecified. An index outside its space (R70) has no element. Which flag
a register's meaning hangs on is read from R25 to R32 (log entry 15). -/
def Obligations.ObservationPort : Prop :=
  (∀ s : State, observe s .reg 0x00 = .reg ((status s).setWidth 32) ∧ observe s .reg 0x01 = .reg (s.err.setWidth 32) ∧
    observe s .reg 0x02 = .reg (s.errStage.setWidth 32) ∧ observe s .reg 0x03 = .reg s.errOff ∧
    observe s .reg 0x04 = .reg s.cix ∧ observe s .reg 0x0E = .reg (s.errCmd.setWidth 32)) ∧
  (∀ s : State, s.fault = false →
    observe s .reg 0x05 = .reg s.ilen ∧ observe s .reg 0x06 = .reg s.ipos ∧ observe s .reg 0x07 = .reg s.olen ∧
    observe s .reg 0x0A = .reg (s.ncnt.setWidth 32) ∧
    observe s .reg 0x08 = (if s.freqV then .reg (s.dsym.setWidth 32) else .unspecified) ∧
    observe s .reg 0x09 = (if s.heapV then .reg (s.hsize.setWidth 32) else .unspecified) ∧
    observe s .reg 0x0B = (if s.treeV then .reg (s.root.setWidth 32) else .unspecified) ∧
    observe s .reg 0x0C = (if s.xrV then .reg (s.xr.setWidth 32) else .unspecified) ∧
    observe s .reg 0x0D = (if s.treeV then .reg (s.cur.setWidth 32) else .unspecified)) ∧
  (∀ (s : State) (i : Nat), s.fault = false →
    (i < s.params.inCap → observe s .ibuf i = (if i < s.ilen.toNat then .byte (ibufAt s i) else .unspecified)) ∧
    (i < s.params.outCap → observe s .obuf i = (if i < s.olen.toNat then .byte (obufAt s i) else .unspecified)) ∧
    (i < 256 → observe s .freq i = (if s.freqV then .count (freqAt s i) else .unspecified))) ∧
  (∀ (s : State) (n : NodeIdx), s.fault = false → n.toNat < 511 →
    observe s .pq n.toNat = (if s.heapV then .member (if n ∈ s.pq then 1 else 0) else .unspecified) ∧
    ((s.heapV = false ∧ s.treeV = false) ∨ s.ncnt.toNat ≤ n.toNat → observe s .node n.toNat = .unspecified) ∧
    ((s.heapV = true ∨ s.treeV = true) → n.toNat < s.ncnt.toNat → ∃ w, observe s .node n.toNat = .node w ∧
      w.extractLsb' 0 32 = (nodeAt s n).weight ∧ w.extractLsb' 32 8 = (nodeAt s n).sym ∧
      w.extractLsb' 40 9 = (nodeAt s n).left ∧ w.extractLsb' 49 9 = (nodeAt s n).right ∧
      w.getLsbD 58 = decide ((nodeAt s n).kind = .leaf) ∧ w.extractLsb' 59 5 = 0)) ∧
  (∀ (s : State) (y : Byte), s.fault = false →
    (s.codeV = false → observe s .code y.toNat = .unspecified) ∧
    (s.codeV = true → ∃ w, observe s .code y.toNat = .code w ∧
      w.extractLsb' 0 255 = (codeAt s y).bits ∧ w.getLsbD 255 = false ∧ w.extractLsb' 256 9 = (codeAt s y).len ∧
      w.getLsbD 265 = (codeAt s y).valid ∧ w.extractLsb' 266 6 = 0)) ∧
  (∀ (s : State) (i : Nat), s.fault = true →
    (i ∈ [0x05, 0x06, 0x07, 0x08, 0x09, 0x0A, 0x0B, 0x0C, 0x0D] → observe s .reg i = .unspecified) ∧
    (i < s.params.inCap → observe s .ibuf i = .unspecified) ∧ (i < s.params.outCap → observe s .obuf i = .unspecified) ∧
    (i < 256 → observe s .freq i = .unspecified ∧ observe s .code i = .unspecified) ∧
    (i < 511 → observe s .node i = .unspecified ∧ observe s .pq i = .unspecified)) ∧
  (∀ (s : State) (i : Nat), (0x0E < i → observe s .reg i = .absent) ∧ (s.params.inCap ≤ i → observe s .ibuf i = .absent) ∧
    (s.params.outCap ≤ i → observe s .obuf i = .absent) ∧
    (256 ≤ i → observe s .freq i = .absent ∧ observe s .code i = .absent) ∧
    (511 ≤ i → observe s .node i = .absent ∧ observe s .pq i = .absent))

/-! ## Buffers and the frequency table (40_buffers_freq.md) -/

/-- R130: IPUSH appends its byte to `IBUF`, or raises `IOError(BUF, ILEN)` when the buffer is full. -/
def Obligations.IpushAppendsOneByte : Prop :=
  ∀ (s : State) (imm : Byte), s.fault = false →
    (s.ilen.toNat < s.params.inCap → ∃ t, exec (.ipush imm) s = .next t ∧ Memory.read t.ibuf s.ilen.toNat = some imm ∧
      (∀ a, a ≠ s.ilen.toNat → Memory.read t.ibuf a = Memory.read s.ibuf a) ∧
      t = { s with ibuf := t.ibuf, ilen := s.ilen + 1, cix := s.cix + 1 }) ∧
    (s.ilen.toNat = s.params.inCap → Faults (.ipush imm) s .io .buf (some s.ilen))

/-- R131: ICLR sets `ILEN` and `IPOS` to 0 and writes nothing else; the bytes of `IBUF` become undefined. -/
def Obligations.IclrStartsANewInput : Prop :=
  ∀ s : State, s.fault = false →
    ∃ t, exec .iclr s = .next t ∧ t = { s with ilen := 0, ipos := 0, ibuf := t.ibuf, cix := s.cix + 1 }

/-- R132: IREW sets `IPOS` to 0 and writes nothing else. -/
def Obligations.IrewRewindsTheCursor : Prop :=
  ∀ s : State, s.fault = false → exec .irew s = .next { s with ipos := 0, cix := s.cix + 1 }

/-- R133: OCLR sets `OLEN` to 0 and writes no other register; no byte of `OBUF` is then below `OLEN`. -/
def Obligations.OclrStartsANewOutput : Prop :=
  ∀ s : State, s.fault = false →
    ∃ t, exec .oclr s = .next t ∧ t = { s with olen := 0, obuf := t.obuf, cix := s.cix + 1 }

/-- R134: OMOV makes the output the new input, or raises `IOError(BUF, IN_CAP)` when it does not fit. -/
def Obligations.OmovMovesOutputToInput : Prop :=
  ∀ s : State, s.fault = false →
    (s.olen.toNat ≤ s.params.inCap → s.olen.toNat ≤ s.params.outCap → ∃ t, exec .omov s = .next t ∧
      (∀ k, k < s.olen.toNat → ibufAt t k = obufAt s k) ∧
      t = { s with ibuf := t.ibuf, ilen := s.olen, ipos := 0, olen := 0, obuf := t.obuf, cix := s.cix + 1 }) ∧
    (s.params.inCap < s.olen.toNat → Faults .omov s .io .buf (some (BitVec.ofNat 32 s.params.inCap)))

/-- R136: FSCAN counts every byte of the input, counts the distinct ones, and sets `FREQ_V`. -/
def Obligations.FscanCountsTheInput : Prop :=
  ∀ s : State, s.fault = false → s.ilen.toNat ≤ s.params.inCap →
    ∃ t, exec .fscan s = .next t ∧
      (∀ y < 256, (freqAt t y).toNat =
        ((List.range s.ilen.toNat).filter fun k => (ibufAt s k).toNat = y).length) ∧
      t.dsym.toNat = ((List.range 256).filter fun y => 0 < (freqAt t y).toNat).length ∧
      t = { s with freq := t.freq, dsym := t.dsym, freqV := true, cix := s.cix + 1 }

/-- R137: after FSCAN the counts sum to `ILEN`, `D = 0` exactly when `ILEN = 0`, and `D ≤ min(256, ILEN)`. The spec's own
inference. -/
def Obligations.FrequencyTableProperties : Prop :=
  ∀ s t : State, s.ilen.toNat ≤ s.params.inCap → exec .fscan s = .next t → t.fault = false →
    ((List.range 256).map fun y => (freqAt t y).toNat).sum = t.ilen.toNat ∧ (t.dsym = 0 ↔ t.ilen = 0) ∧
      t.dsym.toNat ≤ min 256 t.ilen.toNat

/-! ## The priority queue (41_priority_queue.md) -/

/-- R151: `less` compares weight, then index, and is a strict total order on distinct node indices, so a non-empty set of
them has exactly one least member. -/
def Obligations.LessIsAStrictTotalOrder : Prop :=
  ∀ s : State,
    (∀ i j, less s i j = true ↔ (nodeAt s i).weight.toNat < (nodeAt s j).weight.toNat ∨
      ((nodeAt s i).weight = (nodeAt s j).weight ∧ i.toNat < j.toNat)) ∧
    (∀ i, less s i i = false) ∧
    (∀ i j k, less s i j = true → less s j k = true → less s i k = true) ∧
    (∀ i j, i ≠ j → less s i j = true ∨ less s j i = true) ∧
    (∀ q : List NodeIdx, q ≠ [] → ∃ x ∈ q, (∀ y ∈ q, y ≠ x → less s x y = true) ∧
      ∀ z ∈ q, (∀ y ∈ q, y ≠ z → less s z y = true) → z = x)

/-- R154: PQBUILD makes one leaf per present symbol, in ascending symbol order, and the queue of them, or raises
`SequenceError(PQ)` without a frequency table. -/
def Obligations.PqbuildMakesTheLeaves : Prop :=
  ∀ s : State, s.fault = false →
    (s.freqV = false → Faults .pqbuild s .sequence .pq none) ∧
    (s.freqV = true → ∀ ys, ys = (List.range 256).filter (fun y => 0 < (freqAt s y).toNat) →
      ∃ t, exec .pqbuild s = .next t ∧
        (∀ k (h : k < ys.length), nodeAt t (BitVec.ofNat 9 k) =
          { kind := .leaf, sym := BitVec.ofNat 8 ys[k], weight := freqAt s ys[k], left := 0, right := 0 }) ∧
        t.ncnt.toNat = ys.length ∧ (Inv s → ys.length = s.dsym.toNat) ∧ t.hsize.toNat = ys.length ∧ (∀ x, x ∈ t.pq ↔ x.toNat < ys.length) ∧
        t = { s with node := t.node, ncnt := t.ncnt, pq := t.pq, hsize := t.hsize, heapV := true, treeV := false, xrV := false, cix := s.cix + 1 })

/-- R156: PQINS inserts the node in hand, or raises `SequenceError(PQ)` with no queue or no node in hand. A node index is
below 511 (R70). PQEXT followed at once by PQINS leaves `PQ` as it was. That the queue cannot overflow, so never holds more
than 256 nodes (R156, with the bound of R40), is the spec's own inference. -/
def Obligations.PqinsInsertsTheNodeInHand : Prop :=
  ∀ s : State, s.fault = false →
    (s.heapV = false ∨ s.xrV = false → Faults .pqins s .sequence .pq none) ∧
    (s.heapV = true → s.xrV = true → s.xr.toNat < 511 → ∃ t, exec .pqins s = .next t ∧
      (∀ y, y ∈ t.pq ↔ y = s.xr ∨ y ∈ s.pq) ∧ (Inv s → t.hsize.toNat = s.hsize.toNat + 1 ∧ t.hsize.toNat ≤ 256) ∧
      t = { s with pq := t.pq, hsize := s.hsize + 1, xrV := false, cix := s.cix + 1 }) ∧
    (Inv s → s.heapV = true → s.pq ≠ [] → ∃ t, execAll [.pqext, .pqins] s = .next t ∧ t.fault = false ∧ t.pq = s.pq ∧
      t.hsize = s.hsize ∧ t.xrV = false)

/-- R158: PQEXT takes the least member of the queue in hand, or raises `SequenceError(PQ)` with no queue and
`EmptyQueueError(PQ)` with an empty one. `|PQ| = HSIZE` (R40) is the premise that the set is not empty. -/
def Obligations.PqextTakesTheLeastNode : Prop :=
  ∀ s : State, s.fault = false →
    (s.heapV = false → Faults .pqext s .sequence .pq none) ∧
    (s.heapV = true → s.hsize = 0 → Faults .pqext s .emptyQueue .pq none) ∧
    (s.heapV = true → s.hsize ≠ 0 → s.pq ≠ [] → ∃ x t, exec .pqext s = .next t ∧ x ∈ s.pq ∧
      (∀ y ∈ s.pq, y ≠ x → less s x y = true) ∧ (∀ y, y ∈ t.pq ↔ y ∈ s.pq ∧ y ≠ x) ∧
      t = { s with pq := t.pq, hsize := s.hsize - 1, xr := x, xrV := true, cix := s.cix + 1 })

/-- R159: successive extractions come out in ascending order. The spec's own inference. -/
def Obligations.ExtractionsAscend : Prop :=
  ∀ s t u : State, Inv s → s.heapV = true → exec .pqext s = .next t → exec .pqext t = .next u → u.fault = false →
    less s t.xr u.xr = true

/-! ## The tree builder (42_tree_builder.md) -/

/-- R170: MERGE joins the two least nodes under a new internal node, or raises `SequenceError(BUILD)` with no queue and
`EmptyQueueError(BUILD)` with fewer than two nodes. That neither the arena nor the sum of the weights overflows (R170, R38),
so that both are exact, is the spec's own inference. -/
def Obligations.MergeJoinsTheTwoLeastNodes : Prop :=
  ∀ s : State, Inv s → s.fault = false →
    (s.heapV = false → Faults .merge s .sequence .build none) ∧
    (s.heapV = true → s.hsize.toNat < 2 → Faults .merge s .emptyQueue .build none) ∧
    (s.heapV = true → 2 ≤ s.hsize.toNat → ∃ a b n t, exec .merge s = .next t ∧
      a ∈ s.pq ∧ (∀ y ∈ s.pq, y ≠ a → less s a y = true) ∧
      b ∈ s.pq ∧ b ≠ a ∧ (∀ y ∈ s.pq, y ≠ a → y ≠ b → less s b y = true) ∧
      n.toNat = s.ncnt.toNat ∧
      nodeAt t n = { kind := .internal, sym := 0, weight := (nodeAt s a).weight + (nodeAt s b).weight, left := a, right := b } ∧
      (nodeAt t n).weight.toNat = (nodeAt s a).weight.toNat + (nodeAt s b).weight.toNat ∧
      (∀ j, j ≠ s.ncnt.toNat → Memory.read t.node j = Memory.read s.node j) ∧
      (∀ y, y ∈ t.pq ↔ y = n ∨ (y ∈ s.pq ∧ y ≠ a ∧ y ≠ b)) ∧
      t.ncnt.toNat = s.ncnt.toNat + 1 ∧ t.hsize.toNat + 1 = s.hsize.toNat ∧
      t = { s with node := t.node, ncnt := t.ncnt, pq := t.pq, hsize := t.hsize, cix := s.cix + 1 })

/-- R172: TROOT takes the last node as the root, or raises `SequenceError(BUILD)` with no queue or more than one node and
`EmptyQueueError(BUILD)` with an empty queue. -/
def Obligations.TrootTakesTheLastNode : Prop :=
  ∀ s : State, Inv s → s.fault = false →
    (s.heapV = false → Faults .troot s .sequence .build none) ∧
    (s.heapV = true → s.hsize = 0 → Faults .troot s .emptyQueue .build none) ∧
    (s.heapV = true → 1 < s.hsize.toNat → Faults .troot s .sequence .build none) ∧
    (s.heapV = true → s.hsize = 1 → ∃ r, s.pq = [r] ∧ exec .troot s = .next
      { s with pq := [], hsize := 0, root := r, cur := r, heapV := false, treeV := true, cix := s.cix + 1 })

/-- R174, R176: TBUILD runs PQBUILD, MERGE D − 1 times and TROOT as one command, with the results R174 lists, or raises
`SequenceError(BUILD)` with no frequency table and `EmptyInputError(BUILD)` when `D = 0`. That it equals those commands but for
`CIX` (R176) is the spec's own inference. -/
def Obligations.TbuildBuildsTheTree : Prop :=
  ∀ s : State, Inv s → s.fault = false →
    (s.freqV = false → Faults .tbuild s .sequence .build none) ∧
    (s.freqV = true → s.dsym = 0 → Faults .tbuild s .emptyInput .build none) ∧
    (s.freqV = true → s.dsym ≠ 0 → ∃ t, exec .tbuild s = .next t ∧
      execAll (.pqbuild :: (List.replicate (s.dsym.toNat - 1) .merge ++ [.troot])) s =
        .next { t with cix := s.cix + BitVec.ofNat 32 (s.dsym.toNat + 1) } ∧
      t.ncnt.toNat = 2 * s.dsym.toNat - 1 ∧ t.root.toNat = 2 * s.dsym.toNat - 2 ∧ t.cur = t.root ∧
      t = { s with node := t.node, ncnt := t.ncnt, root := t.root, cur := t.root, pq := [], hsize := 0, heapV := false, treeV := true, xrV := false, cix := s.cix + 1 })

/-- R177: what a built tree satisfies: exactly `D` leaves, one per present symbol, leaves first and in ascending symbol
order, every internal node after its children with the sum of their weights, and the root's weight the sum of all counts.
The spec's own inference. -/
def Obligations.BuiltTreeProperties : Prop :=
  ∀ s t : State, Inv s → s.freqV = true → exec .tbuild s = .next t → t.fault = false →
    ∀ ys, ys = (List.range 256).filter (fun y => 0 < (freqAt s y).toNat) →
      (∃ tr, rootTree t = .done tr ∧ tr.leaves = s.dsym.toNat ∧ tr.symbols.Perm (ys.map (BitVec.ofNat 8))) ∧
      (∀ k (h : k < ys.length), nodeAt t (BitVec.ofNat 9 k) =
        { kind := .leaf, sym := BitVec.ofNat 8 ys[k], weight := freqAt s ys[k], left := 0, right := 0 }) ∧
      (∀ n : NodeIdx, s.dsym.toNat ≤ n.toNat → n.toNat < t.ncnt.toNat → (nodeAt t n).kind = .internal ∧
        (nodeAt t n).left.toNat < n.toNat ∧ (nodeAt t n).right.toNat < n.toNat ∧
        (nodeAt t n).left ≠ (nodeAt t n).right ∧
        (nodeAt t n).weight.toNat =
          (nodeAt t (nodeAt t n).left).weight.toNat + (nodeAt t (nodeAt t n).right).weight.toNat) ∧
      (nodeAt t t.root).weight.toNat = ((List.range 256).map fun y => (freqAt s y).toNat).sum

/-! ## The code generator (43_code_generator.md) -/

/-- R190 (with R191 and R194): CGEN writes all 256 entries: a leaf symbol gets the path to its last leaf in pre-order (a
leaf root the string `0`), every other symbol is cleared; or raises `SequenceError(CGEN)` with no tree. -/
def Obligations.CgenWritesThePathCodes : Prop :=
  ∀ s : State, s.fault = false →
    (s.treeV = false → Faults .cgen s .sequence .cgen none) ∧
    (∀ tr, s.treeV = true → rootTree s = .done tr → ∃ t, exec .cgen s = .next t ∧
      (∀ y : Byte, y ∉ tr.symbols → codeAt t y = { valid := false, len := 0, bits := 0 }) ∧
      (∀ before y p after, tr.codes = before ++ (y, p) :: after → y ∉ after.map Prod.fst →
        (codeAt t y).valid = true ∧ (codeAt t y).len.toNat = p.length ∧
          ∀ k, (codeAt t y).bits.getLsbD k = p.getD k false) ∧
      t = { s with code := t.code, codeV := true, cix := s.cix + 1 })

/-- R192: when the leaf symbols are distinct, no code CGEN writes is a prefix of another symbol's code. The spec's own
inference. -/
def Obligations.CodesArePrefixFree : Prop :=
  ∀ (s t : State) (tr : Tree), s.treeV = true → rootTree s = .done tr → tr.symbols.Nodup → exec .cgen s = .next t →
    t.fault = false → ∀ y z : Byte, y ≠ z → (codeAt t y).valid = true → (codeAt t z).valid = true →
      ¬ pathOfCode (codeAt t y) <+: pathOfCode (codeAt t z)

/-! ## The tree serializer and deserializer (44_tree_serdes.md) -/

/-- R200, R201: TSER appends `ser(ROOT)`, `3·L − 1` bytes, or raises `SequenceError(SER)` with no tree and `IOError(SER)` at
`OUT_CAP` when the buffer fills. -/
def Obligations.TserAppendsTheSerializedTree : Prop :=
  ∀ s : State, s.fault = false → paramsWellFormed s.params = true → s.olen.toNat ≤ s.params.outCap →
    (s.treeV = false → Faults .tser s .sequence .ser none) ∧
    (∀ tr, s.treeV = true → rootTree s = .done tr → tr.ser.length + 1 = 3 * tr.leaves ∧
      (s.olen.toNat + tr.ser.length ≤ s.params.outCap → ∃ t, exec .tser s = .next t ∧ Appended s t tr.ser ∧
        t = { s with obuf := t.obuf, olen := t.olen, cix := s.cix + 1 }) ∧
      (s.params.outCap < s.olen.toNat + tr.ser.length →
        Faults .tser s .io .ser (some (BitVec.ofNat 32 s.params.outCap))))

/-- R203: TDES on an input that continues with a tree of at most 511 nodes rebuilds that tree in pre-order from index 0 and
stops just after it. -/
def Obligations.TdesRebuildsTheTree : Prop :=
  ∀ (s : State) (tr : Tree) (tail : List Byte), s.fault = false → s.ilen.toNat ≤ s.params.inCap →
    (inputBytes s).drop s.ipos.toNat = tr.ser ++ tail → 2 * tr.leaves - 1 ≤ 511 →
    ∃ t, exec .tdes s = .next t ∧ rootTree t = .done tr ∧ t.ncnt.toNat = 2 * tr.leaves - 1 ∧
      t.ipos.toNat = s.ipos.toNat + (3 * tr.leaves - 1) ∧
      (∀ n : NodeIdx, n.toNat < t.ncnt.toNat → (nodeAt t n).weight = 0 ∧
        ((nodeAt t n).kind = .leaf → (nodeAt t n).left = 0 ∧ (nodeAt t n).right = 0) ∧
        ((nodeAt t n).kind = .internal → (nodeAt t n).sym = 0 ∧ (nodeAt t n).left.toNat = n.toNat + 1 ∧
          ∃ l, treeAt t 256 (nodeAt t n).left = .done l ∧ (nodeAt t n).right.toNat = n.toNat + 2 * l.leaves)) ∧
      t = { s with ipos := t.ipos, node := t.node, ncnt := t.ncnt, root := 0, cur := 0, treeV := true, heapV := false, xrV := false, cix := s.cix + 1 }

/-- R204: TDES raises `MalformedTreeError(DES, o)` in exactly four cases. In each, the input continues with the tokens of
nodes (`tokens`) after which a tree needs a further node (`more` completes it): the input ends there, or after that node's
leaf marker (`o = ILEN`); or the byte there is no marker, or a 512th node's marker (`o` its offset). That TDES always ends
is the spec's own inference. -/
def Obligations.TdesFaultsInExactlyFourCases : Prop :=
  ∀ (s : State) (input : List Byte), s.fault = false → s.ilen.toNat ≤ s.params.inCap → s.ipos.toNat ≤ s.ilen.toNat →
    input = (inputBytes s).drop s.ipos.toNat → (∃ t, exec .tdes s = .next t) ∧
    ∀ needsNode : List (Option Byte) → Prop, (∀ tokens, needsNode tokens ↔
      tokens.length ≤ 511 ∧ ∃ tr more, Tree.ser tr = tokenBytes tokens ++ more ∧ more ≠ []) →
    (∀ tokens, needsNode tokens →
      (input = tokenBytes tokens → Faults .tdes s .malformedTree .des (some s.ilen)) ∧
      (input = tokenBytes tokens ++ [0x31] → tokens.length < 511 → Faults .tdes s .malformedTree .des (some s.ilen)) ∧
      (∀ m after, input = tokenBytes tokens ++ m :: after → (m ≠ 0x30 ∧ m ≠ 0x31) ∨ tokens.length = 511 →
        Faults .tdes s .malformedTree .des (some (s.ipos + BitVec.ofNat 32 (tokenBytes tokens).length)))) ∧
    (∀ t, exec .tdes s = .next t → t.fault = true → ∃ tokens, needsNode tokens ∧
      (input = tokenBytes tokens ∨ (input = tokenBytes tokens ++ [0x31] ∧ tokens.length < 511) ∨
        ∃ m after, input = tokenBytes tokens ++ m :: after ∧ ((m ≠ 0x30 ∧ m ≠ 0x31) ∨ tokens.length = 511)))

/-- R207: OCLR, TSER, OMOV, TDES give back the tree at `ROOT`, with `IPOS = ILEN`. The spec's own inference. -/
def Obligations.SerializationRoundTrip : Prop :=
  ∀ (s : State) (tr : Tree), Inv s → s.fault = false → s.treeV = true → rootTree s = .done tr →
    tr.ser.length ≤ s.params.inCap → tr.ser.length ≤ s.params.outCap →
    ∃ t, execAll [.oclr, .tser, .omov, .tdes] s = .next t ∧ t.fault = false ∧ rootTree t = .done tr ∧ t.ipos = t.ilen

/-! ## The encoder and compression (45_encoder.md) -/

/-- R221: ENC appends the code of every input byte, one bit symbol per code bit, or raises `SequenceError(ENC)` with no code
table, `UnknownSymbolError(ENC, i)` at the first byte with no code, and `IOError(ENC)` at `OUT_CAP` when the codes of the
bytes up to some offset do not fit. -/
def Obligations.EncAppendsTheCodes : Prop :=
  ∀ s : State, Inv s → s.fault = false →
    (s.codeV = false → Faults .enc s .sequence .enc none) ∧
    (s.codeV = true → (∀ y ∈ inputBytes s, (codeAt s y).valid = true) →
      ∀ bits, bits = (inputBytes s).flatMap (fun y => (pathOfCode (codeAt s y)).map symbolOfBit) →
        s.olen.toNat + bits.length ≤ s.params.outCap → ∃ t, exec .enc s = .next t ∧ Appended s t bits ∧
          t = { s with obuf := t.obuf, olen := t.olen, cix := s.cix + 1 }) ∧
    (∀ before after, s.codeV = true → inputBytes s = before ++ after → (∀ z ∈ before, (codeAt s z).valid = true) →
      s.params.outCap < s.olen.toNat + (before.flatMap fun z => pathOfCode (codeAt s z)).length →
      Faults .enc s .io .enc (some (BitVec.ofNat 32 s.params.outCap))) ∧
    (∀ before y after, s.codeV = true → inputBytes s = before ++ y :: after → (codeAt s y).valid = false →
      (∀ z ∈ before, (codeAt s z).valid = true) →
      s.olen.toNat + (before.flatMap fun z => pathOfCode (codeAt s z)).length ≤ s.params.outCap →
      Faults .enc s .unknownSymbol .enc (some (BitVec.ofNat 32 before.length)))

/-- R223: DLMW appends the delimiter, or raises `IOError(DELIM)` at `OUT_CAP` when the buffer fills. -/
def Obligations.DlmwAppendsTheDelimiter : Prop :=
  ∀ s : State, s.fault = false → paramsWellFormed s.params = true → s.olen.toNat ≤ s.params.outCap →
    (s.olen.toNat + s.params.delim.length ≤ s.params.outCap → ∃ t, exec .dlmw s = .next t ∧
      Appended s t s.params.delim ∧ t = { s with obuf := t.obuf, olen := t.olen, cix := s.cix + 1 }) ∧
    (s.params.outCap < s.olen.toNat + s.params.delim.length →
      Faults .dlmw s .io .delim (some (BitVec.ofNat 32 s.params.outCap)))

/-- R226: from any non-faulted state COMP reaches the same state as OCLR, FSCAN, TBUILD, CGEN, TSER, DLMW, ENC but for
`CIX`, and faults with the same `ERR`, `ERRSTAGE`, `ERROFF` where one of them would. The spec's own inference. -/
def Obligations.CompEqualsItsParts : Prop :=
  ∀ s u : State, s.fault = false → execAll [.oclr, .fscan, .tbuild, .cgen, .tser, .dlmw, .enc] s = .next u →
    (u.fault = false → exec .comp s = .next { u with cix := s.cix + 1 }) ∧
    (u.fault = true → ∃ t, exec .comp s = .next t ∧ t.fault = true ∧ t.err = u.err ∧ t.errStage = u.errStage ∧
      t.errOff = u.errOff ∧ t.erroffV = u.erroffV ∧ t.errCmd = 0x3200 ∧ t.cix = s.cix)

/-- R225, R110: COMP writes the container of the input: the serialization of a tree whose leaves are the input's distinct
bytes, the delimiter, and the codes of the input bytes in order; or it raises `EmptyInputError` on an empty input and
`IOError` when the container does not fit. That no other fault is possible is the spec's own inference. -/
def Obligations.CompWritesTheContainer : Prop :=
  ∀ s : State, Inv s → s.fault = false →
    (s.ilen = 0 → Faults .comp s .emptyInput .build none) ∧
    (s.ilen ≠ 0 → ∃ (tr : Tree) (code : Byte → List Bool) (out : List Byte), tr.symbols.Nodup ∧
      (∀ y, y ∈ tr.symbols ↔ y ∈ inputBytes s) ∧ (∀ e ∈ tr.codes, code e.1 = e.2) ∧
      out = container s.params.delim tr ((inputBytes s).flatMap code) ∧
      (out.length ≤ s.params.outCap → ∃ t, exec .comp s = .next t ∧ outputBytes t = out ∧ rootTree t = .done tr ∧
        t.dsym.toNat = tr.leaves ∧ t.ncnt.toNat = 2 * t.dsym.toNat - 1 ∧ t.root.toNat = 2 * t.dsym.toNat - 2 ∧
        t.freqV = true ∧ t.heapV = false ∧ t.treeV = true ∧ t.codeV = true ∧ t.xrV = false ∧ t.cur = t.root ∧
        t = { t with ibuf := s.ibuf, ilen := s.ilen, ipos := s.ipos, xr := s.xr, fault := false, cix := s.cix + 1 }) ∧
      (s.params.outCap < out.length → ∃ st ∈ [Stage.ser, .delim, .enc],
        Faults .comp s .io st (some (BitVec.ofNat 32 s.params.outCap))))

/-- COMP completes on every non-empty input whose container is sure to fit: a tree has at most 767 bytes and a code at most
255 bits (R116, R193, the spec's own inferences). -/
def Obligations.CompCompletes : Prop :=
  ∀ s : State, Inv s → s.fault = false → s.ilen ≠ 0 →
    767 + s.params.delim.length + 255 * s.ilen.toNat ≤ s.params.outCap →
    ∃ t, exec .comp s = .next t ∧ t.fault = false ∧ t.cix = s.cix + 1 ∧ t.ibuf = s.ibuf ∧ t.ilen = s.ilen ∧
      t.ipos = s.ipos

/-! ## The decoder and decompression (46_decoder.md) -/

/-- R240: DLMS moves `IPOS` past the first delimiter at or after it, or raises `MalformedTreeError(DELIM, IPOS)`. -/
def Obligations.DlmsSkipsTheFirstDelimiter : Prop :=
  ∀ s : State, s.fault = false → s.ilen.toNat ≤ s.params.inCap →
    ∀ found : Nat → Prop, (∀ p, found p ↔ s.ipos.toNat ≤ p ∧ p + s.params.delim.length ≤ s.ilen.toNat ∧
      ∀ k (h : k < s.params.delim.length), ibufAt s (p + k) = s.params.delim[k]) →
    (∀ p, found p → (∀ q, q < p → ¬ found q) → ∃ t, exec .dlms s = .next t ∧
      t.ipos.toNat = p + s.params.delim.length ∧ t = { s with ipos := t.ipos, cix := s.cix + 1 }) ∧
    (s.params.delim ≠ [] → (∀ p, ¬ found p) → Faults .dlms s .malformedTree .delim (some s.ipos))

/-- R244: DSTEP on a tree whose root is internal moves `CUR` to the child its bit names; at a leaf it appends the leaf's
symbol and returns to `ROOT`. Under a one-leaf tree `'0'` appends the sole symbol and leaves `CUR`. Its faults: no tree, a
byte that is no bit symbol, `'1'` under a one-leaf tree, a full buffer. -/
def Obligations.DstepConsumesOneBitSymbol : Prop :=
  ∀ (s : State) (imm : Byte), s.fault = false → paramsWellFormed s.params = true →
    (s.treeV = false → Faults (.dstep imm) s .sequence .dec none) ∧
    (s.treeV = true → imm ≠ 0x30 → imm ≠ 0x31 → Faults (.dstep imm) s .badBitSymbol .dec none) ∧
    (s.treeV = true → s.root.toNat < 511 → (nodeAt s s.root).kind = .leaf →
      (imm = 0x31 → Faults (.dstep imm) s .badBitSymbol .dec none) ∧
      (imm = 0x30 → s.olen.toNat < s.params.outCap → ∃ t, exec (.dstep imm) s = .next t ∧
        Appended s t [(nodeAt s s.root).sym] ∧ t = { s with obuf := t.obuf, olen := t.olen, cix := s.cix + 1 }) ∧
      (imm = 0x30 → s.olen.toNat = s.params.outCap → Faults (.dstep imm) s .io .dec (some s.olen))) ∧
    (∀ (bit : Bool) (x : NodeIdx), s.treeV = true → s.root.toNat < 511 → (nodeAt s s.root).kind = .internal →
      s.cur.toNat < 511 → imm = (if bit then 0x31 else 0x30) →
      x = (if bit then (nodeAt s s.cur).right else (nodeAt s s.cur).left) → x.toNat < 511 →
      ((nodeAt s x).kind = .internal → exec (.dstep imm) s = .next { s with cur := x, cix := s.cix + 1 }) ∧
      ((nodeAt s x).kind = .leaf → s.olen.toNat < s.params.outCap → ∃ t, exec (.dstep imm) s = .next t ∧
        Appended s t [(nodeAt s x).sym] ∧
        t = { s with obuf := t.obuf, olen := t.olen, cur := s.root, cix := s.cix + 1 }) ∧
      ((nodeAt s x).kind = .leaf → s.olen.toNat = s.params.outCap → Faults (.dstep imm) s .io .dec (some s.olen)))

/-- R246: DEND retires without writing anything when `CUR = ROOT`, and raises `TruncatedStreamError(DEC, none)` otherwise;
`SequenceError(DEC)` with no tree. -/
def Obligations.DendChecksTheCursor : Prop :=
  ∀ s : State, s.fault = false →
    (s.treeV = false → Faults .dend s .sequence .dec none) ∧
    (s.treeV = true → s.cur = s.root → exec .dend s = .next { s with cix := s.cix + 1 }) ∧
    (s.treeV = true → s.cur ≠ s.root → Faults .dend s .truncatedStream .dec none)

/-- R249: DEC has the effect on `CUR`, `OBUF` and `OLEN` of DSTEP for each remaining byte followed by DEND, and advances
`IPOS` to `ILEN`; where the streaming sequence faults, DEC faults with the same kind and stage. The spec's own inference. -/
def Obligations.DecEqualsStreaming : Prop :=
  ∀ s u : State, Inv s → s.fault = false → s.treeV = true →
    execAll (((inputBytes s).drop s.ipos.toNat).map Instr.dstep ++ [.dend]) s = .next u →
    (u.fault = false → exec .dec s =
      .next { s with cur := u.cur, obuf := u.obuf, olen := u.olen, ipos := s.ilen, cix := s.cix + 1 }) ∧
    (u.fault = true → ∃ t, exec .dec s = .next t ∧ t.fault = true ∧ t.err = u.err ∧ t.errStage = u.errStage ∧
      t.errCmd = 0x3B00 ∧ t.cix = s.cix)

/-- R248: DEC decodes a sequence of codes of the tree, from the root, to the symbols they stand for; on a byte that is no bit
symbol after whole codes it raises `BadBitSymbolError` at that byte's offset; on an input that ends inside a code it raises
`TruncatedStreamError(DEC, ILEN)`; with no tree `SequenceError(DEC)`. -/
def Obligations.DecDecodesCodeSequences : Prop :=
  ∀ s : State, Inv s → s.fault = false →
    (s.treeV = false → Faults .dec s .sequence .dec none) ∧
    (∀ (tr : Tree) (es : List (Byte × List Bool)) (rest : List Byte), s.treeV = true → s.cur = s.root →
      rootTree s = .done tr → (∀ e ∈ es, e ∈ tr.codes) →
      (inputBytes s).drop s.ipos.toNat = (es.flatMap fun e => e.2.map symbolOfBit) ++ rest →
      s.olen.toNat + es.length ≤ s.params.outCap →
      (rest = [] → ∃ t, exec .dec s = .next t ∧ Appended s t (es.map Prod.fst) ∧
        t = { s with obuf := t.obuf, olen := t.olen, ipos := s.ilen, cix := s.cix + 1 }) ∧
      (∀ b rest', rest = b :: rest' → b ≠ 0x30 → b ≠ 0x31 →
        Faults .dec s .badBitSymbol .dec
          (some (s.ipos + BitVec.ofNat 32 (es.flatMap fun e => e.2.map symbolOfBit).length))) ∧
      (∀ e p q, e ∈ tr.codes → p ≠ [] → q ≠ [] → e.2 = p ++ q → rest = p.map symbolOfBit →
        Faults .dec s .truncatedStream .dec (some s.ilen)))

/-- R251: from any non-faulted state DECOMP reaches the same state as IREW, OCLR, TDES, DLMS, DEC but for `CIX`, and faults
with the same record but for `ERRCMD` where one of them would. The spec's own inference. -/
def Obligations.DecompEqualsItsParts : Prop :=
  ∀ s u : State, s.fault = false → execAll [.irew, .oclr, .tdes, .dlms, .dec] s = .next u →
    (u.fault = false → exec .decomp s = .next { u with cix := s.cix + 1 }) ∧
    (u.fault = true → ∃ t, exec .decomp s = .next t ∧ t.fault = true ∧ t.err = u.err ∧ t.errStage = u.errStage ∧
      t.errOff = u.errOff ∧ t.erroffV = u.erroffV ∧ t.errCmd = 0x3C00 ∧ t.cix = s.cix)

/-- R250, R110: DECOMP of a container gives the symbols its bit stream stands for, with the flags and results R250 lists. -/
def Obligations.DecompDecodesAContainer : Prop :=
  ∀ (s : State) (tr : Tree) (es : List (Byte × List Bool)), Inv s → s.fault = false → 2 * tr.leaves - 1 ≤ 511 →
    (∀ e ∈ es, e ∈ tr.codes) → es.length ≤ s.params.outCap →
    inputBytes s = container s.params.delim tr (es.flatMap Prod.snd) →
    ∃ t, exec .decomp s = .next t ∧ outputBytes t = es.map Prod.fst ∧ t.olen.toNat = es.length ∧
      rootTree t = .done tr ∧
      t = { s with obuf := t.obuf, olen := t.olen, ipos := s.ilen, node := t.node, ncnt := t.ncnt, root := 0, cur := 0, treeV := true, heapV := false, xrV := false, cix := s.cix + 1 }

/-- R252: the round trip. From any state between commands with a non-empty input, if COMP retires and its container fits the
input buffer, COMP, OMOV, DECOMP all retire and leave the input's bytes in the output. The spec's own inference. -/
def Obligations.CompressionRoundTrip : Prop :=
  ∀ s t : State, Inv s → s.fault = false → exec .comp s = .next t → t.fault = false →
    t.olen.toNat ≤ s.params.inCap →
    ∃ u, execAll [.comp, .omov, .decomp] s = .next u ∧ u.fault = false ∧ outputBytes u = inputBytes s
end

