-- ==== Sys2Proof/Laws/Memory.lean ====
section
/-!
SUPPORT. The laws of memories and of the queue's set: a read after a write, what a write leaves alone, and that every
operation keeps the canonical form.
-/

namespace Sys2Proof.Machine

open Sys2Proof.Config

/-! ## Memories -/

@[simp] theorem Memory.read_nil {α : Type} (i : Nat) : Memory.read ([] : Memory α) i = none := rfl

@[simp] theorem Memory.wf_nil {α : Type} : Memory.wf ([] : Memory α) := List.Pairwise.nil

theorem Memory.read_none {α : Type} {m : Memory α} {i : Nat} (h : i ∉ m.map Prod.fst) : Memory.read m i = none := by
  induction m with
  | nil => rfl
  | cons e m ih =>
    obtain ⟨j, b⟩ := e
    simp only [List.map_cons, List.mem_cons, not_or] at h
    simp [Memory.read, Ne.symm h.1, ih h.2]

theorem Memory.read_mem {α : Type} {m : Memory α} {i : Nat} {a : α} (h : Memory.read m i = some a) : (i, a) ∈ m := by
  induction m with
  | nil => simp at h
  | cons e m ih =>
    obtain ⟨j, b⟩ := e
    simp only [Memory.read] at h
    split at h
    · simp_all
    · exact List.mem_cons_of_mem _ (ih h)

theorem Memory.read_of_mem {α : Type} {m : Memory α} (hw : Memory.wf m) {i : Nat} {a : α} (h : (i, a) ∈ m) :
    Memory.read m i = some a := by
  induction m with
  | nil => simp at h
  | cons e m ih =>
    obtain ⟨j, b⟩ := e
    simp only [Memory.wf, List.map_cons, List.pairwise_cons] at hw
    rcases List.mem_cons.mp h with h | h
    · cases h; simp [Memory.read]
    · have : j < i := hw.1 i (List.mem_map_of_mem (f := Prod.fst) h)
      simp [Memory.read, Nat.ne_of_lt this, ih hw.2 h]

/-- A listed element has a value. -/
theorem Memory.read_some {α : Type} {m : Memory α} {i : Nat} (h : i ∈ m.map Prod.fst) : ∃ a, Memory.read m i = some a := by
  induction m with
  | nil => simp at h
  | cons e m ih =>
    obtain ⟨j, b⟩ := e
    by_cases hj : j = i
    · exact ⟨b, by simp [Memory.read, hj]⟩
    · have : i ∈ m.map Prod.fst := by
        simp only [List.map_cons, List.mem_cons] at h
        exact h.resolve_left (Ne.symm hj)
      obtain ⟨a, ha⟩ := ih this
      exact ⟨a, by simp [Memory.read, hj, ha]⟩

/-- A read after a write to the same element gives the value written. -/
@[simp] theorem Memory.read_write_same {α : Type} (m : Memory α) (i : Nat) (a : α) :
    Memory.read (Memory.write m i a) i = some a := by
  induction m with
  | nil => simp [Memory.write, Memory.read]
  | cons e m ih =>
    obtain ⟨j, b⟩ := e
    simp only [Memory.write]
    split
    · simp [Memory.read]
    · split
      · simp [Memory.read]
      · rename_i h
        simp [Memory.read, Ne.symm h, ih]

/-- A write leaves every other element alone. -/
theorem Memory.read_write_other {α : Type} (m : Memory α) {i k : Nat} (a : α) (h : k ≠ i) :
    Memory.read (Memory.write m i a) k = Memory.read m k := by
  induction m with
  | nil => simp [Memory.write, Memory.read, Ne.symm h]
  | cons e m ih =>
    obtain ⟨j, b⟩ := e
    simp only [Memory.write]
    split
    · simp [Memory.read, Ne.symm h]
    · split
      · rename_i h'; subst h'; simp [Memory.read, Ne.symm h]
      · simp [Memory.read, ih]

theorem Memory.mem_keys_write {α : Type} {m : Memory α} {i k : Nat} {a : α} :
    k ∈ (Memory.write m i a).map Prod.fst ↔ k = i ∨ k ∈ m.map Prod.fst := by
  induction m with
  | nil => simp [Memory.write]
  | cons e m ih =>
    obtain ⟨j, b⟩ := e
    simp only [Memory.write]
    split
    · simp
    · split
      · rename_i h; subst h; simp
      · simp only [List.map_cons, List.mem_cons, ih]; tauto

/-- A write keeps the canonical form. -/
theorem Memory.write_wf {α : Type} {m : Memory α} (h : Memory.wf m) (i : Nat) (a : α) : Memory.wf (Memory.write m i a) := by
  induction m with
  | nil => simp [Memory.write, Memory.wf]
  | cons e m ih =>
    obtain ⟨j, b⟩ := e
    have hh := h
    simp only [Memory.wf, List.map_cons, List.pairwise_cons] at h
    simp only [Memory.write]
    split
    · rename_i hij
      simp only [Memory.wf, List.map_cons, List.pairwise_cons, List.mem_cons]
      refine ⟨?_, h⟩
      rintro k (rfl | hk)
      · exact hij
      · exact Nat.lt_trans hij (h.1 k hk)
    · split
      · rename_i hij; subst hij; exact hh
      · rename_i h1 h2
        simp only [Memory.wf, List.map_cons, List.pairwise_cons]
        refine ⟨?_, ih h.2⟩
        intro k hk
        rcases Memory.mem_keys_write.mp hk with rfl | hk
        · omega
        · exact h.1 k hk

/-- A write above every listed element appends. -/
theorem Memory.write_append {α : Type} {m : Memory α} {i : Nat} {a : α} (h : ∀ k ∈ m.map Prod.fst, k < i) :
    Memory.write m i a = m ++ [(i, a)] := by
  induction m with
  | nil => rfl
  | cons e m ih =>
    obtain ⟨j, b⟩ := e
    have hj : j < i := h j (by simp)
    have hm : ∀ k ∈ m.map Prod.fst, k < i := fun k hk => h k (by simp only [List.map_cons, List.mem_cons]; exact .inr hk)
    simp [Memory.write, Nat.not_lt.mpr (Nat.le_of_lt hj), Nat.ne_of_gt hj, ih hm]

/-- A write to a listed element keeps the listed indices. -/
theorem Memory.keys_write_mem {α : Type} {m : Memory α} (hw : Memory.wf m) {i : Nat} (a : α) (h : i ∈ m.map Prod.fst) :
    (Memory.write m i a).map Prod.fst = m.map Prod.fst := by
  induction m with
  | nil => simp at h
  | cons e m ih =>
    obtain ⟨j, b⟩ := e
    simp only [Memory.wf, List.map_cons, List.pairwise_cons] at hw
    simp only [List.map_cons, List.mem_cons] at h
    simp only [Memory.write]
    split
    · rename_i hij
      rcases h with h | h
      · omega
      · exact absurd (hw.1 i h) (by omega)
    · split
      · rename_i hij; simp [hij]
      · rename_i h1 h2
        simp [ih hw.2 (h.resolve_left h2)]

theorem Memory.read_append_left {α : Type} {m m' : Memory α} {i : Nat} {a : α} (h : Memory.read m i = some a) :
    Memory.read (m ++ m') i = some a := by
  induction m with
  | nil => simp at h
  | cons e m ih =>
    obtain ⟨j, b⟩ := e
    simp only [Memory.read] at h
    simp only [List.cons_append, Memory.read]
    split
    · simpa [*] using h
    · exact ih (by simpa [*] using h)

theorem Memory.read_append_right {α : Type} {m m' : Memory α} {i : Nat} (h : i ∉ m.map Prod.fst) :
    Memory.read (m ++ m') i = Memory.read m' i := by
  induction m with
  | nil => rfl
  | cons e m ih =>
    obtain ⟨j, b⟩ := e
    simp only [List.map_cons, List.mem_cons, not_or] at h
    simp [Memory.read, Ne.symm h.1, ih h.2]

/-! ### Memories that list exactly `0 .. n-1` -/

theorem Defined.wf {α : Type} {m : Memory α} {n : Nat} (h : Defined m n) : Memory.wf m := by
  unfold Memory.wf
  rw [h]
  exact List.pairwise_lt_range

theorem Defined.mem_keys {α : Type} {m : Memory α} {n i : Nat} (h : Defined m n) : i ∈ m.map Prod.fst ↔ i < n := by
  rw [h]; exact List.mem_range

theorem Defined.read {α : Type} {m : Memory α} {n i : Nat} (h : Defined m n) (hi : i < n) : ∃ a, Memory.read m i = some a :=
  Memory.read_some (h.mem_keys.mpr hi)

theorem Defined.read_none {α : Type} {m : Memory α} {n i : Nat} (h : Defined m n) (hi : n ≤ i) : Memory.read m i = none :=
  Memory.read_none fun hm => absurd (h.mem_keys.mp hm) (by omega)

@[simp] theorem Defined.nil {α : Type} : Defined ([] : Memory α) 0 := rfl

/-- Writing the next element of a memory that lists `0 .. n-1`. -/
theorem Defined.write_next {α : Type} {m : Memory α} {n : Nat} (h : Defined m n) (a : α) :
    Memory.write m n a = m ++ [(n, a)] :=
  Memory.write_append fun _ hk => h.mem_keys.mp hk

theorem Defined.succ {α : Type} {m : Memory α} {n : Nat} (h : Defined m n) (a : α) : Defined (Memory.write m n a) (n + 1) := by
  rw [h.write_next]
  simp [Defined, List.range_succ, show m.map Prod.fst = List.range n from h]

theorem Defined.write_lt {α : Type} {m : Memory α} {n i : Nat} (h : Defined m n) (a : α) (hi : i < n) :
    Defined (Memory.write m i a) n := by
  unfold Defined
  rw [Memory.keys_write_mem h.wf a (h.mem_keys.mpr hi)]
  exact h

/-- Two memories that list `0 .. n-1` and read the same there are equal. -/
theorem Defined.ext {α : Type} {m m' : Memory α} {n : Nat} (h : Defined m n) (h' : Defined m' n)
    (hr : ∀ i < n, Memory.read m i = Memory.read m' i) : m = m' := by
  have hk : m.map Prod.fst = m'.map Prod.fst := by rw [h, h']
  have hlen : m.length = m'.length := by simpa using congrArg List.length hk
  refine List.ext_getElem hlen fun k h1 h2 => ?_
  have e1 : (m[k]).1 = (m'[k]).1 := by
    have := congrArg (fun l => l[k]?) hk
    simpa [List.getElem?_map, List.getElem?_eq_getElem h1, List.getElem?_eq_getElem h2] using this
  have i1 : (m[k]).1 < n := h.mem_keys.mp (List.mem_map_of_mem (List.getElem_mem h1))
  have r1 := Memory.read_of_mem h.wf (i := (m[k]).1) (a := (m[k]).2) (List.getElem_mem h1)
  have r2 := Memory.read_of_mem h'.wf (i := (m'[k]).1) (a := (m'[k]).2) (List.getElem_mem h2)
  rw [hr _ i1, e1, r2] at r1
  exact Prod.ext e1 (Option.some.inj r1).symm

/-- The memory of a list lists its elements. -/
theorem Memory.ofList_defined {α : Type} (l : List α) : Defined (Memory.ofList l) l.length := by
  unfold Defined Memory.ofList
  rw [List.map_map]
  have : (Prod.fst ∘ fun p : α × Nat => (p.2, p.1)) = Prod.snd := rfl
  rw [this, List.zipIdx_map_snd, List.range_eq_range']

theorem Memory.read_zipIdx {α : Type} (l : List α) (k i : Nat) :
    Memory.read ((l.zipIdx k).map fun p => (p.2, p.1)) (k + i) = l[i]? := by
  induction l generalizing k i with
  | nil => simp
  | cons a l ih =>
    cases i with
    | zero => simp [Memory.read]
    | succ i =>
      have := ih (k + 1) i
      simp only [List.zipIdx_cons, List.map_cons, Memory.read]
      rw [if_neg (by omega), show k + (i + 1) = k + 1 + i by omega, this]
      simp

@[simp] theorem Memory.read_ofList {α : Type} (l : List α) (i : Nat) : Memory.read (Memory.ofList l) i = l[i]? := by
  simpa [Memory.ofList] using Memory.read_zipIdx l 0 i

theorem Memory.ofList_wf {α : Type} (l : List α) : Memory.wf (Memory.ofList l) := (Memory.ofList_defined l).wf

/-- A memory that lists `0 .. n-1` is the memory of its values. -/
theorem Defined.eq_ofList {α : Type} {m : Memory α} {n : Nat} (h : Defined m n) : m = Memory.ofList (m.map Prod.snd) := by
  have hl : (m.map Prod.snd).length = n := by simpa using congrArg List.length h
  refine Defined.ext h (hl ▸ Memory.ofList_defined _) fun i hi => ?_
  have hi' : i < m.length := by rw [List.length_map] at hl; omega
  have hk : (m[i]).1 = i := by
    have := congrArg (fun l => l[i]?) (show m.map Prod.fst = List.range n from h)
    simpa [List.getElem?_map, List.getElem?_eq_getElem hi', List.getElem?_range hi] using this
  have hmem : (i, (m[i]).2) ∈ m := by
    have := List.getElem_mem hi'
    rwa [show m[i] = (i, (m[i]).2) from Prod.ext hk rfl] at this
  rw [Memory.read_of_mem h.wf hmem]
  simp [List.getElem?_map, List.getElem?_eq_getElem hi']

/-! ## The queue's set -/

theorem mem_pqAdd {x y : NodeIdx} {q : List NodeIdx} : y ∈ pqAdd x q ↔ y = x ∨ y ∈ q := by
  induction q with
  | nil => simp [pqAdd]
  | cons z q ih =>
    simp only [pqAdd]
    split
    · simp
    · split
      · rename_i h; subst h; simp
      · simp only [List.mem_cons, ih]; tauto

theorem pqAdd_sorted {x : NodeIdx} {q : List NodeIdx} (h : q.Pairwise (· < ·)) : (pqAdd x q).Pairwise (· < ·) := by
  induction q with
  | nil => simp [pqAdd]
  | cons z q ih =>
    have hh := h
    simp only [List.pairwise_cons] at h
    simp only [pqAdd]
    split
    · rename_i hxz
      simp only [List.pairwise_cons, List.mem_cons]
      refine ⟨?_, h⟩
      rintro k (rfl | hk)
      · exact hxz
      · exact BitVec.lt_trans hxz (h.1 k hk)
    · split
      · exact hh
      · rename_i h1 h2
        simp only [List.pairwise_cons]
        refine ⟨?_, ih h.2⟩
        intro k hk
        rcases mem_pqAdd.mp hk with rfl | hk
        · have hne : k.toNat ≠ z.toNat := fun e => h2 (BitVec.eq_of_toNat_eq e)
          rw [BitVec.lt_def] at *
          omega
        · exact h.1 k hk

/-- Adding an arena index keeps the canonical form. -/
theorem pqAdd_wf {x : NodeIdx} {q : List NodeIdx} (h : pqWf q) (hx : x.toNat < nodeCap) : pqWf (pqAdd x q) := by
  refine ⟨pqAdd_sorted h.1, fun y hy => ?_⟩
  rcases mem_pqAdd.mp hy with rfl | hy
  · exact hx
  · exact h.2 y hy

theorem mem_pqDrop {x y : NodeIdx} {q : List NodeIdx} : y ∈ pqDrop x q ↔ y ∈ q ∧ y ≠ x := by simp [pqDrop]

/-- Removing a member keeps the canonical form. -/
theorem pqDrop_wf {q : List NodeIdx} (h : pqWf q) (x : NodeIdx) : pqWf (pqDrop x q) :=
  ⟨h.1.filter _, fun y hy => h.2 y (mem_pqDrop.mp hy).1⟩

/-- A set made from any list is in canonical form. -/
theorem pqOfList_wf (l : List NodeIdx) : pqWf (pqOfList l) := by
  unfold pqOfList
  induction l with
  | nil => simp [pqWf]
  | cons x l ih =>
    rw [List.filter_cons]
    split
    · rename_i hx; exact pqAdd_wf ih (by simpa using hx)
    · exact ih

theorem sorted_nodup {q : List NodeIdx} (h : q.Pairwise (· < ·)) : q.Nodup :=
  h.imp fun h e => by subst e; rw [BitVec.lt_def] at h; omega

/-- Two rising lists with the same members are equal. -/
theorem sorted_ext {q q' : List NodeIdx} (h : q.Pairwise (· < ·)) (h' : q'.Pairwise (· < ·)) (hm : ∀ x, x ∈ q ↔ x ∈ q') :
    q = q' :=
  List.Perm.eq_of_pairwise (le := (· < ·))
    (fun a b _ _ h1 h2 => by rw [BitVec.lt_def] at *; omega) h h'
    ((List.perm_ext_iff_of_nodup (sorted_nodup h) (sorted_nodup h')).mpr hm)

theorem pqAdd_perm {x : NodeIdx} {q : List NodeIdx} (h : q.Pairwise (· < ·)) (hx : x ∉ q) : (pqAdd x q).Perm (x :: q) :=
  (List.perm_ext_iff_of_nodup (sorted_nodup (pqAdd_sorted h)) (List.nodup_cons.mpr ⟨hx, sorted_nodup h⟩)).mpr
    fun y => by simp [mem_pqAdd]

theorem pqDrop_perm {x : NodeIdx} {q : List NodeIdx} (h : q.Pairwise (· < ·)) (hx : x ∈ q) : q.Perm (x :: pqDrop x q) :=
  (List.perm_ext_iff_of_nodup (sorted_nodup h)
    (List.nodup_cons.mpr ⟨by simp, (sorted_nodup h).filter _⟩)).mpr
    fun y => by
      change y ∈ q ↔ y ∈ x :: pqDrop x q
      rw [List.mem_cons, mem_pqDrop]
      by_cases e : y = x
      · simp [e, hx]
      · simp [e]

/-- Putting a removed member back gives the same set. -/
theorem pqAdd_pqDrop {x : NodeIdx} {q : List NodeIdx} (h : q.Pairwise (· < ·)) (hx : x ∈ q) : pqAdd x (pqDrop x q) = q :=
  sorted_ext (pqAdd_sorted (h.filter _)) h fun y => by
    rw [mem_pqAdd, mem_pqDrop]
    by_cases e : y = x
    · simp [e, hx]
    · simp [e]

end Sys2Proof.Machine
end

