-- ==== Sys2Proof/Laws/State.lean ====
section
/-!
SUPPORT. What each named update of the state does to each field: one lemma per field per update, true by `rfl`.
-/

namespace Sys2Proof.Machine

open Sys2Proof.Config

/-! ## `State.retire` -/

@[simp] theorem State.retire_fault (s : State) : s.retire.fault = s.fault := rfl
@[simp] theorem State.retire_freqV (s : State) : s.retire.freqV = s.freqV := rfl
@[simp] theorem State.retire_heapV (s : State) : s.retire.heapV = s.heapV := rfl
@[simp] theorem State.retire_treeV (s : State) : s.retire.treeV = s.treeV := rfl
@[simp] theorem State.retire_codeV (s : State) : s.retire.codeV = s.codeV := rfl
@[simp] theorem State.retire_xrV (s : State) : s.retire.xrV = s.xrV := rfl
@[simp] theorem State.retire_erroffV (s : State) : s.retire.erroffV = s.erroffV := rfl
@[simp] theorem State.retire_err (s : State) : s.retire.err = s.err := rfl
@[simp] theorem State.retire_errStage (s : State) : s.retire.errStage = s.errStage := rfl
@[simp] theorem State.retire_errOff (s : State) : s.retire.errOff = s.errOff := rfl
@[simp] theorem State.retire_errCmd (s : State) : s.retire.errCmd = s.errCmd := rfl
@[simp] theorem State.retire_cix (s : State) : s.retire.cix = s.cix + 1 := rfl
@[simp] theorem State.retire_ilen (s : State) : s.retire.ilen = s.ilen := rfl
@[simp] theorem State.retire_ipos (s : State) : s.retire.ipos = s.ipos := rfl
@[simp] theorem State.retire_olen (s : State) : s.retire.olen = s.olen := rfl
@[simp] theorem State.retire_dsym (s : State) : s.retire.dsym = s.dsym := rfl
@[simp] theorem State.retire_hsize (s : State) : s.retire.hsize = s.hsize := rfl
@[simp] theorem State.retire_ncnt (s : State) : s.retire.ncnt = s.ncnt := rfl
@[simp] theorem State.retire_root (s : State) : s.retire.root = s.root := rfl
@[simp] theorem State.retire_xr (s : State) : s.retire.xr = s.xr := rfl
@[simp] theorem State.retire_cur (s : State) : s.retire.cur = s.cur := rfl
@[simp] theorem State.retire_ibuf (s : State) : s.retire.ibuf = s.ibuf := rfl
@[simp] theorem State.retire_obuf (s : State) : s.retire.obuf = s.obuf := rfl
@[simp] theorem State.retire_freq (s : State) : s.retire.freq = s.freq := rfl
@[simp] theorem State.retire_node (s : State) : s.retire.node = s.node := rfl
@[simp] theorem State.retire_code (s : State) : s.retire.code = s.code := rfl
@[simp] theorem State.retire_pq (s : State) : s.retire.pq = s.pq := rfl
@[simp] theorem State.retire_params (s : State) : s.retire.params = s.params := rfl
@[simp] theorem State.retire_host (s : State) : s.retire.host = s.host := rfl
@[simp] theorem State.retire_freeCount (s : State) : s.retire.freeCount = s.freeCount := rfl

/-! ## `State.pushOut` -/

@[simp] theorem State.pushOut_fault (b : Byte) (s : State) : (s.pushOut b).fault = s.fault := rfl
@[simp] theorem State.pushOut_freqV (b : Byte) (s : State) : (s.pushOut b).freqV = s.freqV := rfl
@[simp] theorem State.pushOut_heapV (b : Byte) (s : State) : (s.pushOut b).heapV = s.heapV := rfl
@[simp] theorem State.pushOut_treeV (b : Byte) (s : State) : (s.pushOut b).treeV = s.treeV := rfl
@[simp] theorem State.pushOut_codeV (b : Byte) (s : State) : (s.pushOut b).codeV = s.codeV := rfl
@[simp] theorem State.pushOut_xrV (b : Byte) (s : State) : (s.pushOut b).xrV = s.xrV := rfl
@[simp] theorem State.pushOut_erroffV (b : Byte) (s : State) : (s.pushOut b).erroffV = s.erroffV := rfl
@[simp] theorem State.pushOut_err (b : Byte) (s : State) : (s.pushOut b).err = s.err := rfl
@[simp] theorem State.pushOut_errStage (b : Byte) (s : State) : (s.pushOut b).errStage = s.errStage := rfl
@[simp] theorem State.pushOut_errOff (b : Byte) (s : State) : (s.pushOut b).errOff = s.errOff := rfl
@[simp] theorem State.pushOut_errCmd (b : Byte) (s : State) : (s.pushOut b).errCmd = s.errCmd := rfl
@[simp] theorem State.pushOut_cix (b : Byte) (s : State) : (s.pushOut b).cix = s.cix := rfl
@[simp] theorem State.pushOut_ilen (b : Byte) (s : State) : (s.pushOut b).ilen = s.ilen := rfl
@[simp] theorem State.pushOut_ipos (b : Byte) (s : State) : (s.pushOut b).ipos = s.ipos := rfl
@[simp] theorem State.pushOut_olen (b : Byte) (s : State) : (s.pushOut b).olen = s.olen + 1 := rfl
@[simp] theorem State.pushOut_dsym (b : Byte) (s : State) : (s.pushOut b).dsym = s.dsym := rfl
@[simp] theorem State.pushOut_hsize (b : Byte) (s : State) : (s.pushOut b).hsize = s.hsize := rfl
@[simp] theorem State.pushOut_ncnt (b : Byte) (s : State) : (s.pushOut b).ncnt = s.ncnt := rfl
@[simp] theorem State.pushOut_root (b : Byte) (s : State) : (s.pushOut b).root = s.root := rfl
@[simp] theorem State.pushOut_xr (b : Byte) (s : State) : (s.pushOut b).xr = s.xr := rfl
@[simp] theorem State.pushOut_cur (b : Byte) (s : State) : (s.pushOut b).cur = s.cur := rfl
@[simp] theorem State.pushOut_ibuf (b : Byte) (s : State) : (s.pushOut b).ibuf = s.ibuf := rfl
@[simp] theorem State.pushOut_obuf (b : Byte) (s : State) : (s.pushOut b).obuf = Memory.write s.obuf s.olen.toNat b := rfl
@[simp] theorem State.pushOut_freq (b : Byte) (s : State) : (s.pushOut b).freq = s.freq := rfl
@[simp] theorem State.pushOut_node (b : Byte) (s : State) : (s.pushOut b).node = s.node := rfl
@[simp] theorem State.pushOut_code (b : Byte) (s : State) : (s.pushOut b).code = s.code := rfl
@[simp] theorem State.pushOut_pq (b : Byte) (s : State) : (s.pushOut b).pq = s.pq := rfl
@[simp] theorem State.pushOut_params (b : Byte) (s : State) : (s.pushOut b).params = s.params := rfl
@[simp] theorem State.pushOut_host (b : Byte) (s : State) : (s.pushOut b).host = s.host := rfl
@[simp] theorem State.pushOut_freeCount (b : Byte) (s : State) : (s.pushOut b).freeCount = s.freeCount := rfl

/-! ## `State.pushIn` -/

@[simp] theorem State.pushIn_fault (b : Byte) (s : State) : (s.pushIn b).fault = s.fault := rfl
@[simp] theorem State.pushIn_freqV (b : Byte) (s : State) : (s.pushIn b).freqV = s.freqV := rfl
@[simp] theorem State.pushIn_heapV (b : Byte) (s : State) : (s.pushIn b).heapV = s.heapV := rfl
@[simp] theorem State.pushIn_treeV (b : Byte) (s : State) : (s.pushIn b).treeV = s.treeV := rfl
@[simp] theorem State.pushIn_codeV (b : Byte) (s : State) : (s.pushIn b).codeV = s.codeV := rfl
@[simp] theorem State.pushIn_xrV (b : Byte) (s : State) : (s.pushIn b).xrV = s.xrV := rfl
@[simp] theorem State.pushIn_erroffV (b : Byte) (s : State) : (s.pushIn b).erroffV = s.erroffV := rfl
@[simp] theorem State.pushIn_err (b : Byte) (s : State) : (s.pushIn b).err = s.err := rfl
@[simp] theorem State.pushIn_errStage (b : Byte) (s : State) : (s.pushIn b).errStage = s.errStage := rfl
@[simp] theorem State.pushIn_errOff (b : Byte) (s : State) : (s.pushIn b).errOff = s.errOff := rfl
@[simp] theorem State.pushIn_errCmd (b : Byte) (s : State) : (s.pushIn b).errCmd = s.errCmd := rfl
@[simp] theorem State.pushIn_cix (b : Byte) (s : State) : (s.pushIn b).cix = s.cix := rfl
@[simp] theorem State.pushIn_ilen (b : Byte) (s : State) : (s.pushIn b).ilen = s.ilen + 1 := rfl
@[simp] theorem State.pushIn_ipos (b : Byte) (s : State) : (s.pushIn b).ipos = s.ipos := rfl
@[simp] theorem State.pushIn_olen (b : Byte) (s : State) : (s.pushIn b).olen = s.olen := rfl
@[simp] theorem State.pushIn_dsym (b : Byte) (s : State) : (s.pushIn b).dsym = s.dsym := rfl
@[simp] theorem State.pushIn_hsize (b : Byte) (s : State) : (s.pushIn b).hsize = s.hsize := rfl
@[simp] theorem State.pushIn_ncnt (b : Byte) (s : State) : (s.pushIn b).ncnt = s.ncnt := rfl
@[simp] theorem State.pushIn_root (b : Byte) (s : State) : (s.pushIn b).root = s.root := rfl
@[simp] theorem State.pushIn_xr (b : Byte) (s : State) : (s.pushIn b).xr = s.xr := rfl
@[simp] theorem State.pushIn_cur (b : Byte) (s : State) : (s.pushIn b).cur = s.cur := rfl
@[simp] theorem State.pushIn_ibuf (b : Byte) (s : State) : (s.pushIn b).ibuf = Memory.write s.ibuf s.ilen.toNat b := rfl
@[simp] theorem State.pushIn_obuf (b : Byte) (s : State) : (s.pushIn b).obuf = s.obuf := rfl
@[simp] theorem State.pushIn_freq (b : Byte) (s : State) : (s.pushIn b).freq = s.freq := rfl
@[simp] theorem State.pushIn_node (b : Byte) (s : State) : (s.pushIn b).node = s.node := rfl
@[simp] theorem State.pushIn_code (b : Byte) (s : State) : (s.pushIn b).code = s.code := rfl
@[simp] theorem State.pushIn_pq (b : Byte) (s : State) : (s.pushIn b).pq = s.pq := rfl
@[simp] theorem State.pushIn_params (b : Byte) (s : State) : (s.pushIn b).params = s.params := rfl
@[simp] theorem State.pushIn_host (b : Byte) (s : State) : (s.pushIn b).host = s.host := rfl
@[simp] theorem State.pushIn_freeCount (b : Byte) (s : State) : (s.pushIn b).freeCount = s.freeCount := rfl

/-! ## `State.clearOut` -/

@[simp] theorem State.clearOut_fault (s : State) : s.clearOut.fault = s.fault := rfl
@[simp] theorem State.clearOut_freqV (s : State) : s.clearOut.freqV = s.freqV := rfl
@[simp] theorem State.clearOut_heapV (s : State) : s.clearOut.heapV = s.heapV := rfl
@[simp] theorem State.clearOut_treeV (s : State) : s.clearOut.treeV = s.treeV := rfl
@[simp] theorem State.clearOut_codeV (s : State) : s.clearOut.codeV = s.codeV := rfl
@[simp] theorem State.clearOut_xrV (s : State) : s.clearOut.xrV = s.xrV := rfl
@[simp] theorem State.clearOut_erroffV (s : State) : s.clearOut.erroffV = s.erroffV := rfl
@[simp] theorem State.clearOut_err (s : State) : s.clearOut.err = s.err := rfl
@[simp] theorem State.clearOut_errStage (s : State) : s.clearOut.errStage = s.errStage := rfl
@[simp] theorem State.clearOut_errOff (s : State) : s.clearOut.errOff = s.errOff := rfl
@[simp] theorem State.clearOut_errCmd (s : State) : s.clearOut.errCmd = s.errCmd := rfl
@[simp] theorem State.clearOut_cix (s : State) : s.clearOut.cix = s.cix := rfl
@[simp] theorem State.clearOut_ilen (s : State) : s.clearOut.ilen = s.ilen := rfl
@[simp] theorem State.clearOut_ipos (s : State) : s.clearOut.ipos = s.ipos := rfl
@[simp] theorem State.clearOut_olen (s : State) : s.clearOut.olen = 0 := rfl
@[simp] theorem State.clearOut_dsym (s : State) : s.clearOut.dsym = s.dsym := rfl
@[simp] theorem State.clearOut_hsize (s : State) : s.clearOut.hsize = s.hsize := rfl
@[simp] theorem State.clearOut_ncnt (s : State) : s.clearOut.ncnt = s.ncnt := rfl
@[simp] theorem State.clearOut_root (s : State) : s.clearOut.root = s.root := rfl
@[simp] theorem State.clearOut_xr (s : State) : s.clearOut.xr = s.xr := rfl
@[simp] theorem State.clearOut_cur (s : State) : s.clearOut.cur = s.cur := rfl
@[simp] theorem State.clearOut_ibuf (s : State) : s.clearOut.ibuf = s.ibuf := rfl
@[simp] theorem State.clearOut_obuf (s : State) : s.clearOut.obuf = [] := rfl
@[simp] theorem State.clearOut_freq (s : State) : s.clearOut.freq = s.freq := rfl
@[simp] theorem State.clearOut_node (s : State) : s.clearOut.node = s.node := rfl
@[simp] theorem State.clearOut_code (s : State) : s.clearOut.code = s.code := rfl
@[simp] theorem State.clearOut_pq (s : State) : s.clearOut.pq = s.pq := rfl
@[simp] theorem State.clearOut_params (s : State) : s.clearOut.params = s.params := rfl
@[simp] theorem State.clearOut_host (s : State) : s.clearOut.host = s.host := rfl
@[simp] theorem State.clearOut_freeCount (s : State) : s.clearOut.freeCount = s.freeCount := rfl

/-! ## `State.withHost` -/

@[simp] theorem State.withHost_fault (es : List HostEvent) (s : State) : (s.withHost es).fault = s.fault := rfl
@[simp] theorem State.withHost_freqV (es : List HostEvent) (s : State) : (s.withHost es).freqV = s.freqV := rfl
@[simp] theorem State.withHost_heapV (es : List HostEvent) (s : State) : (s.withHost es).heapV = s.heapV := rfl
@[simp] theorem State.withHost_treeV (es : List HostEvent) (s : State) : (s.withHost es).treeV = s.treeV := rfl
@[simp] theorem State.withHost_codeV (es : List HostEvent) (s : State) : (s.withHost es).codeV = s.codeV := rfl
@[simp] theorem State.withHost_xrV (es : List HostEvent) (s : State) : (s.withHost es).xrV = s.xrV := rfl
@[simp] theorem State.withHost_erroffV (es : List HostEvent) (s : State) : (s.withHost es).erroffV = s.erroffV := rfl
@[simp] theorem State.withHost_err (es : List HostEvent) (s : State) : (s.withHost es).err = s.err := rfl
@[simp] theorem State.withHost_errStage (es : List HostEvent) (s : State) : (s.withHost es).errStage = s.errStage := rfl
@[simp] theorem State.withHost_errOff (es : List HostEvent) (s : State) : (s.withHost es).errOff = s.errOff := rfl
@[simp] theorem State.withHost_errCmd (es : List HostEvent) (s : State) : (s.withHost es).errCmd = s.errCmd := rfl
@[simp] theorem State.withHost_cix (es : List HostEvent) (s : State) : (s.withHost es).cix = s.cix := rfl
@[simp] theorem State.withHost_ilen (es : List HostEvent) (s : State) : (s.withHost es).ilen = s.ilen := rfl
@[simp] theorem State.withHost_ipos (es : List HostEvent) (s : State) : (s.withHost es).ipos = s.ipos := rfl
@[simp] theorem State.withHost_olen (es : List HostEvent) (s : State) : (s.withHost es).olen = s.olen := rfl
@[simp] theorem State.withHost_dsym (es : List HostEvent) (s : State) : (s.withHost es).dsym = s.dsym := rfl
@[simp] theorem State.withHost_hsize (es : List HostEvent) (s : State) : (s.withHost es).hsize = s.hsize := rfl
@[simp] theorem State.withHost_ncnt (es : List HostEvent) (s : State) : (s.withHost es).ncnt = s.ncnt := rfl
@[simp] theorem State.withHost_root (es : List HostEvent) (s : State) : (s.withHost es).root = s.root := rfl
@[simp] theorem State.withHost_xr (es : List HostEvent) (s : State) : (s.withHost es).xr = s.xr := rfl
@[simp] theorem State.withHost_cur (es : List HostEvent) (s : State) : (s.withHost es).cur = s.cur := rfl
@[simp] theorem State.withHost_ibuf (es : List HostEvent) (s : State) : (s.withHost es).ibuf = s.ibuf := rfl
@[simp] theorem State.withHost_obuf (es : List HostEvent) (s : State) : (s.withHost es).obuf = s.obuf := rfl
@[simp] theorem State.withHost_freq (es : List HostEvent) (s : State) : (s.withHost es).freq = s.freq := rfl
@[simp] theorem State.withHost_node (es : List HostEvent) (s : State) : (s.withHost es).node = s.node := rfl
@[simp] theorem State.withHost_code (es : List HostEvent) (s : State) : (s.withHost es).code = s.code := rfl
@[simp] theorem State.withHost_pq (es : List HostEvent) (s : State) : (s.withHost es).pq = s.pq := rfl
@[simp] theorem State.withHost_params (es : List HostEvent) (s : State) : (s.withHost es).params = s.params := rfl
@[simp] theorem State.withHost_host (es : List HostEvent) (s : State) : (s.withHost es).host = es := rfl
@[simp] theorem State.withHost_freeCount (es : List HostEvent) (s : State) : (s.withHost es).freeCount = s.freeCount := rfl

/-! ## `State.enterFault`: the record, what it keeps, and the memories, which list nothing (R274, R275) -/

@[simp] theorem State.enterFault_fault (w : CmdWord) (k : ErrKind) (st : Stage) (off : Option (BitVec 32)) (s : State) :
    (s.enterFault w k st off).fault = true := rfl
@[simp] theorem State.enterFault_err (w : CmdWord) (k : ErrKind) (st : Stage) (off : Option (BitVec 32)) (s : State) :
    (s.enterFault w k st off).err = k.number := rfl
@[simp] theorem State.enterFault_errStage (w : CmdWord) (k : ErrKind) (st : Stage) (off : Option (BitVec 32)) (s : State) :
    (s.enterFault w k st off).errStage = st.number := rfl
@[simp] theorem State.enterFault_errCmd (w : CmdWord) (k : ErrKind) (st : Stage) (off : Option (BitVec 32)) (s : State) :
    (s.enterFault w k st off).errCmd = w := rfl
@[simp] theorem State.enterFault_erroffV (w : CmdWord) (k : ErrKind) (st : Stage) (off : Option (BitVec 32)) (s : State) :
    (s.enterFault w k st off).erroffV = off.isSome := rfl
@[simp] theorem State.enterFault_errOff (w : CmdWord) (k : ErrKind) (st : Stage) (off : Option (BitVec 32)) (s : State) :
    (s.enterFault w k st off).errOff = off.getD 0 := rfl
@[simp] theorem State.enterFault_cix (w : CmdWord) (k : ErrKind) (st : Stage) (off : Option (BitVec 32)) (s : State) :
    (s.enterFault w k st off).cix = s.cix := rfl
@[simp] theorem State.enterFault_params (w : CmdWord) (k : ErrKind) (st : Stage) (off : Option (BitVec 32)) (s : State) :
    (s.enterFault w k st off).params = s.params := rfl
@[simp] theorem State.enterFault_host (w : CmdWord) (k : ErrKind) (st : Stage) (off : Option (BitVec 32)) (s : State) :
    (s.enterFault w k st off).host = s.host := rfl
@[simp] theorem State.enterFault_freeCount (w : CmdWord) (k : ErrKind) (st : Stage) (off : Option (BitVec 32)) (s : State) :
    (s.enterFault w k st off).freeCount = s.freeCount + 1 := rfl
@[simp] theorem State.enterFault_ibuf (w : CmdWord) (k : ErrKind) (st : Stage) (off : Option (BitVec 32)) (s : State) :
    (s.enterFault w k st off).ibuf = [] := rfl
@[simp] theorem State.enterFault_obuf (w : CmdWord) (k : ErrKind) (st : Stage) (off : Option (BitVec 32)) (s : State) :
    (s.enterFault w k st off).obuf = [] := rfl
@[simp] theorem State.enterFault_freq (w : CmdWord) (k : ErrKind) (st : Stage) (off : Option (BitVec 32)) (s : State) :
    (s.enterFault w k st off).freq = [] := rfl
@[simp] theorem State.enterFault_node (w : CmdWord) (k : ErrKind) (st : Stage) (off : Option (BitVec 32)) (s : State) :
    (s.enterFault w k st off).node = [] := rfl
@[simp] theorem State.enterFault_code (w : CmdWord) (k : ErrKind) (st : Stage) (off : Option (BitVec 32)) (s : State) :
    (s.enterFault w k st off).code = [] := rfl
@[simp] theorem State.enterFault_pq (w : CmdWord) (k : ErrKind) (st : Stage) (off : Option (BitVec 32)) (s : State) :
    (s.enterFault w k st off).pq = pqOfList (afterFault s.freeCount w).pq := rfl

/-! ## `State.hostReset`: the reset state but for the model's own fields (R46, R310) -/

@[simp] theorem State.hostReset_fault (es : List HostEvent) (s : State) : (s.hostReset es).fault = false := rfl
@[simp] theorem State.hostReset_freqV (es : List HostEvent) (s : State) : (s.hostReset es).freqV = false := rfl
@[simp] theorem State.hostReset_heapV (es : List HostEvent) (s : State) : (s.hostReset es).heapV = false := rfl
@[simp] theorem State.hostReset_treeV (es : List HostEvent) (s : State) : (s.hostReset es).treeV = false := rfl
@[simp] theorem State.hostReset_codeV (es : List HostEvent) (s : State) : (s.hostReset es).codeV = false := rfl
@[simp] theorem State.hostReset_xrV (es : List HostEvent) (s : State) : (s.hostReset es).xrV = false := rfl
@[simp] theorem State.hostReset_erroffV (es : List HostEvent) (s : State) : (s.hostReset es).erroffV = false := rfl
@[simp] theorem State.hostReset_err (es : List HostEvent) (s : State) : (s.hostReset es).err = 0 := rfl
@[simp] theorem State.hostReset_errStage (es : List HostEvent) (s : State) : (s.hostReset es).errStage = 0 := rfl
@[simp] theorem State.hostReset_errOff (es : List HostEvent) (s : State) : (s.hostReset es).errOff = 0 := rfl
@[simp] theorem State.hostReset_errCmd (es : List HostEvent) (s : State) : (s.hostReset es).errCmd = 0 := rfl
@[simp] theorem State.hostReset_cix (es : List HostEvent) (s : State) : (s.hostReset es).cix = 0 := rfl
@[simp] theorem State.hostReset_ilen (es : List HostEvent) (s : State) : (s.hostReset es).ilen = 0 := rfl
@[simp] theorem State.hostReset_ipos (es : List HostEvent) (s : State) : (s.hostReset es).ipos = 0 := rfl
@[simp] theorem State.hostReset_olen (es : List HostEvent) (s : State) : (s.hostReset es).olen = 0 := rfl
@[simp] theorem State.hostReset_dsym (es : List HostEvent) (s : State) : (s.hostReset es).dsym = 0 := rfl
@[simp] theorem State.hostReset_hsize (es : List HostEvent) (s : State) : (s.hostReset es).hsize = 0 := rfl
@[simp] theorem State.hostReset_ncnt (es : List HostEvent) (s : State) : (s.hostReset es).ncnt = 0 := rfl
@[simp] theorem State.hostReset_root (es : List HostEvent) (s : State) : (s.hostReset es).root = 0 := rfl
@[simp] theorem State.hostReset_xr (es : List HostEvent) (s : State) : (s.hostReset es).xr = 0 := rfl
@[simp] theorem State.hostReset_cur (es : List HostEvent) (s : State) : (s.hostReset es).cur = 0 := rfl
@[simp] theorem State.hostReset_ibuf (es : List HostEvent) (s : State) : (s.hostReset es).ibuf = [] := rfl
@[simp] theorem State.hostReset_obuf (es : List HostEvent) (s : State) : (s.hostReset es).obuf = [] := rfl
@[simp] theorem State.hostReset_freq (es : List HostEvent) (s : State) : (s.hostReset es).freq = [] := rfl
@[simp] theorem State.hostReset_node (es : List HostEvent) (s : State) : (s.hostReset es).node = [] := rfl
@[simp] theorem State.hostReset_code (es : List HostEvent) (s : State) : (s.hostReset es).code = [] := rfl
@[simp] theorem State.hostReset_pq (es : List HostEvent) (s : State) : (s.hostReset es).pq = [] := rfl
@[simp] theorem State.hostReset_params (es : List HostEvent) (s : State) : (s.hostReset es).params = s.params := rfl
@[simp] theorem State.hostReset_host (es : List HostEvent) (s : State) : (s.hostReset es).host = es := rfl
@[simp] theorem State.hostReset_freeCount (es : List HostEvent) (s : State) : (s.hostReset es).freeCount = s.freeCount + 1 := rfl

end Sys2Proof.Machine
end

