-- ==== Sys2Proof/Laws/Step.lean ====
section
/-!
SUPPORT. What a component step, an issued command and a step of the machine can answer, said once.
-/

namespace Sys2Proof.Machine

open Sys2Proof.Config

/-! ## `Res.bind` -/

@[simp] theorem Res.done_bind {α β : Type} (a : α) (f : α → Res β) : (Res.done a).bind f = f a := rfl

@[simp] theorem Res.raised_bind {α β : Type} (k : ErrKind) (st : Stage) (off : Option (BitVec 32)) (f : α → Res β) :
    (Res.raised k st off).bind f = .raised k st off := rfl

@[simp] theorem Res.stopped_bind {α β : Type} (e : Fault) (f : α → Res β) : (Res.stopped e).bind f = .stopped e := rfl

theorem Res.bind_assoc {α β γ : Type} (r : Res α) (f : α → Res β) (g : β → Res γ) :
    (r.bind f).bind g = r.bind fun a => (f a).bind g := by
  cases r <;> rfl

theorem Res.bind_eq_done {α β : Type} {r : Res α} {f : α → Res β} {b : β} :
    r.bind f = .done b ↔ ∃ a, r = .done a ∧ f a = .done b := by
  cases r <;> simp

theorem Res.bind_eq_raised {α β : Type} {r : Res α} {f : α → Res β} {k : ErrKind} {st : Stage} {off : Option (BitVec 32)} :
    r.bind f = .raised k st off ↔ r = .raised k st off ∨ ∃ a, r = .done a ∧ f a = .raised k st off := by
  cases r <;> simp

theorem Res.bind_eq_stopped {α β : Type} {r : Res α} {f : α → Res β} {e : Fault} :
    r.bind f = .stopped e ↔ r = .stopped e ∨ ∃ a, r = .done a ∧ f a = .stopped e := by
  cases r <;> simp

@[simp] theorem need_true (st : Stage) (s : State) : need true st s = .done s := rfl

@[simp] theorem need_false (st : Stage) (s : State) : need false st s = .raised .sequence st none := rfl

theorem need_eq_done {ok : Bool} {st : Stage} {s t : State} : need ok st s = .done t ↔ ok = true ∧ t = s := by
  cases ok <;> simp [need, eq_comm]

theorem need_eq_raised {ok : Bool} {st st' : Stage} {s : State} {k : ErrKind} {off : Option (BitVec 32)} :
    need ok st s = .raised k st' off ↔ ok = false ∧ k = .sequence ∧ st' = st ∧ off = none := by
  cases ok <;> simp [need, eq_comm]

@[simp] theorem need_ne_stopped {ok : Bool} {st : Stage} {s : State} {e : Fault} : need ok st s ≠ .stopped e := by
  cases ok <;> simp [need]

/-! ## Issuing a command -/

/-- The pseudocode of each command. -/
def body : Instr → State → Res State
  | .ipush imm => ipush imm
  | .iclr => iclr
  | .irew => irew
  | .oclr => oclr
  | .omov => omov
  | .fscan => fscan
  | .pqbuild => pqbuild
  | .pqins => pqins
  | .pqext => pqext
  | .merge => merge
  | .troot => troot
  | .tbuild => tbuild
  | .cgen => cgen
  | .tser => tser
  | .tdes => tdes
  | .enc => enc
  | .dlmw => dlmw
  | .comp => comp
  | .dlms => dlms
  | .dstep imm => dstep imm
  | .dend => dend
  | .dec => dec
  | .decomp => decomp

/-- Every command is its pseudocode, issued. -/
theorem exec_eq_issue (i : Instr) (s : State) : exec i s = issue i (body i) s := by cases i <;> rfl

/-- While `FAULT = 1` a command is refused without effect (R276). -/
theorem issue_faulted {i : Instr} {f : State → Res State} {s : State} (h : s.fault = true) : issue i f s = .next s := by
  simp [issue, h]

/-- All a command can answer: it retires, it faults, or the model stops. -/
theorem issue_eq_next {i : Instr} {f : State → Res State} {s t : State} (h : s.fault = false) :
    issue i f s = .next t ↔
      (∃ u, f s = .done u ∧ t = u.retire) ∨
      (∃ k st off, f s = .raised k st off ∧ t = s.enterFault (encode i) k st off) := by
  unfold issue
  rw [h]
  cases f s <;> simp [eq_comm]

theorem issue_eq_fault {i : Instr} {f : State → Res State} {s : State} {e : Fault} :
    issue i f s = .fault e ↔ s.fault = false ∧ f s = .stopped e := by
  unfold issue
  cases s.fault
  · cases f s <;> simp
  · simp

theorem issue_ne_refused {i : Instr} {f : State → Res State} {s : State} {r : Refusal} : issue i f s ≠ .refused r := by
  unfold issue
  cases s.fault
  · cases f s <;> simp
  · simp

theorem exec_of_done {i : Instr} {s t : State} (h : s.fault = false) (hb : body i s = .done t) :
    exec i s = .next t.retire := by
  rw [exec_eq_issue, issue_eq_next h]
  exact .inl ⟨t, hb, rfl⟩

theorem exec_of_raised {i : Instr} {s : State} {k : ErrKind} {st : Stage} {off : Option (BitVec 32)}
    (h : s.fault = false) (hb : body i s = .raised k st off) : exec i s = .next (s.enterFault (encode i) k st off) := by
  rw [exec_eq_issue, issue_eq_next h]
  exact .inr ⟨k, st, off, hb, rfl⟩

/-- All a step can answer (20_memory.md R86). -/
theorem step_eq_next {s t : State} (h : step s = .next t) :
    (s.host = [] ∧ t = s) ∨
    (∃ es, s.host = .reset :: es ∧ t = s.hostReset es) ∨
    (∃ w es, s.host = .command w :: es ∧ s.fault = true ∧ t = s.withHost es) ∨
    (∃ w es e, s.host = .command w :: es ∧ s.fault = false ∧ decode w = .error e ∧
      t = (s.withHost es).enterFault w .illegalCommand .cmd none) ∨
    (∃ w es i, s.host = .command w :: es ∧ s.fault = false ∧ decode w = .ok i ∧ exec i (s.withHost es) = .next t) := by
  unfold step at h
  split at h
  · cases h; exact .inl ⟨by assumption, rfl⟩
  · rename_i w es heq
    cases hf : s.fault
    · unfold runWord at h
      split at h
      · rename_i i hd
        exact .inr (.inr (.inr (.inr ⟨w, es, i, heq, rfl, hd, h⟩)))
      · rename_i e hd
        simp only [issueIllegal, State.withHost_fault, hf] at h
        cases h
        exact .inr (.inr (.inr (.inl ⟨w, es, e, heq, rfl, hd, rfl⟩)))
    · have : t = s.withHost es := by
        unfold runWord at h
        split at h
        · rw [exec_eq_issue, issue_faulted (by simpa using hf)] at h
          cases h; rfl
        · simp only [issueIllegal, State.withHost_fault, hf] at h
          cases h; rfl
      exact .inr (.inr (.inl ⟨w, es, heq, rfl, this⟩))
  · rename_i es heq
    cases h
    exact .inr (.inl ⟨es, heq, rfl⟩)

/-- When a step stops, it is a command that stops. -/
theorem step_eq_fault {s : State} {e : Fault} (h : step s = .fault e) :
    ∃ w es i, s.host = .command w :: es ∧ s.fault = false ∧ decode w = .ok i ∧ body i (s.withHost es) = .stopped e := by
  unfold step at h
  split at h
  · cases h
  · rename_i w es heq
    unfold runWord at h
    split at h
    · rename_i i hd
      rw [exec_eq_issue] at h
      obtain ⟨hf, hb⟩ := issue_eq_fault.mp h
      exact ⟨w, es, i, heq, by simpa using hf, hd, hb⟩
    · simp only [issueIllegal] at h
      split at h <;> cases h
  · cases h

theorem step_ne_refused {s : State} {r : Refusal} : step s ≠ .refused r := by
  intro h
  unfold step at h
  split at h
  · cases h
  · unfold runWord at h
    split at h
    · rw [exec_eq_issue] at h; exact issue_ne_refused h
    · simp only [issueIllegal] at h
      split at h <;> cases h
  · cases h

end Sys2Proof.Machine
end

