-- ==== Sys2Proof/Laws/Output.lean ====
section
/-!
SUPPORT. Appending to the output buffer and scanning the buffers: what `outAppend`, `outAppendAll`, `inputBytes` and
`outputBytes` do (00_scope.md R12, 20_memory.md R76).
-/

namespace Sys2Proof.Machine

open Sys2Proof.Config

/-! ## Buffers as lists -/

/-- A buffer that holds exactly the bytes below its length is scanned to the list of its bytes. -/
theorem scan_eq {m : List Host.Cell} {n : Nat} (h : Defined m n) (f : Nat → Byte) :
    (List.range n).map (fun i => (Memory.read m i).getD (f i)) = m.map Prod.snd := by
  have hl : (m.map Prod.snd).length = n := by simpa using congrArg List.length h
  conv_lhs => rw [h.eq_ofList]
  refine List.ext_getElem (by simpa using hl.symm) fun k h1 h2 => ?_
  simp only [List.getElem_map, List.getElem_range, Memory.read_ofList]
  rw [List.getElem?_eq_getElem h2]
  simp

theorem inputBytes_eq {s : State} (h : Defined s.ibuf s.ilen.toNat) : inputBytes s = s.ibuf.map Prod.snd :=
  scan_eq h _

theorem outputBytes_eq {s : State} (h : Defined s.obuf s.olen.toNat) : outputBytes s = s.obuf.map Prod.snd :=
  scan_eq h _

@[simp] theorem inputBytes_length (s : State) : (inputBytes s).length = s.ilen.toNat := by simp [inputBytes]

@[simp] theorem outputBytes_length (s : State) : (outputBytes s).length = s.olen.toNat := by simp [outputBytes]

theorem inputBytes_congr {s t : State} (h1 : t.ibuf = s.ibuf) (h2 : t.ilen = s.ilen) (h3 : t.freeCount = s.freeCount) :
    inputBytes t = inputBytes s := by
  simp [inputBytes, ibufAt, h1, h2, h3]

theorem scanInput_done {s : State} (h : s.ilen.toNat ≤ s.params.inCap) : scanInput s = .done (inputBytes s) := by
  simp [scanInput, h]

theorem scanInput_eq_done {s : State} {bs : List Byte} (h : scanInput s = .done bs) :
    bs = inputBytes s ∧ s.ilen.toNat ≤ s.params.inCap := by
  unfold scanInput at h
  split at h
  · cases h; exact ⟨rfl, by assumption⟩
  · cases h

theorem scanInput_ne_raised {s : State} {k : ErrKind} {st : Stage} {off : Option (BitVec 32)} :
    scanInput s ≠ .raised k st off := by
  unfold scanInput; split <;> simp

theorem restBytes_done {s : State} (h : s.ilen.toNat ≤ s.params.inCap) :
    restBytes s = .done ((inputBytes s).drop s.ipos.toNat) := by
  simp [restBytes, scanInput_done h]

theorem restBytes_eq_done {s : State} {bs : List Byte} (h : restBytes s = .done bs) :
    bs = (inputBytes s).drop s.ipos.toNat ∧ s.ilen.toNat ≤ s.params.inCap := by
  unfold restBytes at h
  obtain ⟨a, ha, h⟩ := Res.bind_eq_done.mp h
  obtain ⟨rfl, hc⟩ := scanInput_eq_done ha
  cases h
  exact ⟨rfl, hc⟩

theorem restBytes_ne_raised {s : State} {k : ErrKind} {st : Stage} {off : Option (BitVec 32)} :
    restBytes s ≠ .raised k st off := by
  intro h
  rcases Res.bind_eq_raised.mp h with h | ⟨a, _, h⟩
  · exact scanInput_ne_raised h
  · cases h

/-! ## Appending -/

theorem State.pushOut_olen_toNat {b : Byte} {s : State} (h : s.olen.toNat + 1 < 2 ^ 32) :
    (s.pushOut b).olen.toNat = s.olen.toNat + 1 := by
  rw [State.pushOut_olen, BitVec.toNat_add]
  exact Nat.mod_eq_of_lt h

/-- The state after a byte string has been appended. -/
def State.pushAll (bs : List Byte) (s : State) : State := bs.foldl (fun s b => s.pushOut b) s

@[simp] theorem State.pushAll_nil (s : State) : s.pushAll [] = s := rfl

@[simp] theorem State.pushAll_cons (b : Byte) (bs : List Byte) (s : State) :
    s.pushAll (b :: bs) = (s.pushOut b).pushAll bs := rfl

theorem State.pushAll_append (bs cs : List Byte) (s : State) : s.pushAll (bs ++ cs) = (s.pushAll bs).pushAll cs := by
  simp [State.pushAll]

/-- Appending changes `OBUF` and `OLEN` and nothing else. -/
theorem State.pushAll_frame (bs : List Byte) (s : State) :
    s.pushAll bs = { s with obuf := (s.pushAll bs).obuf, olen := (s.pushAll bs).olen } := by
  induction bs generalizing s with
  | nil => rfl
  | cons b bs ih => rw [State.pushAll_cons, ih]; rfl

theorem State.pushAll_olen (bs : List Byte) (s : State) : (s.pushAll bs).olen = s.olen + BitVec.ofNat 32 bs.length := by
  induction bs generalizing s with
  | nil => simp
  | cons b bs ih =>
    rw [State.pushAll_cons, ih, State.pushOut_olen, List.length_cons, BitVec.add_assoc]
    congr 1
    apply BitVec.eq_of_toNat_eq
    simp [Nat.add_comm]

theorem State.pushAll_olen_toNat {bs : List Byte} {s : State} (h : s.olen.toNat + bs.length < 2 ^ 32) :
    (s.pushAll bs).olen.toNat = s.olen.toNat + bs.length := by
  rw [State.pushAll_olen, BitVec.toNat_add, BitVec.toNat_ofNat, Nat.mod_eq_of_lt (a := bs.length) (by omega),
    Nat.mod_eq_of_lt h]

/-- Appending to a buffer that holds exactly the bytes below its length. -/
theorem State.pushAll_obuf {bs : List Byte} {s : State} (hd : Defined s.obuf s.olen.toNat)
    (h : s.olen.toNat + bs.length < 2 ^ 32) :
    Defined (s.pushAll bs).obuf (s.pushAll bs).olen.toNat ∧
      (s.pushAll bs).obuf.map Prod.snd = s.obuf.map Prod.snd ++ bs := by
  induction bs generalizing s with
  | nil => simp [hd]
  | cons b bs ih =>
    rw [List.length_cons] at h
    have ho := State.pushOut_olen_toNat (b := b) (s := s) (by omega)
    have hd' : Defined (s.pushOut b).obuf (s.pushOut b).olen.toNat := by rw [ho]; exact hd.succ b
    have := ih hd' (by omega)
    refine ⟨this.1, ?_⟩
    rw [State.pushAll_cons, this.2, State.pushOut_obuf, hd.write_next]
    simp

theorem outputBytes_pushAll {bs : List Byte} {s : State} (hd : Defined s.obuf s.olen.toNat)
    (h : s.olen.toNat + bs.length < 2 ^ 32) : outputBytes (s.pushAll bs) = outputBytes s ++ bs := by
  obtain ⟨h1, h2⟩ := State.pushAll_obuf hd h
  rw [outputBytes_eq h1, h2, outputBytes_eq hd]

/-- `OutAppend` where there is room. -/
theorem outAppend_done {st : Stage} {b : Byte} {s : State} (h : s.olen.toNat < s.params.outCap) :
    outAppend st b s = .done (s.pushOut b) := by
  simp [outAppend, Nat.ne_of_lt h, Nat.not_lt.mpr (Nat.le_of_lt h)]

/-- All `OutAppend` can answer (R12). -/
theorem outAppend_cases {st : Stage} {b : Byte} {s : State} (h : s.olen.toNat ≤ s.params.outCap) :
    (s.olen.toNat < s.params.outCap ∧ outAppend st b s = .done (s.pushOut b)) ∨
    (s.olen.toNat = s.params.outCap ∧ outAppend st b s = .raised .io st (some s.olen)) := by
  rcases Nat.lt_or_eq_of_le h with h | h
  · exact .inl ⟨h, outAppend_done h⟩
  · exact .inr ⟨h, by simp [outAppend, h]⟩

theorem outAppend_raised {st st' : Stage} {b : Byte} {s : State} {k : ErrKind} {off : Option (BitVec 32)}
    (h : outAppend st b s = .raised k st' off) : k = .io ∧ st' = st ∧ off = some s.olen ∧ s.olen.toNat = s.params.outCap := by
  unfold outAppend at h
  split at h
  · cases h; exact ⟨rfl, rfl, rfl, by assumption⟩
  · split at h <;> cases h

theorem outAppend_eq_done {st : Stage} {b : Byte} {s t : State} (h : outAppend st b s = .done t) : t = s.pushOut b := by
  unfold outAppend at h
  split at h
  · cases h
  · split at h
    · cases h
    · cases h; rfl

/-- `OutAppend` of a byte string where it fits. -/
theorem outAppendAll_done {st : Stage} {bs : List Byte} {s : State} (hc : s.params.outCap < 2 ^ 32)
    (h : s.olen.toNat + bs.length ≤ s.params.outCap) : outAppendAll st bs s = .done (s.pushAll bs) := by
  induction bs generalizing s with
  | nil => rfl
  | cons b bs ih =>
    rw [List.length_cons] at h
    have ho := State.pushOut_olen_toNat (b := b) (s := s) (by omega)
    simp only [outAppendAll]
    rw [outAppend_done (by omega), Res.done_bind, ih (by simpa using hc) (by rw [State.pushOut_params, ho]; omega),
      State.pushAll_cons]

theorem outAppendAll_eq_done {st : Stage} {bs : List Byte} {s t : State} (h : outAppendAll st bs s = .done t) :
    t = s.pushAll bs := by
  induction bs generalizing s with
  | nil => cases h; rfl
  | cons b bs ih =>
    simp only [outAppendAll] at h
    obtain ⟨u, hu, h⟩ := Res.bind_eq_done.mp h
    rw [outAppend_eq_done hu] at h
    rw [ih h, State.pushAll_cons]

theorem outAppendAll_raised {st st' : Stage} {bs : List Byte} {s : State} {k : ErrKind} {off : Option (BitVec 32)}
    (h : outAppendAll st bs s = .raised k st' off) : k = .io ∧ st' = st := by
  induction bs generalizing s with
  | nil => cases h
  | cons b bs ih =>
    simp only [outAppendAll] at h
    rcases Res.bind_eq_raised.mp h with h | ⟨u, _, h⟩
    · exact ⟨(outAppend_raised h).1, (outAppend_raised h).2.1⟩
    · exact ih h

/-- All `OutAppend` of a byte string can answer: it fits, or `IOError` at the capacity (R12, R88). -/
theorem outAppendAll_cases {st : Stage} {bs : List Byte} {s : State} (hc : s.params.outCap < 2 ^ 32)
    (h : s.olen.toNat ≤ s.params.outCap) :
    (s.olen.toNat + bs.length ≤ s.params.outCap ∧ outAppendAll st bs s = .done (s.pushAll bs)) ∨
    (s.params.outCap < s.olen.toNat + bs.length ∧
      outAppendAll st bs s = .raised .io st (some (BitVec.ofNat 32 s.params.outCap))) := by
  induction bs generalizing s with
  | nil => exact .inl ⟨by simpa using h, rfl⟩
  | cons b bs ih =>
    rw [List.length_cons]
    rcases outAppend_cases (st := st) (b := b) h with ⟨hlt, hd⟩ | ⟨heq, hr⟩
    · have ho := State.pushOut_olen_toNat (b := b) (s := s) (by omega)
      have := ih (s := s.pushOut b) (by simpa using hc) (by rw [State.pushOut_params, ho]; omega)
      simp only [outAppendAll]
      rw [State.pushOut_params, ho] at this
      rw [hd, Res.done_bind, State.pushAll_cons]
      rcases this with ⟨h1, h2⟩ | ⟨h1, h2⟩
      · exact .inl ⟨by omega, h2⟩
      · exact .inr ⟨by omega, h2⟩
    · refine .inr ⟨by omega, ?_⟩
      simp only [outAppendAll]
      rw [hr, Res.raised_bind, ← heq]
      simp

end Sys2Proof.Machine
end

