-- ==== Sys2Proof/Laws/Tree.lean ====
section
/-!
SUPPORT. Trees as values (00_scope.md R14): sizes, the serialization's length (44_tree_serdes.md R200), the codes' lengths
(43_code_generator.md R193), and what `treeAt` depends on.
-/

namespace Sys2Proof.Machine

open Sys2Proof.Config

/-! ## Sizes -/

/-- The number of nodes. -/
def Tree.size : Tree → Nat
  | .leaf _ => 1
  | .node l r => 1 + l.size + r.size

theorem Tree.leaves_pos (t : Tree) : 1 ≤ t.leaves := by
  induction t with
  | leaf y => simp [Tree.leaves]
  | node l r ihl ihr => simp only [Tree.leaves]; omega

/-- A strict binary tree of `L` leaves has `2·L − 1` nodes. -/
theorem Tree.size_eq (t : Tree) : t.size + 1 = 2 * t.leaves := by
  induction t with
  | leaf y => rfl
  | node l r ihl ihr => simp only [Tree.size, Tree.leaves]; omega

/-- A strict binary tree of `L` leaves has depth at most `L − 1` (R193). -/
theorem Tree.depth_lt_leaves (t : Tree) : t.depth < t.leaves := by
  induction t with
  | leaf y => simp [Tree.depth, Tree.leaves]
  | node l r ihl ihr =>
    have := l.leaves_pos
    have := r.leaves_pos
    simp only [Tree.depth, Tree.leaves]; omega

/-- A tree of `L` leaves serializes to `3·L − 1` bytes (R200). -/
theorem Tree.ser_length (t : Tree) : t.ser.length + 1 = 3 * t.leaves := by
  induction t with
  | leaf y => rfl
  | node l r ihl ihr =>
    simp only [Tree.ser, Tree.leaves, List.length_cons, List.length_append]; omega

theorem Tree.symbols_length (t : Tree) : t.symbols.length = t.leaves := by
  induction t with
  | leaf y => rfl
  | node l r ihl ihr => simp [Tree.symbols, Tree.leaves, ihl, ihr]

theorem Tree.walk_symbols (t : Tree) (p : List Bool) : (t.walk p).map Prod.fst = t.symbols := by
  induction t generalizing p with
  | leaf y => rfl
  | node l r ihl ihr => simp [Tree.walk, Tree.symbols, ihl, ihr]

/-- The codes are written for the leaf symbols in pre-order. -/
theorem Tree.codes_symbols (t : Tree) : t.codes.map Prod.fst = t.symbols := by
  cases t with
  | leaf y => rfl
  | node l r => exact Tree.walk_symbols _ _

theorem Tree.walk_length (t : Tree) (p : List Bool) {e : Byte × List Bool} (h : e ∈ t.walk p) :
    p.length ≤ e.2.length ∧ e.2.length ≤ p.length + t.depth := by
  induction t generalizing p with
  | leaf y => simp [Tree.walk] at h; simp [h]
  | node l r ihl ihr =>
    simp only [Tree.walk, List.mem_append] at h
    rcases h with h | h
    · have := ihl _ h; simp only [List.length_append, List.length_singleton] at this; simp only [Tree.depth]; omega
    · have := ihr _ h; simp only [List.length_append, List.length_singleton] at this; simp only [Tree.depth]; omega

/-- Every code has at least one bit, and no more than the deepest leaf's depth or 1 (R191, R193). -/
theorem Tree.codes_length (t : Tree) {e : Byte × List Bool} (h : e ∈ t.codes) :
    1 ≤ e.2.length ∧ e.2.length ≤ max t.depth 1 := by
  cases t with
  | leaf y => simp [Tree.codes, singleCode] at h; simp [h]
  | node l r =>
    simp only [Tree.codes, Tree.walk, List.mem_append] at h
    rcases h with h | h
    · have := Tree.walk_length _ _ h
      simp only [List.nil_append, List.length_singleton] at this; simp only [Tree.depth]; omega
    · have := Tree.walk_length _ _ h
      simp only [List.nil_append, List.length_singleton] at this; simp only [Tree.depth]; omega

/-! ## The tree at a node -/

theorem readNode_done {s : State} {i : NodeIdx} (h : i.toNat < nodeCap) : readNode s i = .done (nodeAt s i) := by
  simp [readNode, h]

theorem readNode_eq_done {s : State} {i : NodeIdx} {n : NodeRec} (h : readNode s i = .done n) :
    n = nodeAt s i ∧ i.toNat < nodeCap := by
  unfold readNode at h
  split at h
  · cases h; exact ⟨rfl, by assumption⟩
  · cases h

theorem readNode_ne_raised {s : State} {i : NodeIdx} {k : ErrKind} {st : Stage} {off : Option (BitVec 32)} :
    readNode s i ≠ .raised k st off := by
  unfold readNode; split <;> simp

theorem nodeAt_congr {s t : State} (h1 : t.node = s.node) (h2 : t.freeCount = s.freeCount) (i : NodeIdx) :
    nodeAt t i = nodeAt s i := by
  simp [nodeAt, h1, h2]

/-- One level of `treeAt`. -/
theorem treeAt_eq_done {s : State} {fuel : Nat} {i : NodeIdx} {t : Tree} :
    treeAt s (fuel + 1) i = .done t ↔
      i.toNat < nodeCap ∧
        (((nodeAt s i).kind = .leaf ∧ t = .leaf (nodeAt s i).sym) ∨
        ((nodeAt s i).kind = .internal ∧ ∃ l r, treeAt s fuel (nodeAt s i).left = .done l ∧
          treeAt s fuel (nodeAt s i).right = .done r ∧ t = .node l r)) := by
  simp only [treeAt, Res.bind_eq_done]
  constructor
  · rintro ⟨n, hn, h⟩
    obtain ⟨rfl, hi⟩ := readNode_eq_done hn
    refine ⟨hi, ?_⟩
    split at h
    · rename_i hk; cases h; exact .inl ⟨hk, rfl⟩
    · rename_i hk
      obtain ⟨l, hl, h⟩ := Res.bind_eq_done.mp h
      obtain ⟨r, hr, h⟩ := Res.bind_eq_done.mp h
      cases h
      exact .inr ⟨hk, l, r, hl, hr, rfl⟩
  · rintro ⟨hi, h⟩
    refine ⟨_, readNode_done hi, ?_⟩
    rcases h with ⟨hk, rfl⟩ | ⟨hk, l, r, hl, hr, rfl⟩
    · simp [hk]
    · simp [hk, hl, hr]

theorem treeAt_ne_raised {s : State} {fuel : Nat} {i : NodeIdx} {k : ErrKind} {st : Stage} {off : Option (BitVec 32)} :
    treeAt s fuel i ≠ .raised k st off := by
  induction fuel generalizing i with
  | zero => simp [treeAt]
  | succ fuel ih =>
    intro h
    simp only [treeAt] at h
    rcases Res.bind_eq_raised.mp h with h | ⟨n, _, h⟩
    · exact readNode_ne_raised h
    · split at h
      · cases h
      · rcases Res.bind_eq_raised.mp h with h | ⟨l, _, h⟩
        · exact ih h
        · rcases Res.bind_eq_raised.mp h with h | ⟨r, _, h⟩
          · exact ih h
          · cases h

theorem treeAt_depth {s : State} {fuel : Nat} {i : NodeIdx} {t : Tree} (h : treeAt s fuel i = .done t) : t.depth < fuel := by
  induction fuel generalizing i t with
  | zero => simp [treeAt] at h
  | succ fuel ih =>
    obtain ⟨_, ⟨_, rfl⟩ | ⟨_, l, r, hl, hr, rfl⟩⟩ := treeAt_eq_done.mp h
    · simp [Tree.depth]
    · have := ih hl; have := ih hr; simp only [Tree.depth]; omega

/-- Enough levels for the tree's depth are enough. -/
theorem treeAt_levels {s : State} {fuel fuel' : Nat} {i : NodeIdx} {t : Tree} (h : treeAt s fuel i = .done t)
    (hd : t.depth < fuel') : treeAt s fuel' i = .done t := by
  induction fuel generalizing fuel' i t with
  | zero => simp [treeAt] at h
  | succ fuel ih =>
    obtain ⟨f, rfl⟩ : ∃ f, fuel' = f + 1 := ⟨fuel' - 1, by omega⟩
    obtain ⟨hi, ⟨hk, rfl⟩ | ⟨hk, l, r, hl, hr, rfl⟩⟩ := treeAt_eq_done.mp h
    · exact treeAt_eq_done.mpr ⟨hi, .inl ⟨hk, rfl⟩⟩
    · simp only [Tree.depth] at hd
      exact treeAt_eq_done.mpr ⟨hi, .inr ⟨hk, l, r, ih hl (by omega), ih hr (by omega), rfl⟩⟩

/-- `treeAt` depends only on the nodes of a set that is closed under taking children. -/
theorem treeAt_congr {s s' : State} (P : NodeIdx → Prop) (hread : ∀ i, P i → nodeAt s' i = nodeAt s i)
    (hclosed : ∀ i, P i → (nodeAt s i).kind = .internal → P (nodeAt s i).left ∧ P (nodeAt s i).right)
    (fuel : Nat) {i : NodeIdx} (hi : P i) : treeAt s' fuel i = treeAt s fuel i := by
  induction fuel generalizing i with
  | zero => rfl
  | succ fuel ih =>
    simp only [treeAt, readNode, hread i hi]
    split
    · simp only [Res.done_bind]
      split
      · rfl
      · rename_i hk
        rw [ih (hclosed i hi hk).1, ih (hclosed i hi hk).2]
    · rfl

theorem treeAt_same {s s' : State} (h1 : s'.node = s.node) (h2 : s'.freeCount = s.freeCount) (fuel : Nat) (i : NodeIdx) :
    treeAt s' fuel i = treeAt s fuel i :=
  treeAt_congr (fun _ => True) (fun i _ => nodeAt_congr h1 h2 i) (fun _ _ _ => ⟨trivial, trivial⟩) fuel trivial

end Sys2Proof.Machine
end

