-- ==== Sys2Proof/Laws/Parse.lean ====
section
/-!
SUPPORT. The deserializer's `parse()` (44_tree_serdes.md R203): on the serialization of a tree it lays the tree out in
pre-order, it completes only on such a stream, and it always ends.
-/

namespace Sys2Proof.Machine

open Sys2Proof.Config

/-- The arena entries `parse()` makes of a tree whose root gets index `n`: pre-order numbering (R39, R203). -/
def Tree.layout : Tree → Nat → Memory NodeRec
  | .leaf y, n => [(n, desLeaf y)]
  | .node l r, n =>
    (n, desInternal (n + 1) (n + 1 + l.size)) :: (l.layout (n + 1) ++ r.layout (n + 1 + l.size))

theorem Tree.layout_keys (t : Tree) (n : Nat) : (t.layout n).map Prod.fst = List.range' n t.size := by
  induction t generalizing n with
  | leaf y => rfl
  | node l r ihl ihr =>
    simp only [Tree.layout, List.map_cons, List.map_append, ihl, ihr, Tree.size]
    rw [show 1 + l.size + r.size = (l.size + r.size) + 1 by omega, List.range'_succ]
    congr 1
    rw [← List.range'_append_1]

theorem Defined.append_layout {m : Memory NodeRec} {n : Nat} (h : Defined m n) (t : Tree) :
    Defined (m ++ t.layout n) (n + t.size) := by
  unfold Defined
  rw [List.map_append, show m.map Prod.fst = List.range n from h, Tree.layout_keys, List.range_eq_range',
    List.range_eq_range', ← List.range'_append_1, Nat.zero_add]

/-- Rewriting one entry of a memory that lists smaller indices before it. -/
theorem Memory.write_mid {α : Type} {m m' : Memory α} {n : Nat} {a b : α} (h : ∀ k ∈ m.map Prod.fst, k < n) :
    Memory.write (m ++ (n, a) :: m') n b = m ++ (n, b) :: m' := by
  induction m with
  | nil => simp [Memory.write]
  | cons e m ih =>
    obtain ⟨j, c⟩ := e
    have hj : j < n := h j (by simp)
    have hm : ∀ k ∈ m.map Prod.fst, k < n := fun k hk => h k (by simp only [List.map_cons, List.mem_cons]; exact .inr hk)
    simp [Memory.write, Nat.not_lt.mpr (Nat.le_of_lt hj), Nat.ne_of_gt hj, ih hm]

theorem kindOfMarker_leaf : kindOfMarker markLeaf = some .leaf := by decide

theorem kindOfMarker_int : kindOfMarker markInt = some .internal := by decide

theorem kindOfMarker_eq_leaf {m : Byte} (h : kindOfMarker m = some .leaf) : m = markLeaf := by
  unfold kindOfMarker at h
  split at h
  · assumption
  · split at h <;> cases h

theorem kindOfMarker_eq_int {m : Byte} (h : kindOfMarker m = some .internal) : m = markInt := by
  unfold kindOfMarker at h
  split at h
  · cases h
  · split at h
    · assumption
    · cases h

theorem toNat_one32 : BitVec.toNat (1 : BitVec 32) = 1 := rfl

/-- `parse()` on the serialization of a tree that fits the arena (R203). -/
theorem parseNode_ser (t : Tree) {fuel : Nat} {p : ParseState} {tail : List Byte} (hr : p.rest = t.ser ++ tail)
    (hf : t.depth < fuel) (hn : p.n + t.size ≤ nodeCap) (hd : Defined p.node p.n) :
    parseNode fuel p = .done (p.n,
      { rest := tail, ipos := p.ipos + BitVec.ofNat 32 t.ser.length, n := p.n + t.size, node := p.node ++ t.layout p.n }) := by
  induction t generalizing fuel p tail with
  | leaf y =>
    obtain ⟨f, rfl⟩ : ∃ f, fuel = f + 1 := ⟨fuel - 1, by omega⟩
    simp only [Tree.size] at hn
    simp only [Tree.ser, List.cons_append, List.nil_append] at hr
    simp only [parseNode, hr, kindOfMarker_leaf]
    rw [if_neg (by omega)]
    simp only [ParseState.took, ParseState.create, ParseState.put, hd.write_next, Tree.layout, Tree.size, Tree.ser]
    rw [BitVec.add_assoc]
    rfl
  | node l r ihl ihr =>
    obtain ⟨f, rfl⟩ : ∃ f, fuel = f + 1 := ⟨fuel - 1, by omega⟩
    simp only [Tree.size] at hn
    simp only [Tree.depth] at hf
    simp only [Tree.ser, List.cons_append, List.append_assoc] at hr
    simp only [parseNode, hr, kindOfMarker_int]
    rw [if_neg (by omega)]
    have hlt : ∀ k ∈ p.node.map Prod.fst, k < p.n := fun _ hk => hd.mem_keys.mp hk
    have hl := ihl (fuel := f)
      (p := ((p.took (l.ser ++ (r.ser ++ tail))).create).put p.n (desInternal 0 0)) (tail := r.ser ++ tail)
      rfl (by omega) (by simp only [ParseState.took, ParseState.create, ParseState.put]; omega)
      (by simpa [ParseState.took, ParseState.create, ParseState.put] using hd.succ _)
    rw [hl]
    simp only [Res.done_bind]
    simp only [ParseState.took, ParseState.create, ParseState.put, hd.write_next]
    rw [List.append_assoc, List.singleton_append, Memory.write_mid hlt]
    have hd2 : Defined (p.node ++ (p.n, desInternal (p.n + 1) 0) :: l.layout (p.n + 1)) (p.n + 1 + l.size) := by
      have := (hd.succ (desInternal (p.n + 1) 0)).append_layout l
      rwa [hd.write_next, List.append_assoc, List.singleton_append] at this
    rw [ihr (tail := tail) rfl (by omega) (by simp only; omega) hd2]
    simp only [Res.done_bind]
    rw [List.append_assoc, List.cons_append, Memory.write_mid hlt]
    simp only [Tree.layout, Tree.size, Tree.ser, List.length_cons, List.length_append]
    refine congrArg Res.done (Prod.ext rfl ?_)
    simp only [ParseState.mk.injEq]
    refine ⟨trivial, ?_, by omega, trivial⟩
    rw [BitVec.add_assoc, BitVec.add_assoc]
    congr 1
    apply BitVec.eq_of_toNat_eq
    simp only [BitVec.toNat_add, BitVec.toNat_ofNat, toNat_one32]
    omega

/-- `parse()` completes only on the serialization of a tree that fits the arena (R203, R205). -/
theorem parseNode_eq_done {fuel : Nat} {p q : ParseState} {i : Nat} (h : parseNode fuel p = .done (i, q))
    (hd : Defined p.node p.n) (hn : p.n ≤ nodeCap) :
    ∃ t : Tree, p.rest = t.ser ++ q.rest ∧ t.depth < fuel ∧ p.n + t.size ≤ nodeCap := by
  induction fuel generalizing p q i with
  | zero => simp [parseNode] at h
  | succ f ih =>
    simp only [parseNode] at h
    split at h
    · cases h
    · rename_i m rest hrest
      split at h
      · cases h
      · rename_i kind hk
        split at h
        · cases h
        · rename_i hcap
          split at h
          · split at h
            · cases h
            · rename_i y rest' hrest'
              cases h
              simp only [ParseState.took, ParseState.create] at hrest'
              refine ⟨.leaf y, ?_, by simp [Tree.depth], by simp only [Tree.size]; omega⟩
              rw [hrest, hrest', kindOfMarker_eq_leaf hk]
              rfl
          · obtain ⟨⟨il, ⟨rest2, ipos2, n2, node2⟩⟩, hl, h⟩ := Res.bind_eq_done.mp h
            obtain ⟨⟨ir, qr⟩, hr, h⟩ := Res.bind_eq_done.mp h
            cases h
            have hdl : Defined (((p.took rest).create).put p.n (desInternal 0 0)).node
                (((p.took rest).create).put p.n (desInternal 0 0)).n := by
              simpa [ParseState.took, ParseState.create, ParseState.put] using hd.succ _
            obtain ⟨tl, h1, h2, h3⟩ := ih hl hdl (by simp only [ParseState.took, ParseState.create, ParseState.put]; omega)
            have hfull := parseNode_ser tl h1 h2 h3 hdl
            rw [hl] at hfull
            cases hfull
            simp only [ParseState.took, ParseState.create, ParseState.put] at h1 h3 hr
            have hlt : ∀ k ∈ p.node.map Prod.fst, k < p.n := fun _ hk => hd.mem_keys.mp hk
            have hd2 : Defined (Memory.write (Memory.write p.node p.n (desInternal 0 0) ++ tl.layout (p.n + 1)) p.n
                (desInternal (p.n + 1) 0)) (p.n + 1 + tl.size) :=
              ((hd.succ (desInternal 0 0)).append_layout tl).write_lt _ (by omega)
            obtain ⟨tr, h4, h5, h6⟩ := ih hr hd2 (by simp only; omega)
            simp only at h4 h6
            refine ⟨.node tl tr, ?_, by simp only [Tree.depth]; omega, by simp only [Tree.size]; omega⟩
            rw [hrest, h1, h4, kindOfMarker_eq_int hk]
            simp [Tree.ser, ParseState.put]

/-- When `parse()` raises, it is `MalformedTreeError(DES, o)` with an offset in the unconsumed input (R204). -/
theorem parseNode_raised {fuel : Nat} {p : ParseState} {k : ErrKind} {st : Stage} {off : Option (BitVec 32)}
    (h : parseNode fuel p = .raised k st off) (hd : Defined p.node p.n) (hn : p.n ≤ nodeCap) :
    k = .malformedTree ∧ st = .des ∧ ∃ j, j ≤ p.rest.length ∧ off = some (p.ipos + BitVec.ofNat 32 j) := by
  induction fuel generalizing p with
  | zero => simp [parseNode] at h
  | succ f ih =>
    simp only [parseNode] at h
    split at h
    · cases h; exact ⟨rfl, rfl, 0, by omega, by simp⟩
    · rename_i m rest hrest
      split at h
      · cases h; exact ⟨rfl, rfl, 0, by omega, by simp⟩
      · rename_i kind hk
        split at h
        · cases h; exact ⟨rfl, rfl, 0, by omega, by simp⟩
        · rename_i hcap
          split at h
          · split at h
            · cases h
              exact ⟨rfl, rfl, 1, by rw [hrest]; simp, rfl⟩
            · cases h
          · have hdl : Defined (((p.took rest).create).put p.n (desInternal 0 0)).node
                (((p.took rest).create).put p.n (desInternal 0 0)).n := by
              simpa [ParseState.took, ParseState.create, ParseState.put] using hd.succ _
            have hnl : (((p.took rest).create).put p.n (desInternal 0 0)).n ≤ nodeCap := by
              simp only [ParseState.took, ParseState.create, ParseState.put]; omega
            rcases Res.bind_eq_raised.mp h with h | ⟨⟨il, ⟨rest2, ipos2, n2, node2⟩⟩, hl, h⟩
            · obtain ⟨h1, h2, j, hj, h3⟩ := ih h hdl hnl
              simp only [ParseState.took, ParseState.create, ParseState.put] at hj h3
              refine ⟨h1, h2, j + 1, by rw [hrest]; simpa using hj, ?_⟩
              rw [h3, BitVec.add_assoc]
              congr 2
              apply BitVec.eq_of_toNat_eq
              simp only [BitVec.toNat_add, BitVec.toNat_ofNat, toNat_one32]
              omega
            · obtain ⟨tl, e1, e2, e3⟩ := parseNode_eq_done hl hdl hnl
              have hfull := parseNode_ser tl e1 e2 e3 hdl
              rw [hl] at hfull
              cases hfull
              simp only [ParseState.took, ParseState.create, ParseState.put] at e1 e3 h
              rcases Res.bind_eq_raised.mp h with h | ⟨⟨ir, qr⟩, hr, h⟩
              · have hd2 : Defined (Memory.write (Memory.write p.node p.n (desInternal 0 0) ++ tl.layout (p.n + 1)) p.n
                    (desInternal (p.n + 1) 0)) (p.n + 1 + tl.size) :=
                  ((hd.succ (desInternal 0 0)).append_layout tl).write_lt _ (by omega)
                obtain ⟨h1, h2, j, hj, h3⟩ := ih h hd2 (by simp only; omega)
                refine ⟨h1, h2, 1 + tl.ser.length + j, ?_, ?_⟩
                · rw [hrest, e1]; simp only [List.length_cons, List.length_append]; simp only at hj; omega
                · rw [h3]
                  simp only [BitVec.add_assoc]
                  congr 2
                  apply BitVec.eq_of_toNat_eq
                  simp only [BitVec.toNat_add, BitVec.toNat_ofNat, toNat_one32]
                  omega
              · cases h

/-- `parse()` always ends: the levels are not exhausted (R204; log entry 13). -/
theorem parseNode_ne_stopped {fuel : Nat} {p : ParseState} (hd : Defined p.node p.n) (hn : p.n ≤ nodeCap)
    (hf : nodeCap - p.n < fuel) {e : Fault} : parseNode fuel p ≠ .stopped e := by
  induction fuel generalizing p with
  | zero => omega
  | succ f ih =>
    intro h
    simp only [parseNode] at h
    split at h
    · cases h
    · rename_i m rest hrest
      split at h
      · cases h
      · split at h
        · cases h
        · rename_i hcap
          split at h
          · split at h <;> cases h
          · have hdl : Defined (((p.took rest).create).put p.n (desInternal 0 0)).node
                (((p.took rest).create).put p.n (desInternal 0 0)).n := by
              simpa [ParseState.took, ParseState.create, ParseState.put] using hd.succ _
            have hnl : (((p.took rest).create).put p.n (desInternal 0 0)).n ≤ nodeCap := by
              simp only [ParseState.took, ParseState.create, ParseState.put]; omega
            rcases Res.bind_eq_stopped.mp h with h | ⟨⟨il, ⟨rest2, ipos2, n2, node2⟩⟩, hl, h⟩
            · exact ih hdl hnl (by simp only [ParseState.took, ParseState.create, ParseState.put]; omega) h
            · obtain ⟨tl, e1, e2, e3⟩ := parseNode_eq_done hl hdl hnl
              have hfull := parseNode_ser tl e1 e2 e3 hdl
              rw [hl] at hfull
              cases hfull
              simp only [ParseState.took, ParseState.create, ParseState.put] at e3 h
              rcases Res.bind_eq_stopped.mp h with h | ⟨⟨ir, qr⟩, hr, h⟩
              · have hd2 : Defined (Memory.write (Memory.write p.node p.n (desInternal 0 0) ++ tl.layout (p.n + 1)) p.n
                    (desInternal (p.n + 1) 0)) (p.n + 1 + tl.size) :=
                  ((hd.succ (desInternal 0 0)).append_layout tl).write_lt _ (by omega)
                exact ih hd2 (by simp only; omega) (by simp only; omega) h
              · cases h

/-- An arena that holds a tree's layout holds the tree at its first index. -/
theorem treeAt_layout (t : Tree) {s : State} {n fuel : Nat} (hm : ∀ e ∈ t.layout n, Memory.read s.node e.1 = some e.2)
    (hn : n + t.size ≤ nodeCap) (hf : t.depth < fuel) : treeAt s fuel (BitVec.ofNat 9 n) = .done t := by
  induction t generalizing n fuel with
  | leaf y =>
    obtain ⟨f, rfl⟩ : ∃ f, fuel = f + 1 := ⟨fuel - 1, by omega⟩
    simp only [Tree.size, nodeCap] at hn
    have hi : (BitVec.ofNat 9 n).toNat = n := by rw [BitVec.toNat_ofNat]; omega
    have hread := hm (n, desLeaf y) (by simp [Tree.layout])
    have hnode : nodeAt s (BitVec.ofNat 9 n) = desLeaf y := by simp only [nodeAt, hi]; rw [hread]; rfl
    exact treeAt_eq_done.mpr ⟨by rw [hi]; simp only [nodeCap]; omega, .inl ⟨by rw [hnode]; rfl, by rw [hnode]; rfl⟩⟩
  | node l r ihl ihr =>
    obtain ⟨f, rfl⟩ : ∃ f, fuel = f + 1 := ⟨fuel - 1, by omega⟩
    simp only [Tree.size] at hn
    simp only [Tree.depth] at hf
    have hi : (BitVec.ofNat 9 n).toNat = n := by rw [BitVec.toNat_ofNat]; simp only [nodeCap] at hn; omega
    have hread := hm (n, desInternal (n + 1) (n + 1 + l.size)) (by simp [Tree.layout])
    have hnode : nodeAt s (BitVec.ofNat 9 n) = desInternal (n + 1) (n + 1 + l.size) := by
      simp only [nodeAt, hi]; rw [hread]; rfl
    refine treeAt_eq_done.mpr ⟨by rw [hi]; simp only [nodeCap] at hn ⊢; omega, .inr ⟨by rw [hnode]; rfl, l, r, ?_, ?_, rfl⟩⟩
    · rw [hnode]
      exact ihl (fun e he => hm e (by simp [Tree.layout, he])) (by omega) (by omega)
    · rw [hnode]
      exact ihr (fun e he => hm e (by simp [Tree.layout, he])) (by omega) (by omega)

end Sys2Proof.Machine
end

