-- ==== Sys2Proof/Laws/Queue.lean ====
section
/-!
SUPPORT. The order and the operations of the priority queue (41_priority_queue.md R151, R153): `less` is a strict total
order, `pqLeast` is its least member, and what extraction and insertion can answer.
-/

namespace Sys2Proof.Machine

open Sys2Proof.Config

theorem less_iff {s : State} {i j : NodeIdx} :
    less s i j = true ↔ (nodeAt s i).weight.toNat < (nodeAt s j).weight.toNat ∨
      ((nodeAt s i).weight.toNat = (nodeAt s j).weight.toNat ∧ i.toNat < j.toNat) := by
  unfold less
  simp only [Bool.or_eq_true, Bool.and_eq_true, decide_eq_true_eq, BitVec.lt_def, ← BitVec.toNat_inj]

theorem less_irrefl (s : State) (i : NodeIdx) : less s i i = false := by
  rw [Bool.eq_false_iff]
  intro h
  rcases less_iff.mp h with h | h <;> omega

theorem less_trans {s : State} {i j k : NodeIdx} (h1 : less s i j = true) (h2 : less s j k = true) :
    less s i k = true := by
  rw [less_iff] at *; omega

theorem less_total {s : State} {i j : NodeIdx} (h : i ≠ j) : less s i j = true ∨ less s j i = true := by
  have : i.toNat ≠ j.toNat := fun e => h (BitVec.eq_of_toNat_eq e)
  rw [less_iff, less_iff]; omega

theorem pqLeast_eq_none {s : State} {q : List NodeIdx} : pqLeast s q = none ↔ q = [] := by
  cases q with
  | nil => simp [pqLeast]
  | cons x xs =>
    simp only [pqLeast]
    cases pqLeast s xs with
    | none => simp
    | some y => simp only [reduceCtorEq, iff_false]; split <;> simp

/-- The least member is a member, and no other member is less. -/
theorem pqLeast_spec {s : State} {q : List NodeIdx} {x : NodeIdx} (h : pqLeast s q = some x) :
    x ∈ q ∧ ∀ y ∈ q, y ≠ x → less s x y = true := by
  induction q generalizing x with
  | nil => simp [pqLeast] at h
  | cons z zs ih =>
    simp only [pqLeast] at h
    cases hz : pqLeast s zs with
    | none =>
      rw [hz] at h
      cases h
      rw [pqLeast_eq_none.mp hz]
      simp
    | some w =>
      rw [hz] at h
      obtain ⟨hw, hmin⟩ := ih hz
      simp only at h
      split at h
      · rename_i hwz
        cases h
        refine ⟨List.mem_cons_of_mem _ hw, fun y hy hne => ?_⟩
        rcases List.mem_cons.mp hy with rfl | hy
        · exact hwz
        · exact hmin y hy hne
      · rename_i hwz
        cases h
        refine ⟨List.mem_cons_self, fun y hy hne => ?_⟩
        rcases List.mem_cons.mp hy with rfl | hy2
        · exact absurd rfl hne
        · by_cases e : y = w
          · subst e
            exact (less_total (Ne.symm hne)).resolve_right (by simpa using hwz)
          · by_cases e' : w = z
            · rw [← e']; exact hmin y hy2 e
            · have h1 := (less_total (s := s) e').resolve_left (by simpa using hwz)
              exact less_trans h1 (hmin y hy2 e)

/-- The least member is the only one with that property. -/
theorem pqLeast_unique {s : State} {q : List NodeIdx} {x : NodeIdx} (hx : x ∈ q)
    (hmin : ∀ y ∈ q, y ≠ x → less s x y = true) : pqLeast s q = some x := by
  cases h : pqLeast s q with
  | none => rw [pqLeast_eq_none.mp h] at hx; simp at hx
  | some w =>
    obtain ⟨hw, hw'⟩ := pqLeast_spec h
    by_cases e : w = x
    · rw [e]
    · have h1 := hmin w hw e
      have h2 := hw' x hx (Ne.symm e)
      rw [less_iff] at h1 h2; omega

theorem less_congr {s t : State} (h1 : t.node = s.node) (h2 : t.freeCount = s.freeCount) (i j : NodeIdx) :
    less t i j = less s i j := by
  simp [less, nodeAt_congr h1 h2]

theorem pqLeast_congr {s t : State} (h1 : t.node = s.node) (h2 : t.freeCount = s.freeCount) (q : List NodeIdx) :
    pqLeast t q = pqLeast s q := by
  induction q with
  | nil => rfl
  | cons x xs ih => simp [pqLeast, ih, less_congr h1 h2]

/-- The state after `x` has been taken from the queue. -/
def State.tookMin (x : NodeIdx) (s : State) : State := { s with pq := pqDrop x s.pq, hsize := s.hsize - 1 }

/-- All an extraction can answer (R153), where `|PQ| = HSIZE`. -/
theorem pqExtractMin_cases {st : Stage} {s : State} (h : s.hsize.toNat = s.pq.length) :
    (s.pq = [] ∧ pqExtractMin st s = .raised .emptyQueue st none) ∨
    (∃ x, x ∈ s.pq ∧ (∀ y ∈ s.pq, y ≠ x → less s x y = true) ∧ pqExtractMin st s = .done (x, s.tookMin x)) := by
  unfold pqExtractMin
  split
  · rename_i h0
    exact .inl ⟨List.length_eq_zero_iff.mp (by rw [← h, h0]; rfl), rfl⟩
  · rename_i h0
    cases hl : pqLeast s s.pq with
    | none =>
      rw [pqLeast_eq_none] at hl
      rw [hl] at h
      exact absurd (BitVec.eq_of_toNat_eq (by simpa using h)) h0
    | some x =>
      obtain ⟨h1, h2⟩ := pqLeast_spec hl
      exact .inr ⟨x, h1, h2, rfl⟩

/-- `|PQ| = HSIZE` after an extraction. -/
theorem tookMin_size {s : State} {x : NodeIdx} (hs : s.pq.Pairwise (· < ·)) (h : s.hsize.toNat = s.pq.length) (hx : x ∈ s.pq) :
    (s.tookMin x).hsize.toNat = (s.tookMin x).pq.length ∧ (s.tookMin x).pq.length + 1 = s.pq.length := by
  have hp := (pqDrop_perm hs hx).length_eq
  rw [List.length_cons] at hp
  have hlt := s.hsize.isLt
  refine ⟨?_, hp.symm⟩
  change (s.hsize - 1).toNat = (pqDrop x s.pq).length
  rw [BitVec.toNat_sub, show BitVec.toNat (1 : BitVec 9) = 1 from rfl]
  omega

theorem pqInsert_done {x : NodeIdx} {s : State} (h : x.toNat < nodeCap) :
    pqInsert x s = .done { s with pq := pqAdd x s.pq, hsize := s.hsize + 1 } := by
  simp [pqInsert, h]

end Sys2Proof.Machine
end

