-- ==== Sys2Proof/Laws/InvBase.lean ====
section
/-!
SUPPORT. The machine's invariant, taken apart: what each part depends on, and that the buffer commands and FSCAN keep it
and never stop.
-/

namespace Sys2Proof.Machine

open Sys2Proof.Config

/-- What holds between commands of a block that has not faulted. -/
structure Good (s : State) : Prop where
  fault : s.fault = false
  form  : MemoryForm s
  live  : LiveInv s

/-- A component step that never stops from a good state, and that, when it completes, answers a good state with the same
parameters. -/
def Keeps (f : State → Res State) : Prop :=
  ∀ s, Good s → (∀ e, f s ≠ .stopped e) ∧ ∀ t, f s = .done t → Good t ∧ t.params = s.params

theorem Keeps.bind {f g : State → Res State} (hf : Keeps f) (hg : Keeps g) : Keeps fun s => (f s).bind g := by
  intro s hs
  refine ⟨fun e h => ?_, fun t h => ?_⟩
  · rcases Res.bind_eq_stopped.mp h with h | ⟨u, hu, h⟩
    · exact (hf s hs).1 e h
    · exact (hg u ((hf s hs).2 u hu).1).1 e h
  · obtain ⟨u, hu, h⟩ := Res.bind_eq_done.mp h
    have h1 := (hf s hs).2 u hu
    have h2 := (hg u h1.1).2 t h
    exact ⟨h2.1, h2.2.trans h1.2⟩

/-- A step guarded by a validity flag. -/
theorem Keeps.need {f : State → Res State} {ok : State → Bool} {st : Stage}
    (hf : ∀ s, Good s → ok s = true → (∀ e, f s ≠ .stopped e) ∧ ∀ t, f s = .done t → Good t ∧ t.params = s.params) :
    Keeps fun s => (Machine.need (ok s) st s).bind f := by
  intro s hs
  cases hok : ok s
  · simp [hok]
  · simpa [hok] using hf s hs hok

/-! ## Parameters -/

theorem params_bounds {p : Params} (h : paramsWellFormed p = true) :
    1 ≤ p.inCap ∧ p.inCap < 2 ^ 32 ∧ 1 ≤ p.outCap ∧ p.outCap < 2 ^ 32 ∧
      1 ≤ p.delim.length ∧ p.delim.length ≤ p.inCap ∧ p.delim.length ≤ p.outCap := by
  simp only [paramsWellFormed, capWellFormed, delimWellFormed, Bool.and_eq_true, decide_eq_true_eq] at h
  omega

/-! ## What each part depends on -/

theorem FreqInv.congr {s t : State} (h : FreqInv s) (h1 : t.freq = s.freq) (h2 : t.dsym = s.dsym)
    (h3 : t.freeCount = s.freeCount) : FreqInv t := by
  have hf : freqAt t = freqAt s := by funext y; simp [freqAt, h1, h3]
  exact ⟨h1 ▸ h.freq, by rw [hf, h2]; exact h.dsym, by rw [hf]; exact h.sum⟩

theorem CodeInv.congr {s t : State} (h : CodeInv s) (h1 : t.code = s.code) (h2 : t.freeCount = s.freeCount) : CodeInv t :=
  ⟨h1 ▸ h.code, fun y => by
    have : codeAt t y = codeAt s y := by simp [codeAt, h1, h2]
    rw [this]; exact h.codes y⟩

theorem ArenaInv.congr {s t : State} (h : ArenaInv s) (h1 : t.node = s.node) (h2 : t.ncnt = s.ncnt) : ArenaInv t :=
  ⟨by rw [h1, h2]; exact h.node, by rw [h2]; exact h.ncnt, by rw [h1, h2]; exact h.closed, by rw [h1]; exact h.strict⟩

theorem TreeInv.congr {s t : State} (h : TreeInv s) (h1 : t.node = s.node) (h2 : t.ncnt = s.ncnt)
    (h3 : t.freeCount = s.freeCount) (h4 : t.root = s.root)
    (h5 : t.cur = t.root ∨ (t.cur.toNat < s.ncnt.toNat ∧ (nodeAt s t.cur).kind = .internal)) : TreeInv t := by
  refine ⟨by rw [h4, h2]; exact h.root, by rw [h4, h1]; exact h.orphan, ?_, ?_⟩
  · obtain ⟨tr, ht, hl⟩ := h.tree
    exact ⟨tr, by simp only [rootTree] at *; rw [treeAt_same h1 h3, h4]; exact ht, hl⟩
  · rw [h2, nodeAt_congr h1 h3]; exact h5

theorem leavesAt_congr {s t : State} (h1 : t.node = s.node) (h2 : t.freeCount = s.freeCount) (x : NodeIdx) :
    leavesAt t x = leavesAt s x := by
  simp [leavesAt, treeAt_same h1 h2]

/-- Pending roots may be dropped or moved between `PQ` and `XR`. -/
theorem HeapInv.sub {s t : State} (h : HeapInv s) (h1 : t.node = s.node) (h2 : t.ncnt = s.ncnt)
    (h3 : t.freeCount = s.freeCount) (hsize : t.hsize.toNat = t.pq.length)
    (hsub : ∃ l, (pending s).Perm (pending t ++ l)) : HeapInv t := by
  obtain ⟨l, hl⟩ := hsub
  have hmem : ∀ x ∈ pending t, x ∈ pending s := fun x hx => hl.mem_iff.mpr (List.mem_append_left _ hx)
  have hsum : ∀ f : NodeIdx → Nat, ((pending t).map f).sum ≤ ((pending s).map f).sum := fun f => by
    rw [(hl.map f).sum_eq, List.map_append, List.sum_append]; omega
  have hn : ∀ x, nodeAt t x = nodeAt s x := nodeAt_congr h1 h3
  refine ⟨hsize, (List.nodup_append.mp (hl.nodup_iff.mp h.distinct)).1, ?_, ?_, ?_, ?_, ?_, ?_, ?_⟩
  · intro x hx; rw [h2]; exact h.defined x (hmem x hx)
  · intro x hx; rw [h1]; exact h.roots x (hmem x hx)
  · intro x hx; rw [treeAt_same h1 h3]; exact h.trees x (hmem x hx)
  · have : leavesAt t = leavesAt s := funext (leavesAt_congr h1 h3)
    rw [this]; exact Nat.le_trans (hsum _) h.leaves
  · have := hl.length_eq
    have := h.room
    rw [List.length_append] at *
    rw [h2]; omega
  · simp only [hn]
    exact Nat.le_trans (hsum _) h.weights
  · rw [h1]; simp only [hn]; exact h.sums

/-- There are at most 256 pending roots (41_priority_queue.md R156). -/
theorem HeapInv.pending_length {s : State} (h : HeapInv s) : (pending s).length ≤ 256 := by
  refine Nat.le_trans ?_ h.leaves
  have hge : ∀ x ∈ pending s, 1 ≤ leavesAt s x := fun x hx => by
    obtain ⟨t, ht⟩ := h.trees x hx
    simp only [leavesAt, ht]; exact t.leaves_pos
  have : ∀ l : List NodeIdx, (∀ x ∈ l, 1 ≤ leavesAt s x) → l.length ≤ (l.map (leavesAt s)).sum := by
    intro l hl
    induction l with
    | nil => simp
    | cons a l ih =>
      have := hl a (by simp)
      have := ih fun x hx => hl x (by simp [hx])
      simp only [List.length_cons, List.map_cons, List.sum_cons]; omega
  exact this _ hge

/-- A step that changes only the buffers, their cursors and `CIX`. -/
theorem Good.buffers {s t : State} (h : Good s) (ht : t = { s with ibuf := t.ibuf, ilen := t.ilen, ipos := t.ipos, obuf := t.obuf, olen := t.olen, cix := t.cix })
    (hb : BufferInv t) : Good t := by
  have hf := h.form
  have hl := h.live
  have e1 : t.freq = s.freq := by rw [ht]
  have e2 : t.dsym = s.dsym := by rw [ht]
  have e3 : t.freeCount = s.freeCount := by rw [ht]
  have e4 : t.code = s.code := by rw [ht]
  have e5 : t.node = s.node := by rw [ht]
  have e6 : t.ncnt = s.ncnt := by rw [ht]
  have e7 : t.root = s.root := by rw [ht]
  have e8 : t.cur = s.cur := by rw [ht]
  have e9 : t.pq = s.pq := by rw [ht]
  have e10 : t.hsize = s.hsize := by rw [ht]
  have e11 : t.xr = s.xr := by rw [ht]
  have e12 : t.xrV = s.xrV := by rw [ht]
  have f1 : t.heapV = s.heapV := by rw [ht]
  have f2 : t.treeV = s.treeV := by rw [ht]
  have f3 : t.freqV = s.freqV := by rw [ht]
  have f4 : t.codeV = s.codeV := by rw [ht]
  have f5 : t.fault = s.fault := by rw [ht]
  refine ⟨f5.trans h.fault, ⟨hb.ibuf.wf, hb.obuf.wf, e1 ▸ hf.freq, e5 ▸ hf.node, e4 ▸ hf.code, e9 ▸ hf.pq⟩, hb, ?_, ?_, ?_, ?_, ?_, ?_⟩
  · rw [f1, f2]; exact hl.oneUse
  · rw [f3]; exact fun hv => (hl.freq hv).congr e1 e2 e3
  · rw [f4]; exact fun hv => (hl.code hv).congr e4 e3
  · rw [f1, f2]; exact fun hv => (hl.arena hv).congr e5 e6
  · rw [f1]
    intro hv
    refine (hl.heap hv).sub e5 e6 e3 (by rw [e10, e9]; exact (hl.heap hv).size) ⟨[], ?_⟩
    simp [pending, e9, e11, e12]
  · rw [f2]
    intro hv
    refine (hl.tree hv).congr e5 e6 e3 e7 ?_
    rw [e7, e8]; exact (hl.tree hv).cur

/-! ## The buffer commands -/

theorem bv_add_one {n : Nat} {x : BitVec n} (h : x.toNat + 1 < 2 ^ n) : (x + BitVec.ofNat n 1).toNat = x.toNat + 1 := by
  rw [BitVec.toNat_add, BitVec.toNat_ofNat]
  rcases n with _ | n
  · omega
  · rw [Nat.mod_eq_of_lt (a := 1) (Nat.one_lt_two_pow (by omega)), Nat.mod_eq_of_lt h]

theorem ipush_keeps (imm : Byte) : Keeps (ipush imm) := by
  intro s hs
  have hb := hs.live.buffers
  have hp := params_bounds hb.params
  have hi := hb.ilen
  unfold ipush
  split
  · exact ⟨fun e h => (by cases h), fun t h => (by cases h)⟩
  · rename_i hne
    rw [if_neg (by omega)]
    refine ⟨fun e h => (by cases h), fun t h => ?_⟩
    cases h
    have hn : (s.pushIn imm).ilen.toNat = s.ilen.toNat + 1 := bv_add_one (by omega)
    refine ⟨hs.buffers rfl ⟨hb.params, by rw [hn, State.pushIn_params]; omega, ?_, hb.olen, ?_, hb.obuf⟩, rfl⟩
    · have := hb.ipos; rw [hn, State.pushIn_ipos]; omega
    · rw [hn]; exact hb.ibuf.succ imm

theorem iclr_keeps : Keeps iclr := by
  intro s hs
  have hb := hs.live.buffers
  refine ⟨fun e h => (by cases h), fun t h => ?_⟩
  cases h
  exact ⟨hs.buffers rfl ⟨hb.params, Nat.zero_le _, Nat.le_refl _, hb.olen, rfl, hb.obuf⟩, rfl⟩

theorem irew_keeps : Keeps irew := by
  intro s hs
  have hb := hs.live.buffers
  refine ⟨fun e h => (by cases h), fun t h => ?_⟩
  cases h
  exact ⟨hs.buffers rfl ⟨hb.params, hb.ilen, Nat.zero_le _, hb.olen, hb.ibuf, hb.obuf⟩, rfl⟩

theorem oclr_keeps : Keeps oclr := by
  intro s hs
  have hb := hs.live.buffers
  refine ⟨fun e h => (by cases h), fun t h => ?_⟩
  cases h
  exact ⟨hs.buffers rfl ⟨hb.params, hb.ilen, hb.ipos, Nat.zero_le _, hb.ibuf, rfl⟩, rfl⟩

theorem omov_keeps : Keeps omov := by
  intro s hs
  have hb := hs.live.buffers
  unfold omov
  split
  · exact ⟨fun e h => (by cases h), fun t h => (by cases h)⟩
  · rename_i hfit
    have : scanOutput s = .done (outputBytes s) := by simp [scanOutput, hb.olen]
    rw [this, Res.done_bind]
    refine ⟨fun e h => (by cases h), fun t h => ?_⟩
    cases h
    refine ⟨hs.buffers rfl ⟨hb.params, Nat.not_lt.mp hfit, Nat.zero_le _, Nat.zero_le _, ?_, rfl⟩, rfl⟩
    have := Memory.ofList_defined (outputBytes s)
    rwa [outputBytes_length] at this

/-! ## FSCAN -/

theorem present_length (count : Nat → BitVec 32) : (presentSymbols count).length ≤ 256 := by
  have := List.length_filter_le (fun y => decide (count y ≠ 0)) (List.range nsym)
  simpa [presentSymbols, nsym] using this

theorem sum_indicator (l : List Nat) (a : Nat) : (l.map fun y => if y = a then 1 else 0).sum = l.count a := by
  induction l with
  | nil => rfl
  | cons y l ih =>
    rw [List.map_cons, List.sum_cons, ih, List.count_cons]
    by_cases h : y = a
    · simp [h, Nat.add_comm]
    · simp [h]

theorem count_range {n a : Nat} (h : a < n) : (List.range n).count a = 1 :=
  List.count_eq_one_of_mem List.nodup_range (List.mem_range.mpr h)

theorem sum_zero (l : List Nat) : (l.map fun _ => 0).sum = 0 := by
  induction l with
  | nil => rfl
  | cons y l ih => rw [List.map_cons, List.sum_cons, ih]

/-- Every byte is counted once. -/
theorem count_sum (bs : List Byte) : ((List.range 256).map fun y => bs.count (BitVec.ofNat 8 y)).sum = bs.length := by
  induction bs with
  | nil => exact sum_zero _
  | cons b bs ih =>
    have hone : ((List.range 256).map fun y => if b == BitVec.ofNat 8 y then 1 else 0).sum = 1 := by
      have h1 : ∀ y ∈ List.range 256, (if b == BitVec.ofNat 8 y then 1 else 0) = if y = b.toNat then 1 else 0 := by
        intro y hy
        have hy := List.mem_range.mp hy
        have : (b == BitVec.ofNat 8 y) = true ↔ y = b.toNat := by
          rw [beq_iff_eq]
          constructor
          · rintro rfl; rw [BitVec.toNat_ofNat]; omega
          · rintro rfl; simp
        by_cases h : y = b.toNat
        · rw [if_pos (this.mpr h), if_pos h]
        · rw [if_neg (fun e => h (this.mp e)), if_neg h]
      rw [List.map_congr_left h1, sum_indicator]
      have hb : b.toNat < 256 := b.isLt
      exact count_range hb
    have : ∀ l : List Nat, (l.map fun y => (b :: bs).count (BitVec.ofNat 8 y)).sum =
        (l.map fun y => bs.count (BitVec.ofNat 8 y)).sum + (l.map fun y => if b == BitVec.ofNat 8 y then 1 else 0).sum := by
      intro l
      induction l with
      | nil => rfl
      | cons y l ihl =>
        simp only [List.map_cons, List.sum_cons]
        rw [ihl, List.count_cons]
        omega
    rw [this, ih, hone, List.length_cons]

theorem freqTable_read {bs : List Byte} {y : Nat} (hy : y < 256) : Memory.read (freqTable bs) y = some (countOf bs y) := by
  simp [freqTable, nsym, hy]

theorem sum_map_le {l : List Nat} {f g : Nat → Nat} (h : ∀ y ∈ l, f y ≤ g y) : (l.map f).sum ≤ (l.map g).sum := by
  induction l with
  | nil => simp
  | cons y l ih =>
    have := h y (by simp)
    have := ih fun z hz => h z (by simp [hz])
    simp only [List.map_cons, List.sum_cons]; omega

theorem fscan_keeps : Keeps fscan := by
  intro s hs
  have hb := hs.live.buffers
  have hp := params_bounds hb.params
  have hf := hs.form
  have hl := hs.live
  unfold fscan
  rw [scanInput_done hb.ilen, Res.done_bind]
  refine ⟨fun e h => (by cases h), fun t h => ?_⟩
  cases h
  refine ⟨⟨hs.fault, ⟨hf.ibuf, hf.obuf, Memory.ofList_wf _, hf.node, hf.code, hf.pq⟩,
    ⟨⟨hb.params, hb.ilen, hb.ipos, hb.olen, hb.ibuf, hb.obuf⟩, hl.oneUse, fun _ => ?_,
      fun hv => (hl.code hv).congr rfl rfl, fun hv => (hl.arena hv).congr rfl rfl, fun hv => ?_, fun hv => ?_⟩⟩, rfl⟩
  · have hread : ∀ y < 256, freqAt { s with freq := freqTable (inputBytes s), dsym := BitVec.ofNat 9 (presentSymbols (countOf (inputBytes s))).length, freqV := true } y = countOf (inputBytes s) y := fun y hy => by
      simp [freqAt, freqTable_read hy]
    refine ⟨?_, ?_, ?_⟩
    · have := Memory.ofList_defined ((List.range nsym).map (countOf (inputBytes s)))
      simpa [freqTable] using this
    · have h2 := present_length (countOf (inputBytes s))
      simp only [BitVec.toNat_ofNat]
      rw [Nat.mod_eq_of_lt (by omega)]
      refine congrArg List.length (List.filter_congr fun y hy => ?_)
      rw [hread y (List.mem_range.mp hy)]
    · refine Nat.le_trans (sum_map_le (g := fun y => (inputBytes s).count (BitVec.ofNat 8 y)) fun y hy => ?_) ?_
      · rw [hread y (List.mem_range.mp hy), countOf, BitVec.toNat_ofNat]
        exact Nat.mod_le _ _
      · have := count_sum (inputBytes s)
        rw [inputBytes_length] at this
        have := hb.ilen
        simp only [nsym]; omega
  · exact (hl.heap hv).sub rfl rfl rfl (hl.heap hv).size ⟨[], by simp [pending]⟩
  · exact (hl.tree hv).congr rfl rfl rfl rfl (hl.tree hv).cur

end Sys2Proof.Machine
end

