-- ==== Sys2Proof/Laws/InvQueue.lean ====
section
/-!
SUPPORT. The queue and builder commands keep the invariant and never stop: PQBUILD, PQINS, PQEXT, MERGE, TROOT, TBUILD.
-/

namespace Sys2Proof.Machine

open Sys2Proof.Config

/-! ## Changing the part of the state that belongs to the queue -/

/-- A step that leaves everything but the queue's registers and `XR` alone. -/
theorem Good.queue {s t : State} (h : Good s)
    (ht : t = { s with pq := t.pq, hsize := t.hsize, xr := t.xr, xrV := t.xrV }) (hpq : pqWf t.pq)
    (hh : s.heapV = true → HeapInv t) : Good t := by
  have hf := h.form
  have hl := h.live
  have e1 : t.fault = s.fault := by rw [ht]
  have e2 : t.heapV = s.heapV := by rw [ht]
  have e3 : t.treeV = s.treeV := by rw [ht]
  have e4 : t.freqV = s.freqV := by rw [ht]
  have e5 : t.codeV = s.codeV := by rw [ht]
  have e6 : t.freeCount = s.freeCount := by rw [ht]
  have e7 : t.node = s.node := by rw [ht]
  have e8 : t.ncnt = s.ncnt := by rw [ht]
  have e9 : t.root = s.root := by rw [ht]
  have e10 : t.cur = s.cur := by rw [ht]
  have e11 : t.params = s.params := by rw [ht]
  have e12 : t.ibuf = s.ibuf := by rw [ht]
  have e13 : t.obuf = s.obuf := by rw [ht]
  have e14 : t.ilen = s.ilen := by rw [ht]
  have e15 : t.olen = s.olen := by rw [ht]
  have e16 : t.ipos = s.ipos := by rw [ht]
  have e17 : t.freq = s.freq := by rw [ht]
  have e18 : t.code = s.code := by rw [ht]
  have e19 : t.dsym = s.dsym := by rw [ht]
  have hb := hl.buffers
  refine ⟨e1.trans h.fault, ⟨e12 ▸ hf.ibuf, e13 ▸ hf.obuf, e17 ▸ hf.freq, e7 ▸ hf.node, e18 ▸ hf.code, hpq⟩,
    ⟨e11 ▸ hb.params, by rw [e14, e11]; exact hb.ilen, by rw [e16, e14]; exact hb.ipos, by rw [e15, e11]; exact hb.olen,
      by rw [e12, e14]; exact hb.ibuf, by rw [e13, e15]; exact hb.obuf⟩, ?_, ?_, ?_, ?_, ?_, ?_⟩
  · rw [e2, e3]; exact hl.oneUse
  · rw [e4]; exact fun hv => (hl.freq hv).congr e17 e19 e6
  · rw [e5]; exact fun hv => (hl.code hv).congr e18 e6
  · rw [e2, e3]; exact fun hv => (hl.arena hv).congr e7 e8
  · rw [e2]; exact hh
  · rw [e3]
    intro hv
    refine (hl.tree hv).congr e7 e8 e6 e9 ?_
    rw [e9, e10]; exact (hl.tree hv).cur

theorem pending_pq {s : State} : ∃ l, (pending s).Perm (s.pq ++ l) := by
  unfold pending
  split
  · exact ⟨[s.xr], (List.perm_append_comm (l₁ := [s.xr]) (l₂ := s.pq))⟩
  · exact ⟨[], by simp⟩

theorem pq_length_le {s : State} (h : HeapInv s) : s.pq.length ≤ 256 := by
  obtain ⟨l, hl⟩ := pending_pq (s := s)
  have := hl.length_eq
  have := h.pending_length
  rw [List.length_append] at *
  omega

theorem pqext_keeps : Keeps pqext := by
  refine Keeps.need fun s hs hv => ?_
  have hh := hs.live.heap hv
  rcases pqExtractMin_cases (st := .pq) hh.size with ⟨_, hr⟩ | ⟨x, hx, _, hd⟩
  · rw [hr]; exact ⟨fun e h => (by cases h), fun t h => (by cases h)⟩
  · rw [hd, Res.done_bind]
    refine ⟨fun e h => (by cases h), fun t h => ?_⟩
    cases h
    refine ⟨hs.queue rfl (pqDrop_wf hs.form.pq x) fun _ => ?_, rfl⟩
    have hp := pqDrop_perm hs.form.pq.1 hx
    refine hh.sub rfl rfl rfl (tookMin_size hs.form.pq.1 hh.size hx).1 ?_
    obtain ⟨l, hl⟩ := pending_pq (s := s)
    refine ⟨l, hl.trans ?_⟩
    simp only [pending, State.tookMin, if_true]
    exact hp.append_right l

theorem pqins_keeps : Keeps pqins := by
  refine Keeps.need (ok := fun s => s.heapV && s.xrV) fun s hs hv => ?_
  rw [Bool.and_eq_true] at hv
  have hh := hs.live.heap hv.1
  have ha := hs.live.arena (.inl hv.1)
  have hmem : s.xr ∈ pending s := by simp [pending, hv.2]
  have hxr : s.xr.toNat < nodeCap := Nat.lt_of_lt_of_le (hh.defined _ hmem) ha.ncnt
  have hnot : s.xr ∉ s.pq := by
    have := hh.distinct
    simp only [pending, hv.2, if_true, List.nodup_cons] at this
    exact this.1
  rw [pqInsert_done hxr, Res.done_bind]
  refine ⟨fun e h => (by cases h), fun t h => ?_⟩
  cases h
  refine ⟨hs.queue rfl (pqAdd_wf hs.form.pq hxr) fun _ => ?_, rfl⟩
  have hp := pqAdd_perm hs.form.pq.1 hnot
  refine hh.sub rfl rfl rfl ?_ ⟨[], ?_⟩
  · have hlen := pq_length_le hh
    have hsz := hh.size
    rw [hp.length_eq, List.length_cons, ← hsz]
    exact bv_add_one (by omega)
  · simp only [pending, hv.2, if_true, List.append_nil]
    exact hp.symm

/-! ## PQBUILD -/

theorem sum_filter_le {α : Type} (l : List α) (p : α → Bool) (f : α → Nat) :
    ((l.filter p).map f).sum ≤ (l.map f).sum := by
  induction l with
  | nil => simp
  | cons x l ih =>
    rw [List.filter_cons]
    split
    · simp only [List.map_cons, List.sum_cons]; omega
    · simp only [List.map_cons, List.sum_cons]; omega

theorem childrenOf_leaves {α : Type} (l : List α) (f : α → NodeRec) (hf : ∀ a, (f a).kind = .leaf) :
    childrenOf (Memory.ofList (l.map f)) = [] := by
  simp only [childrenOf, List.flatMap_eq_nil_iff, Memory.ofList, List.mem_map]
  rintro e ⟨⟨n, k⟩, hn, rfl⟩
  obtain ⟨a, _, rfl⟩ := List.mem_map.mp (List.fst_mem_of_mem_zipIdx hn)
  simp [nodeChildren, hf a]

/-- The queue and the leaves PQBUILD makes meet the invariant (41_priority_queue.md R154). -/
theorem pqbuild_heap {s t : State} (hq : FreqInv s)
    (hnode : t.node = Memory.ofList ((presentSymbols (freqAt s)).map (leafOf (freqAt s))))
    (hncnt : t.ncnt = BitVec.ofNat 10 (presentSymbols (freqAt s)).length)
    (hpq : t.pq = (List.range (presentSymbols (freqAt s)).length).map (BitVec.ofNat 9))
    (hsize : t.hsize = BitVec.ofNat 9 (presentSymbols (freqAt s)).length) (hxr : t.xrV = false) :
    ArenaInv t ∧ HeapInv t ∧ pqWf t.pq := by
  have hlen := present_length (freqAt s)
  have hn : t.ncnt.toNat = (presentSymbols (freqAt s)).length := by
    rw [hncnt, BitVec.toNat_ofNat, Nat.mod_eq_of_lt (by omega)]
  have hch : childrenOf t.node = [] := by rw [hnode]; exact childrenOf_leaves _ _ fun _ => rfl
  have hpend : pending t = (List.range (presentSymbols (freqAt s)).length).map (BitVec.ofNat 9) := by
    simp [pending, hxr, hpq]
  have hidx : ∀ k < (presentSymbols (freqAt s)).length, (BitVec.ofNat 9 k).toNat = k := fun k hk => by
    rw [BitVec.toNat_ofNat, Nat.mod_eq_of_lt (by omega)]
  have hrec : ∀ k (hk : k < (presentSymbols (freqAt s)).length),
      nodeAt t (BitVec.ofNat 9 k) = leafOf (freqAt s) ((presentSymbols (freqAt s))[k]) := fun k hk => by
    simp [nodeAt, hidx k hk, hnode, hk]
  have htree : ∀ k (hk : k < (presentSymbols (freqAt s)).length), treeAt t treeLevels (BitVec.ofNat 9 k) =
      .done (.leaf (BitVec.ofNat 8 ((presentSymbols (freqAt s))[k]))) := fun k hk => by
    refine treeAt_eq_done.mpr ⟨by rw [hidx k hk]; simp only [nodeCap]; omega, .inl ?_⟩
    rw [hrec k hk]; exact ⟨rfl, rfl⟩
  have hsorted : ((List.range (presentSymbols (freqAt s)).length).map (BitVec.ofNat 9)).Pairwise (· < ·) := by
    rw [List.pairwise_map]
    refine List.Pairwise.imp_of_mem ?_ List.pairwise_lt_range
    intro a b ha hb hab
    rw [BitVec.lt_def, hidx a (List.mem_range.mp ha), hidx b (List.mem_range.mp hb)]
    exact hab
  refine ⟨⟨?_, ?_, ?_, ?_⟩, ⟨?_, ?_, ?_, ?_, ?_, ?_, ?_, ?_, ?_⟩, ?_, ?_⟩
  · rw [hn, hnode]
    have := Memory.ofList_defined ((presentSymbols (freqAt s)).map (leafOf (freqAt s)))
    rwa [List.length_map] at this
  · rw [hn]; simp only [nodeCap]; omega
  · rw [hch]; simp
  · rw [hch]; exact List.nodup_nil
  · rw [hsize, hpq, BitVec.toNat_ofNat, Nat.mod_eq_of_lt (by omega)]; simp
  · rw [hpend]; exact sorted_nodup hsorted
  · rw [hpend, hn]
    intro x hx
    obtain ⟨k, hk, rfl⟩ := List.mem_map.mp hx
    rw [hidx k (List.mem_range.mp hk)]; exact List.mem_range.mp hk
  · rw [hch]; simp
  · rw [hpend]
    intro x hx
    obtain ⟨k, hk, rfl⟩ := List.mem_map.mp hx
    exact ⟨_, htree k (List.mem_range.mp hk)⟩
  · rw [hpend, List.map_map]
    have : ∀ l : List Nat, (∀ k ∈ l, k < (presentSymbols (freqAt s)).length) →
        (l.map (leavesAt t ∘ BitVec.ofNat 9)).sum = l.length := by
      intro l hl
      induction l with
      | nil => rfl
      | cons k l ih =>
        have h1 : leavesAt t (BitVec.ofNat 9 k) = 1 := by simp [leavesAt, htree k (hl k (by simp)), Tree.leaves]
        simp only [List.map_cons, List.sum_cons, Function.comp_apply, h1, ih fun j hj => hl j (by simp [hj]),
          List.length_cons]
        omega
    rw [this _ fun k hk => List.mem_range.mp hk, List.length_range]
    exact hlen
  · rw [hpend, hn]; simp only [List.length_map, List.length_range]; omega
  · rw [hpend, List.map_map]
    have : (List.range (presentSymbols (freqAt s)).length).map ((fun x => (nodeAt t x).weight.toNat) ∘ BitVec.ofNat 9) =
        (presentSymbols (freqAt s)).map fun y => (freqAt s y).toNat := by
      refine List.ext_getElem (by simp) fun k h1 h2 => ?_
      simp only [List.getElem_map, List.getElem_range, Function.comp_apply]
      rw [hrec k (by simpa using h2)]
      rfl
    rw [this]
    exact Nat.le_trans (sum_filter_le _ _ _) hq.sum
  · intro e he hk
    rw [hnode] at he
    simp only [Memory.ofList, List.mem_map] at he
    obtain ⟨⟨n, k⟩, hn', rfl⟩ := he
    obtain ⟨a, _, rfl⟩ := List.mem_map.mp (List.fst_mem_of_mem_zipIdx hn')
    simp [leafOf] at hk
  · rw [hpq]; exact hsorted
  · rw [hpq]
    intro x hx
    obtain ⟨k, hk, rfl⟩ := List.mem_map.mp hx
    rw [hidx k (List.mem_range.mp hk)]
    have := List.mem_range.mp hk
    simp only [nodeCap]; omega

theorem pqbuild_keeps : Keeps pqbuild := by
  refine Keeps.need fun s hs hv => ?_
  refine ⟨fun e h => (by cases h), fun t h => ?_⟩
  cases h
  have hb := hs.live.buffers
  have hf := hs.form
  obtain ⟨h1, h2, h3⟩ := pqbuild_heap (hs.live.freq hv) rfl rfl rfl rfl rfl
    (t := { s with
      node := Memory.ofList ((presentSymbols (freqAt s)).map (leafOf (freqAt s)))
      ncnt := BitVec.ofNat 10 (presentSymbols (freqAt s)).length
      pq := (List.range (presentSymbols (freqAt s)).length).map (BitVec.ofNat 9)
      hsize := BitVec.ofNat 9 (presentSymbols (freqAt s)).length
      heapV := true, treeV := false, xrV := false })
  exact ⟨⟨hs.fault, ⟨hf.ibuf, hf.obuf, hf.freq, Memory.ofList_wf _, hf.code, h3⟩,
    ⟨⟨hb.params, hb.ilen, hb.ipos, hb.olen, hb.ibuf, hb.obuf⟩, by simp, fun hv => (hs.live.freq hv).congr rfl rfl rfl,
      fun hv => (hs.live.code hv).congr rfl rfl, fun _ => h1, fun _ => h2, fun hv => by cases hv⟩⟩, rfl⟩

/-! ## MERGE -/

theorem sum_perm_two {l l' : List NodeIdx} {a b : NodeIdx} (h : l.Perm (a :: b :: l')) (f : NodeIdx → Nat) :
    (l.map f).sum = f a + (f b + (l'.map f).sum) := by
  rw [(h.map f).sum_eq]; simp

/-- The state MERGE makes of two extracted roots (42_tree_builder.md R170). -/
def State.merged (a b : NodeIdx) (s : State) : State :=
  { s with
    pq := pqAdd (s.ncnt.setWidth 9) (pqDrop b (pqDrop a s.pq))
    hsize := s.hsize - 1 - 1 + 1
    node := Memory.write s.node s.ncnt.toNat (parentOf (nodeAt s a) (nodeAt s b) a b)
    ncnt := s.ncnt + 1 }

/-- All MERGE can answer where the invariant holds (R170): it joins the two least members, or the queue is too small. -/
theorem merge_cases {s : State} (hs : Good s) (hv : s.heapV = true) :
    (s.pq.length < 2 ∧ merge s = .raised .emptyQueue .build none) ∨
    (∃ a b, a ∈ s.pq ∧ b ∈ s.pq ∧ a ≠ b ∧ (∀ y ∈ s.pq, y ≠ a → less s a y = true) ∧
      (∀ y ∈ s.pq, y ≠ a → y ≠ b → less s b y = true) ∧ s.ncnt.toNat < nodeCap ∧ merge s = .done (s.merged a b)) := by
  have hh := hs.live.heap hv
  have ha := hs.live.arena (.inl hv)
  unfold merge
  rw [hv, need_true, Res.done_bind]
  rcases pqExtractMin_cases (st := .build) hh.size with ⟨he, hr⟩ | ⟨a, ham, hamin, hd⟩
  · rw [hr]; exact .inl ⟨by simp [he], rfl⟩
  · rw [hd, Res.done_bind]
    obtain ⟨hsz, hlen⟩ := tookMin_size hs.form.pq.1 hh.size ham
    rcases pqExtractMin_cases (st := .build) hsz with ⟨he, hr⟩ | ⟨b, hbm, hbmin, hd2⟩
    · rw [hr]
      refine .inl ⟨?_, rfl⟩
      rw [he] at hlen; simp at hlen; omega
    · rw [hd2, Res.done_bind]
      have hbm' := mem_pqDrop.mp (show b ∈ pqDrop a s.pq from hbm)
      obtain ⟨l, hl⟩ := pending_pq (s := s)
      have hdef : ∀ x ∈ s.pq, x.toNat < s.ncnt.toNat := fun x hx =>
        hh.defined x (hl.mem_iff.mpr (List.mem_append_left _ hx))
      have hcap := ha.ncnt
      have hroom : s.ncnt.toNat < nodeCap := by
        have h1 := hh.room
        have h2 := hl.length_eq
        have h3 := (tookMin_size (s := s.tookMin a) (hs.form.pq.1.filter _) hsz hbm).2
        rw [List.length_append] at h2
        simp only [nodeCap]
        omega
      rw [readNode_done (Nat.lt_of_lt_of_le (hdef a ham) hcap), Res.done_bind,
        readNode_done (Nat.lt_of_lt_of_le (hdef b hbm'.1) hcap), Res.done_bind]
      have happ : appendNode (parentOf (nodeAt ((s.tookMin a).tookMin b) a) (nodeAt ((s.tookMin a).tookMin b) b) a b)
          ((s.tookMin a).tookMin b) = .done { (s.tookMin a).tookMin b with
            node := Memory.write s.node s.ncnt.toNat (parentOf (nodeAt s a) (nodeAt s b) a b), ncnt := s.ncnt + 1 } := by
        unfold appendNode
        rw [if_pos (show ((s.tookMin a).tookMin b).ncnt.toNat < nodeCap from hroom)]
        rfl
      rw [happ, Res.done_bind]
      have hidx : (s.ncnt.setWidth 9).toNat = s.ncnt.toNat := by
        rw [BitVec.toNat_setWidth]; simp only [nodeCap] at hroom; omega
      rw [show ((s.tookMin a).tookMin b).ncnt = s.ncnt from rfl, pqInsert_done (by rw [hidx]; exact hroom)]
      refine .inr ⟨a, b, ham, hbm'.1, Ne.symm hbm'.2, hamin, ?_, hroom, rfl⟩
      intro y hy hya hyb
      have := hbmin y (mem_pqDrop.mpr ⟨hy, hya⟩) hyb
      rwa [less_congr (s := s) (t := s.tookMin a) rfl rfl] at this

/-- What MERGE makes of two pending roots meets the invariant (R39, R170). -/
theorem merged_inv {s : State} {a b : NodeIdx} (ha : ArenaInv s) (hh : HeapInv s) (hq : pqWf s.pq) (ham : a ∈ s.pq)
    (hbm : b ∈ s.pq) (hab : a ≠ b) (hroom : s.ncnt.toNat < nodeCap) :
    ArenaInv (s.merged a b) ∧ HeapInv (s.merged a b) ∧ pqWf (s.merged a b).pq := by
  have hn : (s.merged a b).ncnt.toNat = s.ncnt.toNat + 1 := bv_add_one (by simp only [nodeCap] at hroom; omega)
  have hidx : (s.ncnt.setWidth 9).toNat = s.ncnt.toNat := by
    rw [BitVec.toNat_setWidth]; simp only [nodeCap] at hroom; omega
  have hdrop : (pqDrop b (pqDrop a s.pq)).Pairwise (· < ·) := (hq.1.filter _).filter _
  have hperm : s.pq.Perm (a :: b :: pqDrop b (pqDrop a s.pq)) :=
    (pqDrop_perm hq.1 ham).trans
      ((pqDrop_perm (hq.1.filter _) (mem_pqDrop.mpr ⟨hbm, Ne.symm hab⟩)).cons a)
  -- the pending roots before are `a`, `b` and the rest
  obtain ⟨rest, hrest, hpend⟩ : ∃ rest, (pending s).Perm (a :: b :: rest) ∧
      (pending (s.merged a b)).Perm (s.ncnt.setWidth 9 :: rest) := by
    have hnew : s.ncnt.setWidth 9 ∉ pqDrop b (pqDrop a s.pq) := by
      intro h
      have h1 := (mem_pqDrop.mp (mem_pqDrop.mp h).1).1
      obtain ⟨l, hl⟩ := pending_pq (s := s)
      have := hh.defined _ (hl.mem_iff.mpr (List.mem_append_left _ h1))
      omega
    have hadd := pqAdd_perm hdrop hnew
    cases hx : s.xrV
    · refine ⟨pqDrop b (pqDrop a s.pq), by simpa [pending, hx] using hperm, ?_⟩
      simpa [pending, hx, State.merged] using hadd
    · refine ⟨s.xr :: pqDrop b (pqDrop a s.pq), ?_, ?_⟩
      · simp only [pending, hx, if_true]
        exact (hperm.cons _).trans ((List.Perm.swap a s.xr _).trans ((List.Perm.swap b s.xr _).cons a))
      · simp only [pending, State.merged, hx, if_true]
        exact (hadd.cons _).trans (List.Perm.swap _ _ _)
  have hmem : ∀ x, x ∈ pending s ↔ x = a ∨ x = b ∨ x ∈ rest := fun x => by rw [hrest.mem_iff]; simp
  have hmem' : ∀ x, x ∈ pending (s.merged a b) ↔ x = s.ncnt.setWidth 9 ∨ x ∈ rest := fun x => by
    rw [hpend.mem_iff]; simp
  have hnd := hrest.nodup_iff.mp hh.distinct
  simp only [List.nodup_cons, List.mem_cons, not_or] at hnd
  have hda := hh.defined a ((hmem a).mpr (.inl rfl))
  have hdb := hh.defined b ((hmem b).mpr (.inr (.inl rfl)))
  have hdr : ∀ x ∈ rest, x.toNat < s.ncnt.toNat := fun x hx => hh.defined x ((hmem x).mpr (.inr (.inr hx)))
  -- the arena after
  have hnode : (s.merged a b).node = s.node ++ [(s.ncnt.toNat, parentOf (nodeAt s a) (nodeAt s b) a b)] :=
    ha.node.write_next _
  have hold : ∀ x : NodeIdx, x.toNat < s.ncnt.toNat → nodeAt (s.merged a b) x = nodeAt s x := fun x hx => by
    obtain ⟨n, hr⟩ := ha.node.read hx
    simp only [nodeAt, hnode]
    rw [Memory.read_append_left hr, hr]
    rfl
  have hnewAt : nodeAt (s.merged a b) (s.ncnt.setWidth 9) = parentOf (nodeAt s a) (nodeAt s b) a b := by
    simp only [nodeAt, hidx]
    rw [show (s.merged a b).node = Memory.write s.node s.ncnt.toNat (parentOf (nodeAt s a) (nodeAt s b) a b) from rfl,
      Memory.read_write_same]
    rfl
  have hch : childrenOf (s.merged a b).node = childrenOf s.node ++ [a, b] := by
    rw [hnode]; simp [childrenOf, nodeChildren, parentOf]
  have hclosed : ∀ x : NodeIdx, x.toNat < s.ncnt.toNat → (nodeAt s x).kind = .internal →
      (nodeAt s x).left.toNat < s.ncnt.toNat ∧ (nodeAt s x).right.toNat < s.ncnt.toNat := fun x hx hk => by
    obtain ⟨n, hr⟩ := ha.node.read hx
    have he : nodeAt s x = n := by simp [nodeAt, hr]
    have hin : ∀ c ∈ nodeChildren n, c ∈ childrenOf s.node := fun c hc =>
      List.mem_flatMap.mpr ⟨_, Memory.read_mem hr, hc⟩
    rw [he] at hk ⊢
    exact ⟨ha.closed _ (hin _ (by simp [nodeChildren, hk])), ha.closed _ (hin _ (by simp [nodeChildren, hk]))⟩
  have hsame : ∀ fuel (x : NodeIdx), x.toNat < s.ncnt.toNat → treeAt (s.merged a b) fuel x = treeAt s fuel x :=
    fun fuel x hx => treeAt_congr (fun i => i.toNat < s.ncnt.toNat) hold (fun i hi hk => hclosed i hi hk) fuel hx
  have hleaves : ∀ x : NodeIdx, x.toNat < s.ncnt.toNat → leavesAt (s.merged a b) x = leavesAt s x := fun x hx => by
    simp [leavesAt, hsame _ x hx]
  obtain ⟨ta, hta⟩ := hh.trees a ((hmem a).mpr (.inl rfl))
  obtain ⟨tb, htb⟩ := hh.trees b ((hmem b).mpr (.inr (.inl rfl)))
  have hla : leavesAt s a = ta.leaves := by simp [leavesAt, hta]
  have hlb : leavesAt s b = tb.leaves := by simp [leavesAt, htb]
  have hsumL := hh.leaves
  rw [sum_perm_two hrest, hla, hlb] at hsumL
  have hnewTree : treeAt (s.merged a b) treeLevels (s.ncnt.setWidth 9) = .done (.node ta tb) := by
    have d1 := ta.depth_lt_leaves
    have d2 := tb.depth_lt_leaves
    have p1 := ta.leaves_pos
    have p2 := tb.leaves_pos
    refine treeAt_eq_done.mpr ⟨by rw [hidx]; exact hroom, .inr ?_⟩
    rw [hnewAt]
    refine ⟨rfl, ta, tb, ?_, ?_, rfl⟩
    · rw [show (parentOf (nodeAt s a) (nodeAt s b) a b).left = a from rfl, hsame _ a hda]
      exact treeAt_levels hta (by omega)
    · rw [show (parentOf (nodeAt s a) (nodeAt s b) a b).right = b from rfl, hsame _ b hdb]
      exact treeAt_levels htb (by omega)
  have hsumW := hh.weights
  rw [sum_perm_two hrest] at hsumW
  have hweight : (parentOf (nodeAt s a) (nodeAt s b) a b).weight.toNat = (nodeAt s a).weight.toNat + (nodeAt s b).weight.toNat := by
    simp only [parentOf, BitVec.toNat_add]
    exact Nat.mod_eq_of_lt (by omega)
  refine ⟨⟨?_, ?_, ?_, ?_⟩, ⟨?_, ?_, ?_, ?_, ?_, ?_, ?_, ?_, ?_⟩, ?_⟩
  · rw [hn]; exact ha.node.succ _
  · rw [hn]; exact hroom
  · rw [hch, hn]
    intro c hc
    rcases List.mem_append.mp hc with hc | hc
    · exact Nat.lt_succ_of_lt (ha.closed c hc)
    · rcases (by simpa using hc : c = a ∨ c = b) with rfl | rfl <;> omega
  · rw [hch]
    refine List.nodup_append.mpr ⟨ha.strict, by simp [hab], ?_⟩
    intro c hc d hd e
    subst e
    rcases (by simpa using hd : c = a ∨ c = b) with rfl | rfl
    · exact hh.roots _ ((hmem _).mpr (.inl rfl)) hc
    · exact hh.roots _ ((hmem _).mpr (.inr (.inl rfl))) hc
  · have h1 := pq_length_le hh
    have h2 := hh.size
    have h3 := hperm.length_eq
    simp only [List.length_cons] at h3
    have hnew : s.ncnt.setWidth 9 ∉ pqDrop b (pqDrop a s.pq) := by
      intro h
      have h1 := (mem_pqDrop.mp (mem_pqDrop.mp h).1).1
      obtain ⟨l, hl⟩ := pending_pq (s := s)
      have := hh.defined _ (hl.mem_iff.mpr (List.mem_append_left _ h1))
      omega
    have h4 := (pqAdd_perm hdrop hnew).length_eq
    simp only [List.length_cons] at h4
    change (s.hsize - 1 - 1 + 1).toNat = (pqAdd (s.ncnt.setWidth 9) (pqDrop b (pqDrop a s.pq))).length
    have h5 : (s.hsize - 1).toNat = s.hsize.toNat - 1 := by
      rw [BitVec.toNat_sub, show BitVec.toNat (1 : BitVec 9) = 1 from rfl]; omega
    have h6 : (s.hsize - 1 - 1).toNat = s.hsize.toNat - 1 - 1 := by
      rw [BitVec.toNat_sub, show BitVec.toNat (1 : BitVec 9) = 1 from rfl, h5]; omega
    have h7 : (s.hsize - 1 - 1 + 1).toNat = s.hsize.toNat - 1 - 1 + 1 := by
      rw [← h6]; exact bv_add_one (by omega)
    omega
  · refine hpend.nodup_iff.mpr (List.nodup_cons.mpr ⟨fun h => ?_, hnd.2.2⟩)
    have := hdr _ h
    omega
  · intro x hx
    rw [hn]
    rcases (hmem' x).mp hx with rfl | hx
    · omega
    · have := hdr x hx; omega
  · intro x hx hc
    rw [hch] at hc
    rcases (hmem' x).mp hx with rfl | hxr
    · rcases List.mem_append.mp hc with hc | hc
      · have := ha.closed _ hc; omega
      · rcases (by simpa using hc : s.ncnt.setWidth 9 = a ∨ s.ncnt.setWidth 9 = b) with h | h
        · rw [← h] at hda; omega
        · rw [← h] at hdb; omega
    · rcases List.mem_append.mp hc with hc | hc
      · exact hh.roots x ((hmem x).mpr (.inr (.inr hxr))) hc
      · rcases (by simpa using hc : x = a ∨ x = b) with rfl | rfl
        · exact hnd.1.2 hxr
        · exact hnd.2.1 hxr
  · intro x hx
    rcases (hmem' x).mp hx with rfl | hx
    · exact ⟨_, hnewTree⟩
    · rw [hsame _ x (hdr x hx)]
      exact hh.trees x ((hmem x).mpr (.inr (.inr hx)))
  · rw [(hpend.map _).sum_eq, List.map_cons, List.sum_cons]
    have : leavesAt (s.merged a b) (s.ncnt.setWidth 9) = ta.leaves + tb.leaves := by
      simp [leavesAt, hnewTree, Tree.leaves]
    rw [this, List.map_congr_left fun x hx => hleaves x (hdr x hx)]
    omega
  · have h1 := hh.room
    have h2 := hrest.length_eq
    have h3 := hpend.length_eq
    simp only [List.length_cons] at h2 h3
    rw [hn]; omega
  · rw [(hpend.map _).sum_eq, List.map_cons, List.sum_cons, hnewAt, hweight,
      List.map_congr_left fun x hx => by rw [hold x (hdr x hx)]]
    omega
  · intro e he hk
    rw [hnode] at he
    rcases List.mem_append.mp he with he | he
    · have hin : ∀ c ∈ nodeChildren e.2, c ∈ childrenOf s.node := fun c hc => List.mem_flatMap.mpr ⟨_, he, hc⟩
      rw [hold _ (ha.closed _ (hin _ (by simp [nodeChildren, hk]))), hold _ (ha.closed _ (hin _ (by simp [nodeChildren, hk])))]
      exact hh.sums e he hk
    · rw [List.mem_singleton] at he
      subst he
      simp only
      rw [hweight]
      change _ = (nodeAt (s.merged a b) a).weight.toNat + (nodeAt (s.merged a b) b).weight.toNat
      rw [hold a hda, hold b hdb]
  · exact pqAdd_wf (pqDrop_wf (pqDrop_wf hq a) b) (by rw [hidx]; exact hroom)

theorem merged_good {s : State} {a b : NodeIdx} (hs : Good s) (hv : s.heapV = true) (ham : a ∈ s.pq)
    (hbm : b ∈ s.pq) (hab : a ≠ b) (hroom : s.ncnt.toNat < nodeCap) : Good (s.merged a b) := by
  have hb := hs.live.buffers
  have hf := hs.form
  obtain ⟨h1, h2, h3⟩ := merged_inv (hs.live.arena (.inl hv)) (hs.live.heap hv) hs.form.pq ham hbm hab hroom
  refine ⟨hs.fault, ⟨hf.ibuf, hf.obuf, hf.freq, Memory.write_wf hf.node _ _, hf.code, h3⟩,
    ⟨⟨hb.params, hb.ilen, hb.ipos, hb.olen, hb.ibuf, hb.obuf⟩, hs.live.oneUse, fun hv => (hs.live.freq hv).congr rfl rfl rfl,
      fun hv => (hs.live.code hv).congr rfl rfl, fun _ => h1, fun _ => h2, fun ht => ?_⟩⟩
  exact absurd ⟨hv, ht⟩ hs.live.oneUse

theorem merge_keeps : Keeps merge := by
  intro s hs
  cases hv : s.heapV
  · unfold merge
    rw [hv]
    exact ⟨fun e h => (by cases h), fun t h => (by cases h)⟩
  · rcases merge_cases hs hv with ⟨_, hr⟩ | ⟨a, b, ham, hbm, hab, _, _, hroom, hd⟩
    · rw [hr]; exact ⟨fun e h => (by cases h), fun t h => (by cases h)⟩
    · rw [hd]
      refine ⟨fun e h => (by cases h), fun t h => ?_⟩
      cases h
      exact ⟨merged_good hs hv ham hbm hab hroom, rfl⟩

/-! ## TROOT and TBUILD -/

/-- All TROOT can answer where the invariant holds and there is a queue (42_tree_builder.md R172). -/
theorem troot_cases {s : State} (hs : Good s) (hv : s.heapV = true) :
    (s.pq = [] ∧ troot s = .raised .emptyQueue .build none) ∨
    (1 < s.pq.length ∧ troot s = .raised .sequence .build none) ∨
    (∃ x, s.pq = [x] ∧ troot s = .done { s.tookMin x with root := x, cur := x, heapV := false, treeV := true }) := by
  have hh := hs.live.heap hv
  have hsz := hh.size
  unfold troot
  rw [hv, need_true, Res.done_bind]
  rcases hq : s.pq with _ | ⟨x, _ | ⟨y, q⟩⟩
  · rw [hq] at hsz
    rw [if_pos (BitVec.eq_of_toNat_eq (by simpa using hsz))]
    exact .inl ⟨rfl, rfl⟩
  · rw [hq] at hsz
    simp only [List.length_cons, List.length_nil] at hsz
    rw [if_neg (fun h => by rw [h] at hsz; simp at hsz), if_neg (by omega)]
    rcases pqExtractMin_cases (st := .build) hh.size with ⟨he, _⟩ | ⟨z, hz, _, hd⟩
    · rw [hq] at he; cases he
    · rw [hq, List.mem_singleton] at hz
      subst hz
      rw [hd, Res.done_bind]
      exact .inr (.inr ⟨z, rfl, rfl⟩)
  · rw [hq] at hsz
    simp only [List.length_cons] at hsz
    rw [if_neg (fun h => by rw [h] at hsz; simp at hsz), if_pos (by omega)]
    exact .inr (.inl ⟨by simp, rfl⟩)

theorem troot_keeps : Keeps troot := by
  intro s hs
  cases hv : s.heapV
  · unfold troot
    rw [hv]
    exact ⟨fun e h => (by cases h), fun t h => (by cases h)⟩
  · rcases troot_cases hs hv with ⟨_, hr⟩ | ⟨_, hr⟩ | ⟨x, hx, hd⟩
    · rw [hr]; exact ⟨fun e h => (by cases h), fun t h => (by cases h)⟩
    · rw [hr]; exact ⟨fun e h => (by cases h), fun t h => (by cases h)⟩
    · rw [hd]
      refine ⟨fun e h => (by cases h), fun t h => ?_⟩
      cases h
      have hb := hs.live.buffers
      have hf := hs.form
      have hh := hs.live.heap hv
      obtain ⟨l, hl⟩ := pending_pq (s := s)
      have hmem : x ∈ pending s := hl.mem_iff.mpr (List.mem_append_left _ (by simp [hx]))
      refine ⟨⟨hs.fault, ⟨hf.ibuf, hf.obuf, hf.freq, hf.node, hf.code, pqDrop_wf hf.pq x⟩,
        ⟨⟨hb.params, hb.ilen, hb.ipos, hb.olen, hb.ibuf, hb.obuf⟩, by simp, fun hv => (hs.live.freq hv).congr rfl rfl rfl,
          fun hv => (hs.live.code hv).congr rfl rfl, fun _ => (hs.live.arena (.inl hv)).congr rfl rfl,
          fun h => (by cases h), fun _ => ⟨hh.defined x hmem, hh.roots x hmem, ?_, .inl rfl⟩⟩⟩, rfl⟩
      obtain ⟨t, ht⟩ := hh.trees x hmem
      refine ⟨t, ?_, ?_⟩
      · have e := treeAt_same (s := s) (s' := { s.tookMin x with root := x, cur := x, heapV := false, treeV := true })
          rfl rfl treeLevels x
        unfold rootTree
        exact e.trans ht
      · have h1 := hh.leaves
        rw [(hl.map _).sum_eq, hx] at h1
        simp only [List.map_append, List.map_cons, List.sum_append, List.sum_cons] at h1
        have h2 : leavesAt s x = t.leaves := by simp [leavesAt, ht]
        omega

theorem mergeLoop_keeps (fuel : Nat) : Keeps (mergeLoop fuel) := by
  induction fuel with
  | zero =>
    intro s hs
    refine ⟨fun e h => (by cases h), fun t h => ?_⟩
    cases h
    exact ⟨hs, rfl⟩
  | succ fuel ih =>
    intro s hs
    unfold mergeLoop
    split
    · exact (merge_keeps.bind ih) s hs
    · refine ⟨fun e h => (by cases h), fun t h => ?_⟩
      cases h
      exact ⟨hs, rfl⟩

theorem tbuild_keeps : Keeps tbuild := by
  refine Keeps.need fun s hs _ => ?_
  split
  · exact ⟨fun e h => (by cases h), fun t h => (by cases h)⟩
  · have hloop : Keeps fun s => (mergeLoop s.hsize.toNat s).bind troot := fun s hs =>
      ((mergeLoop_keeps s.hsize.toNat).bind troot_keeps) s hs
    exact (pqbuild_keeps.bind hloop) s hs

end Sys2Proof.Machine
end

