-- ==== Sys2Proof/Laws/InvCoder.lean ====
section
/-!
SUPPORT. The code generator, the serializer and deserializer, the encoder and the decoder keep the invariant and never
stop: CGEN, TSER, TDES, ENC, DLMW, COMP, DLMS, DSTEP, DEND, DEC, DECOMP.
-/

namespace Sys2Proof.Machine

open Sys2Proof.Config

/-! ## CGEN -/

theorem natOfBits_lt (p : List Bool) : natOfBits p < 2 ^ p.length := by
  induction p with
  | nil => simp [natOfBits]
  | cons c p ih =>
    have : c.toNat ≤ 1 := Bool.toNat_le c
    simp only [natOfBits, List.length_cons, Nat.pow_succ]; omega

theorem codeOfPath_len {p : List Bool} (h : p.length ≤ maxLen) : (codeOfPath p).len.toNat = p.length := by
  simp only [maxLen] at h
  simp only [codeOfPath, BitVec.toNat_ofNat]; omega

theorem codeOfPath_bits {p : List Bool} (h : p.length ≤ maxLen) : (codeOfPath p).bits.toNat = natOfBits p := by
  simp only [codeOfPath, BitVec.toNat_ofNat]
  exact Nat.mod_eq_of_lt (Nat.lt_of_lt_of_le (natOfBits_lt p) (Nat.pow_le_pow_right (by omega) h))

theorem codeOfPath_ok {p : List Bool} (h1 : 1 ≤ p.length) (h2 : p.length ≤ maxLen) : codeRecOk (codeOfPath p) := by
  unfold codeRecOk
  rw [if_pos (show (codeOfPath p).valid = true from rfl), codeOfPath_len h2, codeOfPath_bits h2]
  exact ⟨h1, h2, natOfBits_lt p⟩

theorem clearedCodes_defined : Defined clearedCodes nsym := by
  have := Memory.ofList_defined (List.replicate nsym noCode)
  rwa [List.length_replicate] at this

theorem noCode_ok : codeRecOk noCode := by simp [codeRecOk, noCode]

/-- Writing codes over a full table keeps it full, with every record in order. -/
theorem codes_fold {es : List (Byte × List Bool)} {m : Memory CodeRec} (hd : Defined m nsym)
    (hm : ∀ y < nsym, ∃ c, Memory.read m y = some c ∧ codeRecOk c) (he : ∀ e ∈ es, 1 ≤ e.2.length ∧ e.2.length ≤ maxLen) :
    Defined (es.foldl (fun m e => Memory.write m e.1.toNat (codeOfPath e.2)) m) nsym ∧
      ∀ y < nsym, ∃ c, Memory.read (es.foldl (fun m e => Memory.write m e.1.toNat (codeOfPath e.2)) m) y = some c ∧
        codeRecOk c := by
  induction es generalizing m with
  | nil => exact ⟨hd, hm⟩
  | cons e es ih =>
    rw [List.foldl_cons]
    have hy : e.1.toNat < nsym := e.1.isLt
    refine ih (hd.write_lt _ hy) (fun y hy' => ?_) fun e' he' => he e' (by simp [he'])
    by_cases h : y = e.1.toNat
    · subst h
      exact ⟨_, Memory.read_write_same _ _ _, codeOfPath_ok (he e (by simp)).1 (he e (by simp)).2⟩
    · rw [Memory.read_write_other _ _ h]; exact hm y hy'

/-- The code table of a tree of at most 255 levels is as R41 says. -/
theorem codeTable_inv {t : Tree} (h : t.depth ≤ maxLen) : Defined (codeTable t) nsym ∧
    ∀ y < nsym, ∃ c, Memory.read (codeTable t) y = some c ∧ codeRecOk c := by
  refine codes_fold clearedCodes_defined (fun y hy => ?_) fun e he => ?_
  · refine ⟨noCode, ?_, noCode_ok⟩
    simp [clearedCodes, hy]
  · have := t.codes_length he
    simp only [maxLen] at *; omega

theorem cgen_keeps : Keeps cgen := by
  refine Keeps.need fun s hs hv => ?_
  obtain ⟨tr, ht, _⟩ := (hs.live.tree hv).tree
  rw [ht, Res.done_bind]
  refine ⟨fun e h => (by cases h), fun t h => ?_⟩
  cases h
  have hb := hs.live.buffers
  have hf := hs.form
  have hd := treeAt_depth ht
  obtain ⟨h1, h2⟩ := codeTable_inv (t := tr) (by simp only [treeLevels, maxLen] at *; omega)
  refine ⟨⟨hs.fault, ⟨hf.ibuf, hf.obuf, hf.freq, hf.node, h1.wf, hf.pq⟩,
    ⟨⟨hb.params, hb.ilen, hb.ipos, hb.olen, hb.ibuf, hb.obuf⟩, hs.live.oneUse, fun hv => (hs.live.freq hv).congr rfl rfl rfl,
      fun _ => ⟨h1, fun y => ?_⟩, fun hv => (hs.live.arena hv).congr rfl rfl,
      fun hv => (hs.live.heap hv).sub rfl rfl rfl (hs.live.heap hv).size ⟨[], by simp [pending]⟩,
      fun hv => (hs.live.tree hv).congr rfl rfl rfl rfl (hs.live.tree hv).cur⟩⟩, rfl⟩
  obtain ⟨c, hc, hok⟩ := h2 y.toNat y.isLt
  simp only [codeAt, hc]
  exact hok

/-! ## Appending -/

theorem Good.pushAll {s : State} {bs : List Byte} (hs : Good s) (h : s.olen.toNat + bs.length ≤ s.params.outCap) :
    Good (s.pushAll bs) := by
  have hb := hs.live.buffers
  have hp := params_bounds hb.params
  have hfr := State.pushAll_frame bs s
  have e1 : (s.pushAll bs).params = s.params := by rw [hfr]
  have e2 : (s.pushAll bs).ilen = s.ilen := by rw [hfr]
  have e3 : (s.pushAll bs).ipos = s.ipos := by rw [hfr]
  have e4 : (s.pushAll bs).ibuf = s.ibuf := by rw [hfr]
  refine hs.buffers ?_ ⟨by rw [e1]; exact hb.params, by rw [e1, e2]; exact hb.ilen, by rw [e2, e3]; exact hb.ipos, ?_,
    by rw [e2, e4]; exact hb.ibuf, (State.pushAll_obuf hb.obuf (by omega)).1⟩
  · conv_lhs => rw [hfr]
    rw [e2, e3, e4]
    rw [show (s.pushAll bs).cix = s.cix by rw [hfr]]
  · rw [e1, State.pushAll_olen_toNat (by omega)]; exact h

/-- Appending a byte string from a good state: it fits and the state stays good, or `IOError` at `OUT_CAP`. -/
theorem outAppendAll_good {s : State} {st : Stage} {bs : List Byte} (hs : Good s) :
    (outAppendAll st bs s = .done (s.pushAll bs) ∧ s.olen.toNat + bs.length ≤ s.params.outCap ∧ Good (s.pushAll bs)) ∨
    outAppendAll st bs s = .raised .io st (some (BitVec.ofNat 32 s.params.outCap)) := by
  have hp := params_bounds hs.live.buffers.params
  rcases outAppendAll_cases (st := st) (bs := bs) hp.2.2.2.1 hs.live.buffers.olen with ⟨h1, h2⟩ | ⟨_, h2⟩
  · exact .inl ⟨h2, h1, hs.pushAll h1⟩
  · exact .inr h2

theorem pushAll_params (bs : List Byte) (s : State) : (s.pushAll bs).params = s.params := by
  rw [State.pushAll_frame bs s]

theorem outAppendAll_keeps (st : Stage) (bs : State → List Byte) : Keeps fun s => outAppendAll st (bs s) s := by
  intro s hs
  show (∀ e, outAppendAll st (bs s) s ≠ .stopped e) ∧ ∀ t, outAppendAll st (bs s) s = .done t → Good t ∧ t.params = s.params
  rcases outAppendAll_good (st := st) (bs := bs s) hs with ⟨h, _, hg⟩ | h
  · refine ⟨fun e he => (by rw [h] at he; cases he), fun t ht => ?_⟩
    rw [h] at ht
    cases ht
    exact ⟨hg, pushAll_params _ _⟩
  · exact ⟨fun e he => (by rw [h] at he; cases he), fun t ht => (by rw [h] at ht; cases ht)⟩

theorem tser_keeps : Keeps tser := by
  refine Keeps.need fun s hs hv => ?_
  obtain ⟨tr, ht, _⟩ := (hs.live.tree hv).tree
  rw [ht, Res.done_bind]
  exact outAppendAll_keeps .ser (fun _ => tr.ser) s hs

theorem dlmw_keeps : Keeps dlmw := outAppendAll_keeps .delim fun s => s.params.delim

/-! ## TDES -/

theorem children_layout (t : Tree) (n : Nat) :
    (childrenOf (t.layout n)).Perm ((List.range' (n + 1) (t.size - 1)).map (BitVec.ofNat 9)) := by
  induction t generalizing n with
  | leaf y => simp [Tree.layout, Tree.size, childrenOf, nodeChildren, desLeaf]
  | node l r ihl ihr =>
    have hl : 1 ≤ l.size := by cases l <;> simp only [Tree.size] <;> omega
    have hr : 1 ≤ r.size := by cases r <;> simp only [Tree.size] <;> omega
    have e : childrenOf ((Tree.node l r).layout n) =
        BitVec.ofNat 9 (n + 1) :: BitVec.ofNat 9 (n + 1 + l.size) ::
          (childrenOf (l.layout (n + 1)) ++ childrenOf (r.layout (n + 1 + l.size))) := by
      simp [Tree.layout, childrenOf, nodeChildren, desInternal]
    rw [e]
    have e2 : List.range' (n + 1) ((Tree.node l r).size - 1) =
        (n + 1) :: (List.range' (n + 1 + 1) (l.size - 1) ++ (n + 1 + l.size) :: List.range' (n + 1 + l.size + 1) (r.size - 1)) := by
      rw [← List.range'_succ, show r.size - 1 + 1 = r.size by omega, ← List.cons_append, ← List.range'_succ,
        show l.size - 1 + 1 = l.size by omega, List.range'_append_1]
      simp only [Tree.size]
      congr 1; omega
    rw [e2, List.map_cons, List.map_append, List.map_cons]
    refine List.Perm.cons _ ?_
    have := (ihl (n + 1)).append (ihr (n + 1 + l.size))
    refine (this.cons _).trans ?_
    exact List.perm_middle.symm

theorem layout_closed {t : Tree} {n : Nat} (hn : n + t.size ≤ 511) :
    (∀ c ∈ childrenOf (t.layout n), n < c.toNat ∧ c.toNat < n + t.size) ∧ (childrenOf (t.layout n)).Nodup := by
  have hp := children_layout t n
  have hone : 1 ≤ t.size := by cases t <;> simp only [Tree.size] <;> omega
  have hidx : ∀ k, k ∈ List.range' (n + 1) (t.size - 1) → (BitVec.ofNat 9 k).toNat = k ∧ n < k ∧ k < n + t.size := by
    intro k hk
    have := List.mem_range'_1.mp hk
    rw [BitVec.toNat_ofNat]
    omega
  refine ⟨fun c hc => ?_, hp.nodup_iff.mpr ?_⟩
  · obtain ⟨k, hk, rfl⟩ := List.mem_map.mp (hp.mem_iff.mp hc)
    obtain ⟨h1, h2, h3⟩ := hidx k hk
    omega
  · refine List.Nodup.map_on (fun a ha b hb e => ?_) List.nodup_range'
    have := congrArg BitVec.toNat e
    rwa [(hidx a ha).1, (hidx b hb).1] at this

/-- The state TDES makes of a tree's serialization (44_tree_serdes.md R203). -/
def State.deserialized (t : Tree) (s : State) : State :=
  { s with
    ipos := s.ipos + BitVec.ofNat 32 t.ser.length
    node := t.layout 0
    ncnt := BitVec.ofNat 10 t.size
    root := 0, cur := 0
    treeV := true, heapV := false, xrV := false }

/-- All TDES can answer (R203, R204): the input continues with a tree that fits the arena, or `MalformedTreeError`. -/
theorem tdes_cases {s : State} (h : s.ilen.toNat ≤ s.params.inCap) :
    (∃ t tail, (inputBytes s).drop s.ipos.toNat = t.ser ++ tail ∧ t.size ≤ nodeCap ∧
      tdes s = .done (s.deserialized t)) ∨
    (∃ j, j ≤ ((inputBytes s).drop s.ipos.toNat).length ∧
      tdes s = .raised .malformedTree .des (some (s.ipos + BitVec.ofNat 32 j))) := by
  unfold tdes
  rw [restBytes_done h, Res.done_bind]
  cases hp : parseNode parseLevels
      { rest := (inputBytes s).drop s.ipos.toNat, ipos := s.ipos, n := 0, node := [] } with
  | done r =>
    obtain ⟨i, ⟨rest2, ipos2, n2, node2⟩⟩ := r
    obtain ⟨t, h1, h2, h3⟩ := parseNode_eq_done hp Defined.nil (Nat.zero_le _)
    have hfull := parseNode_ser t h1 h2 h3 Defined.nil
    rw [hp] at hfull
    cases hfull
    refine .inl ⟨t, rest2, h1, by simpa using h3, ?_⟩
    simp [State.deserialized]
  | raised k st off =>
    obtain ⟨rfl, rfl, j, hj, rfl⟩ := parseNode_raised hp Defined.nil (Nat.zero_le _)
    exact .inr ⟨j, hj, rfl⟩
  | stopped e =>
    exact absurd hp (parseNode_ne_stopped (p := { rest := (inputBytes s).drop s.ipos.toNat, ipos := s.ipos, n := 0, node := [] })
      Defined.nil (Nat.zero_le _) (by simp [nodeCap, parseLevels]))

/-- TDES on the serialization of a tree that fits the arena. -/
theorem tdes_of_ser {s : State} {t : Tree} {tail : List Byte} (h : s.ilen.toNat ≤ s.params.inCap)
    (hr : (inputBytes s).drop s.ipos.toNat = t.ser ++ tail) (ht : t.size ≤ nodeCap) :
    tdes s = .done (s.deserialized t) := by
  unfold tdes
  rw [restBytes_done h, Res.done_bind]
  have hd : t.depth < parseLevels := by
    have := t.depth_lt_leaves
    have := t.size_eq
    simp only [nodeCap, parseLevels] at *; omega
  rw [parseNode_ser t (p := { rest := (inputBytes s).drop s.ipos.toNat, ipos := s.ipos, n := 0, node := [] }) hr hd
    (by simpa using ht) Defined.nil]
  simp [State.deserialized]

/-- The deserialized arena meets the invariant (R39). -/
theorem deserialized_inv {s : State} {t : Tree} (ht : t.size ≤ nodeCap) :
    ArenaInv (s.deserialized t) ∧ TreeInv (s.deserialized t) ∧ rootTree (s.deserialized t) = .done t := by
  have hone : 1 ≤ t.size := by cases t <;> simp only [Tree.size] <;> omega
  have hc := layout_closed (t := t) (n := 0) (by simp only [nodeCap] at ht; omega)
  have hn : (s.deserialized t).ncnt.toNat = t.size := by
    simp only [State.deserialized, BitVec.toNat_ofNat, nodeCap] at *; omega
  have hd : Defined (t.layout 0) t.size := by
    have := (Defined.nil (α := NodeRec)).append_layout t
    simpa using this
  have hleaf := t.size_eq
  have hdep := t.depth_lt_leaves
  have htree : rootTree (s.deserialized t) = .done t := by
    refine treeAt_layout t (n := 0) (fun e he => ?_) (by simpa using ht) ?_
    · exact Memory.read_of_mem hd.wf he
    · simp only [treeLevels, nodeCap] at *; omega
  refine ⟨⟨by rw [hn]; exact hd, by rw [hn]; exact ht, ?_, hc.2⟩, ⟨?_, ?_, ⟨t, htree, ?_⟩, .inl rfl⟩, htree⟩
  · rw [hn]
    intro c hcm
    have := (hc.1 c hcm).2
    omega
  · rw [hn]; exact hone
  · intro hcm
    have := (hc.1 _ hcm).1
    simp [State.deserialized] at this
  · simp only [nodeCap] at ht; omega

theorem tdes_keeps : Keeps tdes := by
  intro s hs
  have hb := hs.live.buffers
  have hf := hs.form
  have hp := params_bounds hb.params
  rcases tdes_cases hb.ilen with ⟨t, tail, hr, ht, hd⟩ | ⟨j, _, hd⟩
  · rw [hd]
    refine ⟨fun e h => (by cases h), fun u h => ?_⟩
    cases h
    obtain ⟨h1, h2, _⟩ := deserialized_inv (s := s) ht
    have hlen := congrArg List.length hr
    simp only [List.length_drop, inputBytes_length, List.length_append] at hlen
    have hi := hb.ilen
    have hip := hb.ipos
    have hpos : (s.deserialized t).ipos.toNat = s.ipos.toNat + t.ser.length := by
      simp only [State.deserialized, BitVec.toNat_add, BitVec.toNat_ofNat]; omega
    exact ⟨⟨hs.fault, ⟨hf.ibuf, hf.obuf, hf.freq, h1.node.wf, hf.code, hf.pq⟩,
      ⟨⟨hb.params, hb.ilen, by rw [hpos]; simp only [State.deserialized]; omega, hb.olen, hb.ibuf, hb.obuf⟩,
        by simp [State.deserialized], fun hv => (hs.live.freq hv).congr rfl rfl rfl,
        fun hv => (hs.live.code hv).congr rfl rfl, fun _ => h1, fun h => (by simp [State.deserialized] at h),
        fun _ => h2⟩⟩, rfl⟩
  · rw [hd]; exact ⟨fun e h => (by cases h), fun t h => (by cases h)⟩

/-! ## ENC -/

theorem encByte_cases {s : State} {i : Nat} {y : Byte} (hs : Good s) (hc : s.codeV = true) :
    ((codeAt s y).valid = false ∧ encByte i y s = .raised .unknownSymbol .enc (some (BitVec.ofNat 32 i))) ∨
    ((codeAt s y).valid = true ∧ encByte i y s = outAppendAll .enc ((pathOfCode (codeAt s y)).map symbolOfBit) s) := by
  have hok := (hs.live.code hc).codes y
  unfold encByte
  cases hv : (codeAt s y).valid
  · exact .inl ⟨rfl, by simp [hv]⟩
  · refine .inr ⟨rfl, ?_⟩
    simp only [codeRecOk, hv, if_true] at hok
    simp only [hv, reduceCtorEq, if_false]
    rw [if_neg (by omega)]

theorem encBytes_keeps (i : Nat) (ys : List Byte) (s : State) (hs : Good s) (hc : s.codeV = true) :
    (∀ e, encBytes i ys s ≠ .stopped e) ∧
      ∀ t, encBytes i ys s = .done t → Good t ∧ t.params = s.params := by
  induction ys generalizing i s with
  | nil =>
    refine ⟨fun e h => (by cases h), fun t h => ?_⟩
    cases h
    exact ⟨hs, rfl⟩
  | cons y ys ih =>
    simp only [encBytes]
    rcases encByte_cases (i := i) (y := y) hs hc with ⟨_, h⟩ | ⟨_, h⟩
    · rw [h]; exact ⟨fun e h => (by cases h), fun t h => (by cases h)⟩
    · rw [h]
      rcases outAppendAll_good (st := .enc) (bs := (pathOfCode (codeAt s y)).map symbolOfBit) hs with ⟨h, _, hg⟩ | h
      · rw [h, Res.done_bind]
        have := ih (i + 1) _ hg (by rw [State.pushAll_frame]; exact hc)
        rwa [pushAll_params] at this
      · rw [h]; exact ⟨fun e h => (by cases h), fun t h => (by cases h)⟩

theorem enc_keeps : Keeps enc := by
  refine Keeps.need fun s hs hv => ?_
  rw [scanInput_done hs.live.buffers.ilen, Res.done_bind]
  exact encBytes_keeps 0 _ s hs hv

theorem clearOut_good {s : State} (hs : Good s) : Good s.clearOut :=
  ((oclr_keeps s hs).2 _ rfl).1

theorem comp_keeps : Keeps comp := by
  intro s hs
  exact (fscan_keeps.bind (tbuild_keeps.bind (cgen_keeps.bind (tser_keeps.bind (dlmw_keeps.bind enc_keeps)))))
    s.clearOut (clearOut_good hs)

/-! ## DLMS -/

/-- The delimiter search finds the first occurrence (46_decoder.md R240). -/
theorem findDelim_some {d bs : List Byte} {p q : Nat} (h : findDelim d p bs = some q) :
    ∃ k, q = p + k ∧ k + d.length ≤ bs.length ∧ d.isPrefixOf (bs.drop k) = true ∧
      ∀ j < k, d.isPrefixOf (bs.drop j) = false := by
  induction bs generalizing p with
  | nil =>
    simp only [findDelim] at h
    split at h
    · rename_i hp
      cases h
      refine ⟨0, rfl, ?_, by simpa using hp, by omega⟩
      have := (List.isPrefixOf_iff_prefix.mp hp).length_le
      simpa using this
    · cases h
  | cons b bs ih =>
    simp only [findDelim] at h
    split at h
    · rename_i hp
      cases h
      refine ⟨0, rfl, ?_, by simpa using hp, by omega⟩
      have := (List.isPrefixOf_iff_prefix.mp hp).length_le
      simpa using this
    · rename_i hp
      obtain ⟨k, rfl, h1, h2, h3⟩ := ih h
      refine ⟨k + 1, by omega, by rw [List.length_cons]; omega, by simpa using h2, fun j hj => ?_⟩
      cases j with
      | zero => exact eq_false_of_ne_true hp
      | succ j => simpa using h3 j (by omega)

theorem findDelim_none {d bs : List Byte} {p : Nat} (h : findDelim d p bs = none) :
    ∀ j, d.isPrefixOf (bs.drop j) = false := by
  induction bs generalizing p with
  | nil =>
    simp only [findDelim] at h
    split at h
    · cases h
    · rename_i hp; intro j; rw [List.drop_nil]; exact eq_false_of_ne_true hp
  | cons b bs ih =>
    simp only [findDelim] at h
    split at h
    · cases h
    · rename_i hp
      intro j
      cases j with
      | zero => exact eq_false_of_ne_true hp
      | succ j => simpa using ih h j

theorem dlms_keeps : Keeps dlms := by
  intro s hs
  have hb := hs.live.buffers
  have hp := params_bounds hb.params
  unfold dlms
  rw [restBytes_done hb.ilen, Res.done_bind]
  cases hf : findDelim s.params.delim s.ipos.toNat ((inputBytes s).drop s.ipos.toNat) with
  | none => exact ⟨fun e h => (by cases h), fun t h => (by cases h)⟩
  | some q =>
    refine ⟨fun e h => (by cases h), fun t h => ?_⟩
    cases h
    obtain ⟨k, rfl, h1, _, _⟩ := findDelim_some hf
    rw [List.length_drop, inputBytes_length] at h1
    have hi := hb.ilen
    have hip := hb.ipos
    have : (BitVec.ofNat 32 (s.ipos.toNat + k + s.params.delim.length)).toNat =
        s.ipos.toNat + k + s.params.delim.length := by
      rw [BitVec.toNat_ofNat]; omega
    exact ⟨hs.buffers rfl ⟨hb.params, hb.ilen, by rw [this]; simp only; omega, hb.olen, hb.ibuf, hb.obuf⟩, rfl⟩

/-! ## The tree walk -/

/-- The cursor may move to `ROOT` or to a defined internal node. -/
theorem Good.cursor {s : State} (hs : Good s) {c : NodeIdx}
    (hc : s.treeV = true → c = s.root ∨ (c.toNat < s.ncnt.toNat ∧ (nodeAt s c).kind = .internal)) : Good { s with cur := c } := by
  have hb := hs.live.buffers
  have hf := hs.form
  exact ⟨hs.fault, ⟨hf.ibuf, hf.obuf, hf.freq, hf.node, hf.code, hf.pq⟩,
    ⟨⟨hb.params, hb.ilen, hb.ipos, hb.olen, hb.ibuf, hb.obuf⟩, hs.live.oneUse, fun hv => (hs.live.freq hv).congr rfl rfl rfl,
      fun hv => (hs.live.code hv).congr rfl rfl, fun hv => (hs.live.arena hv).congr rfl rfl,
      fun hv => (hs.live.heap hv).sub rfl rfl rfl (hs.live.heap hv).size ⟨[], by simp [pending]⟩,
      fun hv => (hs.live.tree hv).congr rfl rfl rfl rfl (hc hv)⟩⟩

theorem children_lt {s : State} (ha : ArenaInv s) {i : NodeIdx} (hi : i.toNat < s.ncnt.toNat)
    (hk : (nodeAt s i).kind = .internal) (c : Bool) : (childOf (nodeAt s i) c).toNat < s.ncnt.toNat := by
  obtain ⟨n, hr⟩ := ha.node.read hi
  have he : nodeAt s i = n := by simp [nodeAt, hr]
  rw [he] at hk ⊢
  refine ha.closed _ (List.mem_flatMap.mpr ⟨_, Memory.read_mem hr, ?_⟩)
  cases c <;> simp [nodeChildren, hk, childOf]

theorem outAppend_good {s : State} {st : Stage} {b : Byte} (hs : Good s) :
    (outAppend st b s = .done (s.pushOut b) ∧ Good (s.pushOut b)) ∨ outAppend st b s = .raised .io st (some s.olen) := by
  rcases outAppend_cases (st := st) (b := b) hs.live.buffers.olen with ⟨h1, h2⟩ | ⟨_, h2⟩
  · exact .inl ⟨h2, by simpa using hs.pushAll (bs := [b]) (by simpa using h1)⟩
  · exact .inr h2

/-- One bit of the walk keeps the invariant, moves no input cursor, and never stops (46_decoder.md R244). -/
theorem decStep_good {s : State} {b : Byte} {off : Option (BitVec 32)} (hs : Good s) (hv : s.treeV = true) :
    (∀ e, decStep b off s ≠ .stopped e) ∧
      ∀ t, decStep b off s = .done t → Good t ∧ t = { s with obuf := t.obuf, olen := t.olen, cur := t.cur } := by
  have ha := hs.live.arena (.inr hv)
  have ht := hs.live.tree hv
  unfold decStep
  cases hbit : bitOfSymbol b with
  | none => exact ⟨fun e h => (by cases h), fun t h => (by cases h)⟩
  | some c =>
    simp only
    rw [readNode_done (Nat.lt_of_lt_of_le ht.root ha.ncnt), Res.done_bind]
    cases hk : (nodeAt s s.root).kind with
    | leaf =>
      simp only
      cases c
      · rcases outAppend_good (st := .dec) (b := (nodeAt s s.root).sym) hs with ⟨h, hg⟩ | h
        · simp only [Bool.false_eq_true, if_false]
          rw [h]
          refine ⟨fun e h => (by cases h), fun t h => ?_⟩
          cases h
          exact ⟨hg, rfl⟩
        · simp only [Bool.false_eq_true, if_false]
          rw [h]; exact ⟨fun e h => (by cases h), fun t h => (by cases h)⟩
      · exact ⟨fun e h => (by cases h), fun t h => (by cases h)⟩
    | internal =>
      simp only
      have hcur : s.cur.toNat < s.ncnt.toNat ∧ (nodeAt s s.cur).kind = .internal := by
        rcases ht.cur with e | h
        · rw [e]; exact ⟨ht.root, hk⟩
        · exact h
      have hch := children_lt ha hcur.1 hcur.2 c
      rw [readNode_done (Nat.lt_of_lt_of_le hcur.1 ha.ncnt), Res.done_bind,
        readNode_done (Nat.lt_of_lt_of_le hch ha.ncnt), Res.done_bind]
      cases hm : (nodeAt s (childOf (nodeAt s s.cur) c)).kind with
      | leaf =>
        simp only
        rcases outAppend_good (st := .dec) (b := (nodeAt s (childOf (nodeAt s s.cur) c)).sym) hs with ⟨h, hg⟩ | h
        · rw [h, Res.done_bind]
          refine ⟨fun e h => (by cases h), fun t h => ?_⟩
          cases h
          exact ⟨hg.cursor fun _ => .inl rfl, rfl⟩
        · rw [h]; exact ⟨fun e h => (by cases h), fun t h => (by cases h)⟩
      | internal =>
        refine ⟨fun e h => (by cases h), fun t h => ?_⟩
        cases h
        exact ⟨hs.cursor fun _ => .inr ⟨hch, hm⟩, rfl⟩

theorem dstep_keeps (imm : Byte) : Keeps (dstep imm) := by
  refine Keeps.need fun s hs hv => ?_
  obtain ⟨h1, h2⟩ := decStep_good (b := imm) (off := none) hs hv
  refine ⟨h1, fun t ht => ?_⟩
  obtain ⟨hg, hfr⟩ := h2 t ht
  exact ⟨hg, by rw [hfr]⟩

theorem atRoot_keeps (off : State → Option (BitVec 32)) : Keeps fun s => atRoot (off s) s := by
  intro s hs
  simp only [atRoot]
  split
  · refine ⟨fun e h => (by cases h), fun t h => ?_⟩
    cases h
    exact ⟨hs, rfl⟩
  · exact ⟨fun e h => (by cases h), fun t h => (by cases h)⟩

theorem dend_keeps : Keeps dend := Keeps.need fun s hs _ => atRoot_keeps (fun _ => none) s hs

/-- The loop of DEC (R248). -/
theorem decBytes_good {bs : List Byte} {s : State} (hs : Good s) (hv : s.treeV = true)
    (hlen : s.ipos.toNat + bs.length = s.ilen.toNat) :
    (∀ e, decBytes bs s ≠ .stopped e) ∧
      ∀ t, decBytes bs s = .done t → Good t ∧ t.ipos = t.ilen ∧
        t = { s with obuf := t.obuf, olen := t.olen, cur := t.cur, ipos := t.ipos } := by
  induction bs generalizing s with
  | nil =>
    refine ⟨fun e h => (by cases h), fun t h => ?_⟩
    cases h
    exact ⟨hs, BitVec.eq_of_toNat_eq (by simpa using hlen), rfl⟩
  | cons b bs ih =>
    simp only [decBytes]
    rw [List.length_cons] at hlen
    obtain ⟨h1, h2⟩ := decStep_good (b := b) (off := some s.ipos) hs hv
    cases hd : decStep b (some s.ipos) s with
    | raised k st off => exact ⟨fun e h => (by cases h), fun t h => (by cases h)⟩
    | stopped e => exact absurd hd (h1 e)
    | done u =>
      rw [Res.done_bind]
      obtain ⟨hg, hfr⟩ := h2 u hd
      have e1 : u.ipos = s.ipos := by rw [hfr]
      have e2 : u.ilen = s.ilen := by rw [hfr]
      have e3 : u.treeV = s.treeV := by rw [hfr]
      have hlt := s.ilen.isLt
      have hip : (u.ipos + 1).toNat = s.ipos.toNat + 1 := by rw [e1]; exact bv_add_one (by omega)
      have hb := hg.live.buffers
      have hg' : Good { u with ipos := u.ipos + 1 } :=
        hg.buffers rfl ⟨hb.params, hb.ilen, by simp only; rw [hip, e2]; omega, hb.olen, hb.ibuf, hb.obuf⟩
      have := ih hg' (by simp only; rw [e3]; exact hv) (by simp only; rw [hip, e2]; omega)
      refine ⟨this.1, fun t ht => ?_⟩
      obtain ⟨hgt, hpos, hft⟩ := this.2 t ht
      refine ⟨hgt, hpos, ?_⟩
      rw [hft, hfr]

theorem dec_keeps : Keeps dec := by
  refine Keeps.need fun s hs hv => ?_
  rw [restBytes_done hs.live.buffers.ilen, Res.done_bind]
  have hip := hs.live.buffers.ipos
  obtain ⟨h1, h2⟩ := decBytes_good (bs := (inputBytes s).drop s.ipos.toNat) hs hv
    (by rw [List.length_drop, inputBytes_length]; omega)
  refine ⟨fun e h => ?_, fun t h => ?_⟩
  · rcases Res.bind_eq_stopped.mp h with h | ⟨u, hu, h⟩
    · exact h1 e h
    · exact (atRoot_keeps (fun t => some t.ilen) u (h2 u hu).1).1 e h
  · obtain ⟨u, hu, h⟩ := Res.bind_eq_done.mp h
    obtain ⟨hg, _, hfr⟩ := h2 u hu
    have := (atRoot_keeps (fun t => some t.ilen) u hg).2 t h
    exact ⟨this.1, this.2.trans (by rw [hfr])⟩

theorem decomp_keeps : Keeps decomp := by
  intro s hs
  have h1 := clearOut_good hs
  have h2 := ((irew_keeps s.clearOut h1).2 _ rfl).1
  exact (tdes_keeps.bind (dlms_keeps.bind dec_keeps)) { s.clearOut with ipos := 0 } h2

/-- Every command's pseudocode keeps the invariant and never stops. -/
theorem body_keeps (i : Instr) : Keeps (body i) := by
  cases i with
  | ipush imm => exact ipush_keeps imm
  | iclr => exact iclr_keeps
  | irew => exact irew_keeps
  | oclr => exact oclr_keeps
  | omov => exact omov_keeps
  | fscan => exact fscan_keeps
  | pqbuild => exact pqbuild_keeps
  | pqins => exact pqins_keeps
  | pqext => exact pqext_keeps
  | merge => exact merge_keeps
  | troot => exact troot_keeps
  | tbuild => exact tbuild_keeps
  | cgen => exact cgen_keeps
  | tser => exact tser_keeps
  | tdes => exact tdes_keeps
  | enc => exact enc_keeps
  | dlmw => exact dlmw_keeps
  | comp => exact comp_keeps
  | dlms => exact dlms_keeps
  | dstep imm => exact dstep_keeps imm
  | dend => exact dend_keeps
  | dec => exact dec_keeps
  | decomp => exact decomp_keeps

end Sys2Proof.Machine
end

