-- ==== Sys2Proof/Laws/Frame.lean ====
section
/-!
SUPPORT. The frame of every command's pseudocode, in any state: when it completes, the state after is the state before with
only the named fields changed. And that no pseudocode reads `CIX` (10_state.md R21).
-/

namespace Sys2Proof.Machine

open Sys2Proof.Config

/-! ## Frames -/

theorem ipush_frame {imm : Byte} {s t : State} (h : ipush imm s = .done t) :
    t = { s with ibuf := t.ibuf, ilen := t.ilen } := by
  unfold ipush at h
  split at h
  · cases h
  · split at h
    · cases h
    · cases h; rfl

theorem omov_frame {s t : State} (h : omov s = .done t) :
    t = { s with ibuf := t.ibuf, ilen := t.ilen, ipos := t.ipos, obuf := t.obuf, olen := t.olen } := by
  unfold omov at h
  split at h
  · cases h
  · obtain ⟨bs, _, h⟩ := Res.bind_eq_done.mp h
    cases h; rfl

theorem fscan_frame {s t : State} (h : fscan s = .done t) :
    t = { s with freq := t.freq, dsym := t.dsym, freqV := true } := by
  unfold fscan at h
  obtain ⟨bs, _, h⟩ := Res.bind_eq_done.mp h
  cases h; rfl

/-- A step guarded by a flag completes only as its rest does. -/
theorem need_bind_done {ok : Bool} {st : Stage} {s t : State} {f : State → Res State}
    (h : (need ok st s).bind f = .done t) : ok = true ∧ f s = .done t := by
  obtain ⟨u, hu, h⟩ := Res.bind_eq_done.mp h
  obtain ⟨hok, hus⟩ := need_eq_done.mp hu
  exact ⟨hok, hus ▸ h⟩

theorem pqbuild_frame {s t : State} (h : pqbuild s = .done t) :
    t = { s with node := t.node, ncnt := t.ncnt, pq := t.pq, hsize := t.hsize, heapV := true, treeV := false, xrV := false } := by
  obtain ⟨_, h⟩ := need_bind_done h
  cases h; rfl

theorem pqInsert_frame {x : NodeIdx} {s t : State} (h : pqInsert x s = .done t) :
    t = { s with pq := t.pq, hsize := t.hsize } := by
  unfold pqInsert at h
  split at h
  · cases h; rfl
  · cases h

theorem pqExtractMin_frame {st : Stage} {s t : State} {x : NodeIdx} (h : pqExtractMin st s = .done (x, t)) :
    t = { s with pq := t.pq, hsize := t.hsize } := by
  unfold pqExtractMin at h
  split at h
  · cases h
  · split at h
    · cases h
    · cases h; rfl

theorem pqins_frame {s t : State} (h : pqins s = .done t) :
    t = { s with pq := t.pq, hsize := t.hsize, xrV := false } := by
  obtain ⟨_, h⟩ := need_bind_done h
  obtain ⟨u, hu, h⟩ := Res.bind_eq_done.mp h
  have := pqInsert_frame hu
  cases h
  rw [this]

theorem pqext_frame {s t : State} (h : pqext s = .done t) :
    t = { s with pq := t.pq, hsize := t.hsize, xr := t.xr, xrV := true } := by
  obtain ⟨_, h⟩ := need_bind_done h
  obtain ⟨⟨x, u⟩, hu, h⟩ := Res.bind_eq_done.mp h
  have := pqExtractMin_frame hu
  cases h
  rw [this]

theorem appendNode_frame {n : NodeRec} {s t : State} (h : appendNode n s = .done t) :
    t = { s with node := t.node, ncnt := t.ncnt } := by
  unfold appendNode at h
  split at h
  · cases h; rfl
  · cases h

theorem merge_frame {s t : State} (h : merge s = .done t) :
    t = { s with node := t.node, ncnt := t.ncnt, pq := t.pq, hsize := t.hsize } := by
  obtain ⟨_, h⟩ := need_bind_done h
  obtain ⟨⟨a, u⟩, hu, h⟩ := Res.bind_eq_done.mp h
  obtain ⟨⟨b, v⟩, hv, h⟩ := Res.bind_eq_done.mp h
  obtain ⟨na, _, h⟩ := Res.bind_eq_done.mp h
  obtain ⟨nb, _, h⟩ := Res.bind_eq_done.mp h
  obtain ⟨w, hw, h⟩ := Res.bind_eq_done.mp h
  rw [pqInsert_frame h, appendNode_frame hw, show v = _ from pqExtractMin_frame hv, pqExtractMin_frame hu]

theorem mergeLoop_frame {fuel : Nat} {s t : State} (h : mergeLoop fuel s = .done t) :
    t = { s with node := t.node, ncnt := t.ncnt, pq := t.pq, hsize := t.hsize } := by
  induction fuel generalizing s with
  | zero => cases h; rfl
  | succ fuel ih =>
    unfold mergeLoop at h
    split at h
    · obtain ⟨u, hu, h⟩ := Res.bind_eq_done.mp h
      rw [ih h, merge_frame hu]
    · cases h; rfl

theorem troot_frame {s t : State} (h : troot s = .done t) :
    t = { s with pq := t.pq, hsize := t.hsize, root := t.root, cur := t.cur, heapV := false, treeV := true } := by
  obtain ⟨_, h⟩ := need_bind_done h
  split at h
  · cases h
  · split at h
    · cases h
    · obtain ⟨⟨x, u⟩, hu, h⟩ := Res.bind_eq_done.mp h
      have := pqExtractMin_frame hu
      cases h
      rw [this]

theorem tbuild_frame {s t : State} (h : tbuild s = .done t) :
    t = { s with node := t.node, ncnt := t.ncnt, pq := t.pq, hsize := t.hsize, root := t.root, cur := t.cur, heapV := false, treeV := true, xrV := false } := by
  obtain ⟨_, h⟩ := need_bind_done h
  split at h
  · cases h
  · obtain ⟨u, hu, h⟩ := Res.bind_eq_done.mp h
    obtain ⟨v, hv, h⟩ := Res.bind_eq_done.mp h
    rw [troot_frame h, mergeLoop_frame hv, pqbuild_frame hu]

theorem cgen_frame {s t : State} (h : cgen s = .done t) : t = { s with code := t.code, codeV := true } := by
  obtain ⟨_, h⟩ := need_bind_done h
  obtain ⟨tr, _, h⟩ := Res.bind_eq_done.mp h
  cases h; rfl

theorem outAppendAll_frame {st : Stage} {bs : List Byte} {s t : State} (h : outAppendAll st bs s = .done t) :
    t = { s with obuf := t.obuf, olen := t.olen } := by
  rw [outAppendAll_eq_done h]; exact State.pushAll_frame bs s

theorem tser_frame {s t : State} (h : tser s = .done t) : t = { s with obuf := t.obuf, olen := t.olen } := by
  obtain ⟨_, h⟩ := need_bind_done h
  obtain ⟨tr, _, h⟩ := Res.bind_eq_done.mp h
  exact outAppendAll_frame h

theorem dlmw_frame {s t : State} (h : dlmw s = .done t) : t = { s with obuf := t.obuf, olen := t.olen } :=
  outAppendAll_frame h

theorem tdes_frame {s t : State} (h : tdes s = .done t) :
    t = { s with ipos := t.ipos, node := t.node, ncnt := t.ncnt, root := t.root, cur := t.cur, heapV := false, treeV := true, xrV := false } := by
  unfold tdes at h
  obtain ⟨bs, _, h⟩ := Res.bind_eq_done.mp h
  obtain ⟨r, _, h⟩ := Res.bind_eq_done.mp h
  cases h; rfl

theorem encByte_frame {i : Nat} {y : Byte} {s t : State} (h : encByte i y s = .done t) :
    t = { s with obuf := t.obuf, olen := t.olen } := by
  unfold encByte at h
  simp only at h
  split at h
  · cases h
  · split at h
    · cases h
    · exact outAppendAll_frame h

theorem encBytes_frame {i : Nat} {ys : List Byte} {s t : State} (h : encBytes i ys s = .done t) :
    t = { s with obuf := t.obuf, olen := t.olen } := by
  induction ys generalizing i s with
  | nil => cases h; rfl
  | cons y ys ih =>
    unfold encBytes at h
    obtain ⟨u, hu, h⟩ := Res.bind_eq_done.mp h
    rw [ih h, encByte_frame hu]

theorem enc_frame {s t : State} (h : enc s = .done t) : t = { s with obuf := t.obuf, olen := t.olen } := by
  obtain ⟨_, h⟩ := need_bind_done h
  obtain ⟨bs, _, h⟩ := Res.bind_eq_done.mp h
  exact encBytes_frame h

theorem comp_frame {s t : State} (h : comp s = .done t) :
    t = { s with freq := t.freq, dsym := t.dsym, freqV := true, node := t.node, ncnt := t.ncnt, pq := t.pq, hsize := t.hsize, root := t.root, cur := t.cur, heapV := false, treeV := true, xrV := false, code := t.code, codeV := true, obuf := t.obuf, olen := t.olen } := by
  unfold comp at h
  obtain ⟨u1, h1, h⟩ := Res.bind_eq_done.mp h
  obtain ⟨u2, h2, h⟩ := Res.bind_eq_done.mp h
  obtain ⟨u3, h3, h⟩ := Res.bind_eq_done.mp h
  obtain ⟨u4, h4, h⟩ := Res.bind_eq_done.mp h
  obtain ⟨u5, h5, h⟩ := Res.bind_eq_done.mp h
  rw [enc_frame h, dlmw_frame h5, tser_frame h4, cgen_frame h3, tbuild_frame h2, fscan_frame h1]
  rfl

theorem dlms_frame {s t : State} (h : dlms s = .done t) : t = { s with ipos := t.ipos } := by
  unfold dlms at h
  obtain ⟨bs, _, h⟩ := Res.bind_eq_done.mp h
  split at h
  · cases h
  · cases h; rfl

theorem decStep_frame {b : Byte} {off : Option (BitVec 32)} {s t : State} (h : decStep b off s = .done t) :
    t = { s with obuf := t.obuf, olen := t.olen, cur := t.cur } := by
  unfold decStep at h
  split at h
  · cases h
  · obtain ⟨r, _, h⟩ := Res.bind_eq_done.mp h
    split at h
    · split at h
      · cases h
      · rw [outAppend_eq_done h]; rfl
    · obtain ⟨n, _, h⟩ := Res.bind_eq_done.mp h
      obtain ⟨m, _, h⟩ := Res.bind_eq_done.mp h
      split at h
      · obtain ⟨u, hu, h⟩ := Res.bind_eq_done.mp h
        cases h
        rw [outAppend_eq_done hu]; rfl
      · cases h; rfl

theorem dstep_frame {b : Byte} {s t : State} (h : dstep b s = .done t) :
    t = { s with obuf := t.obuf, olen := t.olen, cur := t.cur } :=
  decStep_frame (need_bind_done h).2

theorem atRoot_eq_done {off : Option (BitVec 32)} {s t : State} (h : atRoot off s = .done t) : s.cur = s.root ∧ t = s := by
  unfold atRoot at h
  split at h
  · cases h; exact ⟨by assumption, rfl⟩
  · cases h

theorem dend_frame {s t : State} (h : dend s = .done t) : t = s := (atRoot_eq_done (need_bind_done h).2).2

theorem decBytes_frame {bs : List Byte} {s t : State} (h : decBytes bs s = .done t) :
    t = { s with obuf := t.obuf, olen := t.olen, cur := t.cur, ipos := t.ipos } := by
  induction bs generalizing s with
  | nil => cases h; rfl
  | cons b bs ih =>
    unfold decBytes at h
    obtain ⟨u, hu, h⟩ := Res.bind_eq_done.mp h
    rw [ih h, decStep_frame hu]

theorem dec_frame {s t : State} (h : dec s = .done t) :
    t = { s with obuf := t.obuf, olen := t.olen, cur := t.cur, ipos := t.ipos } := by
  obtain ⟨_, h⟩ := need_bind_done h
  obtain ⟨bs, _, h⟩ := Res.bind_eq_done.mp h
  obtain ⟨u, hu, h⟩ := Res.bind_eq_done.mp h
  rw [(atRoot_eq_done h).2]; exact decBytes_frame hu

theorem decomp_frame {s t : State} (h : decomp s = .done t) :
    t = { s with obuf := t.obuf, olen := t.olen, ipos := t.ipos, node := t.node, ncnt := t.ncnt, root := t.root, cur := t.cur, heapV := false, treeV := true, xrV := false } := by
  unfold decomp at h
  obtain ⟨u1, h1, h⟩ := Res.bind_eq_done.mp h
  obtain ⟨u2, h2, h⟩ := Res.bind_eq_done.mp h
  rw [dec_frame h, dlms_frame h2, tdes_frame h1]
  rfl

/-- What no command's pseudocode changes: the fault record, `CIX`, and the model's own fields. -/
theorem body_record {i : Instr} {s t : State} (h : body i s = .done t) :
    t.fault = s.fault ∧ t.err = s.err ∧ t.errStage = s.errStage ∧ t.errOff = s.errOff ∧ t.errCmd = s.errCmd ∧
      t.erroffV = s.erroffV ∧ t.cix = s.cix ∧ t.params = s.params ∧ t.host = s.host ∧ t.freeCount = s.freeCount := by
  cases i with
  | ipush imm => rw [ipush_frame h]; simp only [and_self]
  | iclr => cases h; simp only [and_self]
  | irew => cases h; simp only [and_self]
  | oclr => cases h; simp only [State.clearOut, and_self]
  | omov => rw [omov_frame h]; simp only [and_self]
  | fscan => rw [fscan_frame h]; simp only [and_self]
  | pqbuild => rw [pqbuild_frame h]; simp only [and_self]
  | pqins => rw [pqins_frame h]; simp only [and_self]
  | pqext => rw [pqext_frame h]; simp only [and_self]
  | merge => rw [merge_frame h]; simp only [and_self]
  | troot => rw [troot_frame h]; simp only [and_self]
  | tbuild => rw [tbuild_frame h]; simp only [and_self]
  | cgen => rw [cgen_frame h]; simp only [and_self]
  | tser => rw [tser_frame h]; simp only [and_self]
  | tdes => rw [tdes_frame h]; simp only [and_self]
  | enc => rw [enc_frame h]; simp only [and_self]
  | dlmw => rw [dlmw_frame h]; simp only [and_self]
  | comp => rw [comp_frame h]; simp only [and_self]
  | dlms => rw [dlms_frame h]; simp only [and_self]
  | dstep imm => rw [dstep_frame h]; simp only [and_self]
  | dend => rw [dend_frame h]; simp only [and_self]
  | dec => rw [dec_frame h]; simp only [and_self]
  | decomp => rw [decomp_frame h]; simp only [and_self]

/-! ## No pseudocode reads `CIX` -/

/-- The state with another count of retired commands. -/
def State.setCix (c : BitVec 32) (s : State) : State := { s with cix := c }

/-- The answer of a component step, its state changed. -/
def Res.map {α β : Type} (f : α → β) : Res α → Res β
  | .done a => .done (f a)
  | .raised k st off => .raised k st off
  | .stopped e => .stopped e

/-- A component step that neither reads nor writes `CIX`. -/
def CixFree (f : State → Res State) : Prop := ∀ c s, f (s.setCix c) = (f s).map (State.setCix c)

theorem Res.map_bind {α β γ : Type} {r : Res α} {f : α → Res β} {g : β → γ} :
    (r.bind f).map g = r.bind fun a => (f a).map g := by
  cases r <;> rfl

theorem Res.bind_map {α β γ : Type} {r : Res α} {f : α → β} {g : β → Res γ} :
    (r.map f).bind g = r.bind fun a => g (f a) := by
  cases r <;> rfl

theorem Res.bind_congr {α β : Type} {r : Res α} {f g : α → Res β} (h : ∀ a, r = .done a → f a = g a) :
    r.bind f = r.bind g := by
  cases r with
  | done a => exact h a rfl
  | raised k st off => rfl
  | stopped e => rfl

theorem CixFree.bind {f g : State → Res State} (hf : CixFree f) (hg : CixFree g) : CixFree fun s => (f s).bind g := by
  intro c s
  simp only [hf c s, Res.bind_map, Res.map_bind]
  exact Res.bind_congr fun a _ => hg c a

theorem CixFree.need {f : State → Res State} {ok : State → Bool} {st : Stage} (hok : ∀ c s, ok (s.setCix c) = ok s)
    (hf : CixFree f) : CixFree fun s => (Machine.need (ok s) st s).bind f := by
  intro c s
  simp only [hok]
  cases ok s
  · rfl
  · simpa using hf c s

theorem CixFree.ite {p : State → Prop} [∀ s, Decidable (p s)] {f g : State → Res State} (hp : ∀ c s, p (s.setCix c) ↔ p s)
    (hf : CixFree f) (hg : CixFree g) : CixFree fun s => if p s then f s else g s := by
  intro c s
  simp only [hp]
  split
  · exact hf c s
  · exact hg c s

/-- A step that first reads a value that does not depend on `CIX`. -/
theorem CixFree.value {α : Type} {v : State → Res α} {f : α → State → Res State} (hv : ∀ c s, v (s.setCix c) = v s)
    (hf : ∀ a, CixFree (f a)) : CixFree fun s => (v s).bind fun a => f a s := by
  intro c s
  simp only [hv, Res.map_bind]
  exact Res.bind_congr fun a _ => hf a c s

theorem treeAt_cix (c : BitVec 32) (s : State) (fuel : Nat) (i : NodeIdx) : treeAt (s.setCix c) fuel i = treeAt s fuel i :=
  treeAt_same (s := s) (s' := s.setCix c) rfl rfl fuel i

theorem pqLeast_cix (c : BitVec 32) (s : State) (q : List NodeIdx) : pqLeast (s.setCix c) q = pqLeast s q :=
  pqLeast_congr (s := s) (t := s.setCix c) rfl rfl q

theorem outAppend_cix (st : Stage) (b : Byte) : CixFree (outAppend st b) :=
  .ite (fun _ _ => Iff.rfl) (fun _ _ => rfl) (.ite (fun _ _ => Iff.rfl) (fun _ _ => rfl) fun _ _ => rfl)

theorem outAppendAll_cix (st : Stage) (bs : List Byte) : CixFree (outAppendAll st bs) := by
  induction bs with
  | nil => exact fun _ _ => rfl
  | cons b bs ih => exact (outAppend_cix st b).bind ih

theorem pqInsert_cix (x : NodeIdx) : CixFree (pqInsert x) :=
  .ite (fun _ _ => Iff.rfl) (fun _ _ => rfl) fun _ _ => rfl

theorem pqExtractMin_cix (st : Stage) (c : BitVec 32) (s : State) :
    pqExtractMin st (s.setCix c) = (pqExtractMin st s).map fun p => (p.1, p.2.setCix c) := by
  unfold pqExtractMin
  rw [pqLeast_cix, show (s.setCix c).hsize = s.hsize from rfl, show (s.setCix c).pq = s.pq from rfl]
  split
  · rfl
  · split <;> rfl

theorem ipush_cix (imm : Byte) : CixFree (ipush imm) :=
  .ite (fun _ _ => Iff.rfl) (fun _ _ => rfl) (.ite (fun _ _ => Iff.rfl) (fun _ _ => rfl) fun _ _ => rfl)

theorem omov_cix : CixFree omov :=
  .ite (fun _ _ => Iff.rfl) (fun _ _ => rfl) (.value (fun _ _ => rfl) fun _ _ _ => rfl)

theorem fscan_cix : CixFree fscan := .value (fun _ _ => rfl) fun _ _ _ => rfl

theorem pqbuild_cix : CixFree pqbuild := .need (fun _ _ => rfl) fun _ _ => rfl

theorem pqins_cix : CixFree pqins :=
  .need (ok := fun s => s.heapV && s.xrV) (fun _ _ => rfl) fun c s => by
    rw [show (s.setCix c).xr = s.xr from rfl, pqInsert_cix, Res.bind_map, Res.map_bind]
    rfl

theorem pqext_cix : CixFree pqext :=
  .need (fun _ _ => rfl) fun c s => by
    rw [pqExtractMin_cix, Res.bind_map, Res.map_bind]
    rfl

theorem appendNode_cix (n : NodeRec) : CixFree (appendNode n) :=
  .ite (fun _ _ => Iff.rfl) (fun _ _ => rfl) fun _ _ => rfl

theorem merge_cix : CixFree merge :=
  .need (fun _ _ => rfl) fun c s => by
    rw [pqExtractMin_cix, Res.bind_map, Res.map_bind]
    refine Res.bind_congr fun a _ => ?_
    rw [pqExtractMin_cix, Res.bind_map, Res.map_bind]
    refine Res.bind_congr fun b _ => ?_
    rw [show readNode (b.2.setCix c) a.1 = readNode b.2 a.1 from rfl, Res.map_bind]
    refine Res.bind_congr fun na _ => ?_
    rw [show readNode (b.2.setCix c) b.1 = readNode b.2 b.1 from rfl, Res.map_bind]
    refine Res.bind_congr fun nb _ => ?_
    rw [appendNode_cix, Res.bind_map, Res.map_bind]
    exact Res.bind_congr fun t _ => pqInsert_cix _ c t

theorem mergeLoop_cix (fuel : Nat) : CixFree (mergeLoop fuel) := by
  induction fuel with
  | zero => exact fun _ _ => rfl
  | succ fuel ih => exact .ite (fun _ _ => Iff.rfl) (merge_cix.bind ih) fun _ _ => rfl

theorem troot_cix : CixFree troot :=
  .need (fun _ _ => rfl) (.ite (fun _ _ => Iff.rfl) (fun _ _ => rfl) (.ite (fun _ _ => Iff.rfl) (fun _ _ => rfl) fun c s => by
    rw [pqExtractMin_cix, Res.bind_map, Res.map_bind]
    rfl))

theorem tbuild_cix : CixFree tbuild :=
  .need (fun _ _ => rfl) (.ite (fun _ _ => Iff.rfl) (fun _ _ => rfl) (pqbuild_cix.bind fun c s => by
    rw [show (s.setCix c).hsize = s.hsize from rfl]
    exact ((mergeLoop_cix _).bind troot_cix) c s))

theorem rootTree_cix (c : BitVec 32) (s : State) : rootTree (s.setCix c) = rootTree s := treeAt_cix c s _ _

theorem cgen_cix : CixFree cgen := .need (fun _ _ => rfl) (.value rootTree_cix fun _ _ _ => rfl)

theorem tser_cix : CixFree tser := .need (fun _ _ => rfl) (.value rootTree_cix fun tr => outAppendAll_cix .ser tr.ser)

theorem dlmw_cix : CixFree dlmw := fun c s => outAppendAll_cix .delim s.params.delim c s

theorem restBytes_cix (c : BitVec 32) (s : State) : restBytes (s.setCix c) = restBytes s := rfl

theorem tdes_cix : CixFree tdes := by
  intro c s
  unfold tdes
  rw [restBytes_cix, Res.map_bind]
  refine Res.bind_congr fun bs _ => ?_
  rw [show (s.setCix c).ipos = s.ipos from rfl, Res.map_bind]
  rfl

theorem encByte_cix (i : Nat) (y : Byte) : CixFree (encByte i y) := by
  intro c s
  unfold encByte
  rw [show codeAt (s.setCix c) y = codeAt s y from rfl]
  simp only
  split
  · rfl
  · split
    · rfl
    · exact outAppendAll_cix _ _ c s

theorem encBytes_cix (i : Nat) (ys : List Byte) : CixFree (encBytes i ys) := by
  induction ys generalizing i with
  | nil => exact fun _ _ => rfl
  | cons y ys ih => exact (encByte_cix i y).bind (ih (i + 1))

theorem enc_cix : CixFree enc := .need (fun _ _ => rfl) (.value (fun _ _ => rfl) fun bs => encBytes_cix 0 bs)

theorem comp_cix : CixFree comp := fun c s =>
  (fscan_cix.bind (tbuild_cix.bind (cgen_cix.bind (tser_cix.bind (dlmw_cix.bind enc_cix))))) c s.clearOut

theorem dlms_cix : CixFree dlms := by
  intro c s
  unfold dlms
  rw [restBytes_cix, Res.map_bind]
  refine Res.bind_congr fun bs _ => ?_
  rw [show (s.setCix c).ipos = s.ipos from rfl, show (s.setCix c).params = s.params from rfl]
  split <;> rfl

theorem decStep_cix (b : Byte) (off : Option (BitVec 32)) : CixFree (decStep b off) := by
  intro c s
  unfold decStep
  split
  · rfl
  · rename_i bit _
    rw [show readNode (s.setCix c) (s.setCix c).root = readNode s s.root from rfl, Res.map_bind]
    refine Res.bind_congr fun r _ => ?_
    split
    · split
      · rfl
      · exact outAppend_cix _ _ c s
    · rw [show readNode (s.setCix c) (s.setCix c).cur = readNode s s.cur from rfl, Res.map_bind]
      refine Res.bind_congr fun n _ => ?_
      rw [show readNode (s.setCix c) (childOf n bit) = readNode s (childOf n bit) from rfl, Res.map_bind]
      refine Res.bind_congr fun m _ => ?_
      split
      · rw [outAppend_cix, Res.bind_map, Res.map_bind]
        rfl
      · rfl

theorem dstep_cix (imm : Byte) : CixFree (dstep imm) := .need (fun _ _ => rfl) (decStep_cix imm none)

theorem atRoot_cix (off : Option (BitVec 32)) : CixFree (atRoot off) :=
  .ite (fun _ _ => Iff.rfl) (fun _ _ => rfl) fun _ _ => rfl

theorem dend_cix : CixFree dend := .need (fun _ _ => rfl) (atRoot_cix none)

theorem decBytes_cix (bs : List Byte) : CixFree (decBytes bs) := by
  induction bs with
  | nil => exact fun _ _ => rfl
  | cons b bs ih =>
    intro c s
    unfold decBytes
    rw [show (s.setCix c).ipos = s.ipos from rfl, decStep_cix, Res.bind_map, Res.map_bind]
    exact Res.bind_congr fun t _ => ih c { t with ipos := t.ipos + 1 }

theorem dec_cix : CixFree dec :=
  .need (fun _ _ => rfl) (.value restBytes_cix fun bs => (decBytes_cix bs).bind fun c s => atRoot_cix _ c s)

theorem decomp_cix : CixFree decomp := fun c s =>
  (tdes_cix.bind (dlms_cix.bind dec_cix)) c { s.clearOut with ipos := 0 }

/-- No command's pseudocode reads or writes `CIX`. -/
theorem body_cix (i : Instr) : CixFree (body i) := by
  cases i with
  | ipush imm => exact ipush_cix imm
  | iclr => exact fun _ _ => rfl
  | irew => exact fun _ _ => rfl
  | oclr => exact fun _ _ => rfl
  | omov => exact omov_cix
  | fscan => exact fscan_cix
  | pqbuild => exact pqbuild_cix
  | pqins => exact pqins_cix
  | pqext => exact pqext_cix
  | merge => exact merge_cix
  | troot => exact troot_cix
  | tbuild => exact tbuild_cix
  | cgen => exact cgen_cix
  | tser => exact tser_cix
  | tdes => exact tdes_cix
  | enc => exact enc_cix
  | dlmw => exact dlmw_cix
  | comp => exact comp_cix
  | dlms => exact dlms_cix
  | dstep imm => exact dstep_cix imm
  | dend => exact dend_cix
  | dec => exact dec_cix
  | decomp => exact decomp_cix

end Sys2Proof.Machine
end

