-- ==== Sys2Proof/Laws/Encoding.lean ====
section
/-!
SUPPORT. The fields of concatenated words: a command word's `op` and `imm` (30_encoding.md R100), and slices of the
observation port's words (20_memory.md R84).
-/

namespace Sys2Proof.Machine

/-- A slice of the low part of a concatenation. -/
theorem extract_append_low {m n : Nat} (x : BitVec m) (y : BitVec n) {start len : Nat} (h : start + len ≤ n) :
    (x ++ y).extractLsb' start len = y.extractLsb' start len := by
  apply BitVec.eq_of_getLsbD_eq
  intro k hk
  simp only [BitVec.getLsbD_extractLsb', BitVec.getLsbD_append]
  rw [if_pos (by omega)]

/-- A slice of the high part of a concatenation. -/
theorem extract_append_high {m n : Nat} (x : BitVec m) (y : BitVec n) {start len : Nat} (h : n ≤ start) :
    (x ++ y).extractLsb' start len = x.extractLsb' (start - n) len := by
  apply BitVec.eq_of_getLsbD_eq
  intro k hk
  simp only [BitVec.getLsbD_extractLsb', BitVec.getLsbD_append]
  rw [if_neg (by omega), show start + k - n = start - n + k by omega]

theorem extract_all {n : Nat} (x : BitVec n) : x.extractLsb' 0 n = x := by
  apply BitVec.eq_of_getLsbD_eq
  intro k hk
  simp [hk]

/-- A bit of a word is the slice of one bit there. -/
theorem getLsbD_eq_extract {n : Nat} (x : BitVec n) (k : Nat) : x.getLsbD k = (x.extractLsb' k 1).getLsbD 0 := by
  simp

end Sys2Proof.Machine

namespace Sys2Proof

open Sys2Proof.Machine

theorem opField_append (x y : Byte) : opField (x ++ y) = x :=
  (extract_append_high x y (Nat.le_refl 8)).trans (extract_all x)

theorem immField_append (x y : Byte) : immField (x ++ y) = y :=
  (extract_append_low x y (Nat.le_refl 8)).trans (extract_all y)

/-- A word is its two fields. -/
theorem fields_append (w : CmdWord) : opField w ++ immField w = w := by
  apply BitVec.eq_of_getLsbD_eq
  intro k hk
  refine (BitVec.getLsbD_append (x := opField w) (y := immField w)).trans ?_
  simp only [opField, immField, BitVec.getLsbD_extractLsb']
  split
  · rename_i h; simp [h]
  · rename_i h
    have h8 : k - 8 < 8 := by omega
    rw [show 8 + (k - 8) = k by omega]
    simp [h8]

theorem opField_encode (i : Instr) : opField (encode i) = i.opcode := opField_append _ _

theorem immField_encode (i : Instr) : immField (encode i) = i.operand := immField_append _ _

/-- A format-N opcode is the opcode of its command, whose operand byte is zero. -/
theorem formatNInstr_eq {op : Byte} {i : Instr} (h : formatNInstr op = some i) : i.opcode = op ∧ i.operand = 0 := by
  have hop : op = BitVec.ofNat 8 op.toNat := by simp
  unfold formatNInstr at h
  split at h <;> cases h <;> (rename_i e; rw [hop, e]; exact ⟨rfl, rfl⟩)

/-- The format-N opcodes are those R103 lists. -/
theorem formatNInstr_none {op : Byte} : formatNInstr op = none ↔ op ∉ formatNOpcodes := by
  revert op
  decide

end Sys2Proof
end

