-- ==== Sys2Proof/Laws/Codes.lean ====
section
/-!
SUPPORT. What the code table holds after CGEN (43_code_generator.md R190 to R194), and that path codes are prefix-free
(R192).
-/

namespace Sys2Proof.Machine

open Sys2Proof.Config

/-! ## Paths as code records -/

theorem natOfBits_testBit (p : List Bool) (k : Nat) : (natOfBits p).testBit k = p.getD k false := by
  induction p generalizing k with
  | nil => simp [natOfBits]
  | cons c p ih =>
    cases k with
    | zero =>
      simp only [natOfBits, Nat.testBit_zero, List.getD_cons_zero]
      cases c <;> simp
    | succ k =>
      rw [List.getD_cons_succ, ← ih k, Nat.testBit_succ]
      congr 1
      have : c.toNat ≤ 1 := Bool.toNat_le c
      simp only [natOfBits]; omega

/-- Bit `k` of a stored code is the path's bit `k`, and 0 above the path (10_state.md R41). -/
theorem codeOfPath_getLsbD {p : List Bool} (h : p.length ≤ maxLen) (k : Nat) :
    (codeOfPath p).bits.getLsbD k = p.getD k false := by
  have : (codeOfPath p).bits.getLsbD k = (codeOfPath p).bits.toNat.testBit k := rfl
  rw [this, codeOfPath_bits h, natOfBits_testBit]

/-- A stored code reads back as the path. -/
theorem pathOfCode_codeOfPath {p : List Bool} (h : p.length ≤ maxLen) : pathOfCode (codeOfPath p) = p := by
  unfold pathOfCode
  rw [codeOfPath_len h]
  refine List.ext_getElem (by simp) fun k h1 h2 => ?_
  rw [List.getElem_map, List.getElem_range, codeOfPath_getLsbD h, List.getD_eq_getElem _ _ h2]

/-! ## The table -/

theorem codes_fold_other {es : List (Byte × List Bool)} {m : Memory CodeRec} {y : Byte} (h : y ∉ es.map Prod.fst) :
    Memory.read (es.foldl (fun m e => Memory.write m e.1.toNat (codeOfPath e.2)) m) y.toNat = Memory.read m y.toNat := by
  induction es generalizing m with
  | nil => rfl
  | cons e es ih =>
    simp only [List.map_cons, List.mem_cons, not_or] at h
    rw [List.foldl_cons, ih h.2, Memory.read_write_other]
    exact fun e' => h.1 (BitVec.eq_of_toNat_eq e')

/-- A symbol that is no leaf of the tree has a cleared entry (R190). -/
theorem codeTable_other {t : Tree} {y : Byte} (h : y ∉ t.symbols) : Memory.read (codeTable t) y.toNat = some noCode := by
  unfold codeTable
  rw [codes_fold_other (by rwa [t.codes_symbols])]
  have : y.toNat < nsym := y.isLt
  simp [clearedCodes, this]

/-- A leaf symbol has the path to its last leaf (R190, R194). -/
theorem codeTable_last {t : Tree} {before after : List (Byte × List Bool)} {y : Byte} {p : List Bool}
    (h : t.codes = before ++ (y, p) :: after) (hy : y ∉ after.map Prod.fst) :
    Memory.read (codeTable t) y.toNat = some (codeOfPath p) := by
  unfold codeTable
  rw [h, List.foldl_append, List.foldl_cons, codes_fold_other hy, Memory.read_write_same]

/-- With distinct leaf symbols every code of the tree stands in the table. -/
theorem codeTable_mem {t : Tree} (h : t.symbols.Nodup) {e : Byte × List Bool} (he : e ∈ t.codes) :
    Memory.read (codeTable t) e.1.toNat = some (codeOfPath e.2) := by
  obtain ⟨before, after, hs⟩ := List.append_of_mem he
  refine codeTable_last hs fun hy => ?_
  rw [← t.codes_symbols, hs] at h
  simp only [List.map_append, List.map_cons] at h
  have := (List.nodup_cons.mp (List.nodup_append.mp h).2.1).1
  exact this hy

/-! ## Prefix-free -/

/-- Neither bit string is a prefix of the other. -/
def Apart (p q : List Bool) : Prop := ¬ p <+: q ∧ ¬ q <+: p

theorem Tree.walk_prefix (t : Tree) (p : List Bool) {e : Byte × List Bool} (h : e ∈ t.walk p) : p <+: e.2 := by
  induction t generalizing p with
  | leaf y => simp [Tree.walk] at h; simp [h]
  | node l r ihl ihr =>
    simp only [Tree.walk, List.mem_append] at h
    rcases h with h | h
    · exact (List.prefix_append p [false]).trans (ihl _ h)
    · exact (List.prefix_append p [true]).trans (ihr _ h)

theorem apart_of_fork {p u v : List Bool} (h1 : p ++ [false] <+: u) (h2 : p ++ [true] <+: v) : Apart u v := by
  obtain ⟨a, rfl⟩ := h1
  obtain ⟨b, rfl⟩ := h2
  simp only [List.append_assoc, List.singleton_append, Apart]
  rw [List.prefix_append_right_inj, List.prefix_append_right_inj]
  simp [List.cons_prefix_cons]

theorem Tree.walk_apart (t : Tree) (p : List Bool) : (t.walk p).Pairwise fun e e' => Apart e.2 e'.2 := by
  induction t generalizing p with
  | leaf y => simp [Tree.walk]
  | node l r ihl ihr =>
    rw [Tree.walk, List.pairwise_append]
    exact ⟨ihl _, ihr _, fun e he e' he' => apart_of_fork (l.walk_prefix _ he) (r.walk_prefix _ he')⟩

/-- The codes of different leaves are apart (R192). -/
theorem Tree.codes_apart (t : Tree) : t.codes.Pairwise fun e e' => Apart e.2 e'.2 := by
  cases t with
  | leaf y => simp [Tree.codes]
  | node l r => exact Tree.walk_apart _ _

end Sys2Proof.Machine
end

