-- ==== Sys2Proof/Laws/Walk.lean ====
section
/-!
SUPPORT. The decoder's walk over the codes of a tree (46_decoder.md R244, R248): a whole code emits its symbol and returns to
the root; a part of a code leaves the cursor inside the tree.
-/

namespace Sys2Proof.Machine

open Sys2Proof.Config

theorem bitOfSymbol_symbolOfBit (c : Bool) : bitOfSymbol (symbolOfBit c) = some c := by cases c <;> decide

theorem bitOfSymbol_none {b : Byte} (h0 : b ≠ 0x30) (h1 : b ≠ 0x31) : bitOfSymbol b = none :=
  (if_neg h0).trans (if_neg h1)

/-- Codes relative to a node. -/
theorem Tree.walk_eq (t : Tree) (p : List Bool) : t.walk p = (t.walk []).map fun e => (e.1, p ++ e.2) := by
  induction t generalizing p with
  | leaf y => simp [Tree.walk]
  | node l r ihl ihr =>
    simp only [Tree.walk, List.nil_append, List.map_append]
    rw [ihl (p ++ [false]), ihr (p ++ [true]), ihl [false], ihr [true]]
    simp [Function.comp_def]

/-- The first bit of a code names the child its rest is a code of. -/
theorem Tree.walk_node {l r : Tree} {y : Byte} {q : List Bool} (h : (y, q) ∈ (Tree.node l r).walk []) :
    ∃ c q', q = c :: q' ∧ (y, q') ∈ (if c then r else l).walk [] := by
  simp only [Tree.walk, List.nil_append, List.mem_append] at h
  rcases h with h | h
  · rw [l.walk_eq] at h
    obtain ⟨⟨z, q'⟩, hm, he⟩ := List.mem_map.mp h
    cases he
    exact ⟨false, q', rfl, by simpa using hm⟩
  · rw [r.walk_eq] at h
    obtain ⟨⟨z, q'⟩, hm, he⟩ := List.mem_map.mp h
    cases he
    exact ⟨true, q', rfl, by simpa using hm⟩

/-- One bit symbol under an internal root (R244). -/
theorem decStep_edge {s : State} {c : Bool} {off : Option (BitVec 32)} {x : NodeIdx} (hroot : s.root.toNat < nodeCap)
    (hk : (nodeAt s s.root).kind = .internal) (hcur : s.cur.toNat < nodeCap) (hx : childOf (nodeAt s s.cur) c = x)
    (hxn : x.toNat < nodeCap) :
    ((nodeAt s x).kind = .internal → decStep (symbolOfBit c) off s = .done { s with cur := x }) ∧
    ((nodeAt s x).kind = .leaf → decStep (symbolOfBit c) off s =
      (outAppend .dec (nodeAt s x).sym s).bind fun t => .done { t with cur := t.root }) := by
  unfold decStep
  rw [bitOfSymbol_symbolOfBit]
  simp only
  rw [readNode_done hroot, Res.done_bind, hk]
  simp only
  rw [readNode_done hcur, Res.done_bind, hx, readNode_done hxn, Res.done_bind]
  constructor
  · intro h; rw [h]
  · intro h; rw [h]

/-- The children of an internal node that holds a tree. -/
theorem treeAt_child {s : State} {fuel : Nat} {i : NodeIdx} {l r : Tree} (h : treeAt s fuel i = .done (.node l r)) :
    i.toNat < nodeCap ∧ (nodeAt s i).kind = .internal ∧
      ∀ c, ∃ f, treeAt s f (childOf (nodeAt s i) c) = .done (if c then r else l) := by
  cases fuel with
  | zero => simp [treeAt] at h
  | succ f =>
    obtain ⟨hi, ⟨_, he⟩ | ⟨hk, l', r', hl, hr, he⟩⟩ := treeAt_eq_done.mp h
    · cases he
    · cases he
      refine ⟨hi, hk, fun c => ⟨f, ?_⟩⟩
      cases c
      · exact hl
      · exact hr

theorem treeAt_leaf {s : State} {fuel : Nat} {i : NodeIdx} {y : Byte} (h : treeAt s fuel i = .done (.leaf y)) :
    i.toNat < nodeCap ∧ (nodeAt s i).kind = .leaf ∧ (nodeAt s i).sym = y := by
  cases fuel with
  | zero => simp [treeAt] at h
  | succ f =>
    obtain ⟨hi, ⟨hk, he⟩ | ⟨_, _, _, _, _, he⟩⟩ := treeAt_eq_done.mp h
    · cases he; exact ⟨hi, hk, rfl⟩
    · cases he

/-- The state with the input cursor and the decoder's cursor moved. -/
def State.walked (n : Nat) (c : NodeIdx) (s : State) : State := { s with ipos := s.ipos + BitVec.ofNat 32 n, cur := c }

theorem walked_zero (s : State) : s.walked 0 s.cur = s := by simp [State.walked]

theorem ofNat_succ32 (n : Nat) : (1 : BitVec 32) + BitVec.ofNat 32 n = BitVec.ofNat 32 (n + 1) := by
  apply BitVec.eq_of_toNat_eq
  simp only [BitVec.toNat_add, BitVec.toNat_ofNat, toNat_one32]
  omega

/-- The decoder reads the rest of a code from an inner node: the symbol is emitted and the cursor is at the root (R244). -/
theorem decBytes_path {t : Tree} {s : State} {fuel : Nat} {y : Byte} {q : List Bool} {rest : List Byte}
    (hroot : s.root.toNat < nodeCap) (hk : (nodeAt s s.root).kind = .internal) (ht : treeAt s fuel s.cur = .done t)
    (hq : (y, q) ∈ t.walk []) (hne : q ≠ []) (hroom : s.olen.toNat < s.params.outCap) :
    decBytes (q.map symbolOfBit ++ rest) s = decBytes rest ((s.pushOut y).walked q.length s.root) := by
  induction t generalizing s fuel q with
  | leaf z =>
    simp only [Tree.walk, List.mem_singleton, Prod.mk.injEq] at hq
    exact absurd hq.2 hne
  | node l r ihl ihr =>
    obtain ⟨c, q', rfl, hq'⟩ := Tree.walk_node hq
    obtain ⟨hcur, _, hch⟩ := treeAt_child ht
    obtain ⟨f, hf⟩ := hch c
    have hx : (childOf (nodeAt s s.cur) c).toNat < nodeCap := by
      cases he : (if c then r else l) with
      | leaf z => rw [he] at hf; exact (treeAt_leaf hf).1
      | node a b => rw [he] at hf; exact (treeAt_child hf).1
    obtain ⟨hint, hleaf⟩ := decStep_edge (off := some s.ipos) hroot hk hcur rfl hx
    simp only [List.map_cons, List.cons_append, decBytes, List.length_cons]
    cases he : (if c then r else l) with
    | leaf z =>
      rw [he] at hf hq'
      simp only [Tree.walk, List.mem_singleton, Prod.mk.injEq] at hq'
      obtain ⟨rfl, rfl⟩ := hq'
      obtain ⟨_, hkx, hsx⟩ := treeAt_leaf hf
      rw [hleaf hkx, hsx, outAppend_done hroom, Res.done_bind, Res.done_bind]
      rfl
    | node a b =>
      rw [he] at hf hq'
      have hkx := (treeAt_child hf).2.1
      rw [hint hkx, Res.done_bind]
      have hq0 : q' ≠ [] := by
        obtain ⟨c', q'', rfl, _⟩ := Tree.walk_node hq'
        simp
      have hsame : ∀ i, treeAt { s with cur := childOf (nodeAt s s.cur) c, ipos := s.ipos + 1 } f i = treeAt s f i :=
        treeAt_same (s := s) (s' := { s with cur := childOf (nodeAt s s.cur) c, ipos := s.ipos + 1 }) rfl rfl f
      have hfin : ((State.pushOut y { s with cur := childOf (nodeAt s s.cur) c, ipos := s.ipos + 1 }).walked q'.length s.root) =
          ((s.pushOut y).walked (q'.length + 1) s.root) := by
        simp only [State.walked, State.pushOut, BitVec.add_assoc, ofNat_succ32]
      rw [← hfin]
      cases c
      · simp only [Bool.false_eq_true, if_false] at he hf hq'
        exact ihl (s := { s with cur := childOf (nodeAt s s.cur) false, ipos := s.ipos + 1 }) (fuel := f) hroot hk
          ((hsame _).trans (he ▸ hf)) (he ▸ hq') hq0 hroom
      · simp only [if_true] at he hf hq'
        exact ihr (s := { s with cur := childOf (nodeAt s s.cur) true, ipos := s.ipos + 1 }) (fuel := f) hroot hk
          ((hsame _).trans (he ▸ hf)) (he ▸ hq') hq0 hroom

/-- The decoder reads a proper, non-empty part of a code from an inner node: nothing is emitted, and the cursor is at an
inner node that some node has as a child. -/
theorem decBytes_part {t : Tree} {s : State} {fuel : Nat} {y : Byte} {p q : List Bool}
    (hroot : s.root.toNat < nodeCap) (hk : (nodeAt s s.root).kind = .internal) (ht : treeAt s fuel s.cur = .done t)
    (hq : (y, p ++ q) ∈ t.walk []) (hp : p ≠ []) (hne : q ≠ []) :
    ∃ i c, i.toNat < nodeCap ∧ (nodeAt s i).kind = .internal ∧ (∃ f u, treeAt s f i = .done u) ∧
      decBytes (p.map symbolOfBit) s = .done (s.walked p.length (childOf (nodeAt s i) c)) := by
  induction t generalizing s fuel p with
  | leaf z =>
    simp only [Tree.walk, List.mem_singleton, Prod.mk.injEq] at hq
    exact absurd (List.append_eq_nil_iff.mp hq.2).1 hp
  | node l r ihl ihr =>
    obtain ⟨c, q', he0, hq'⟩ := Tree.walk_node hq
    obtain ⟨hcur, hkc, hch⟩ := treeAt_child ht
    obtain ⟨f, hf⟩ := hch c
    obtain ⟨p', rfl⟩ : ∃ p', p = c :: p' := by
      cases p with
      | nil => exact absurd rfl hp
      | cons d p' => rw [List.cons_append] at he0; cases he0; exact ⟨p', rfl⟩
    rw [List.cons_append, List.cons.injEq] at he0
    obtain ⟨_, rfl⟩ := he0
    cases he : (if c then r else l) with
    | leaf z =>
      rw [he] at hq'
      simp only [Tree.walk, List.mem_singleton, Prod.mk.injEq] at hq'
      exact absurd (List.append_eq_nil_iff.mp hq'.2).2 hne
    | node a b =>
      rw [he] at hf hq'
      have hx := (treeAt_child hf).1
      have hkx := (treeAt_child hf).2.1
      obtain ⟨hint, _⟩ := decStep_edge (off := some s.ipos) hroot hk hcur rfl hx
      simp only [List.map_cons, decBytes, List.length_cons]
      rw [hint hkx, Res.done_bind]
      by_cases hp' : p' = []
      · subst hp'
        exact ⟨s.cur, c, hcur, hkc, ⟨_, _, ht⟩, rfl⟩
      · have hsame : ∀ f i, treeAt { s with cur := childOf (nodeAt s s.cur) c, ipos := s.ipos + 1 } f i = treeAt s f i :=
          fun f => treeAt_same (s := s) (s' := { s with cur := childOf (nodeAt s s.cur) c, ipos := s.ipos + 1 }) rfl rfl f
        have hres : ∃ i c', i.toNat < nodeCap ∧ (nodeAt s i).kind = .internal ∧ (∃ f u, treeAt s f i = .done u) ∧
            decBytes (p'.map symbolOfBit) { s with cur := childOf (nodeAt s s.cur) c, ipos := s.ipos + 1 } =
              .done (({ s with cur := childOf (nodeAt s s.cur) c, ipos := s.ipos + 1 } : State).walked p'.length
                (childOf (nodeAt s i) c')) := by
          cases c
          · simp only [Bool.false_eq_true, if_false] at he hf hq'
            obtain ⟨i, c', h1, h2, ⟨f', u, h3⟩, h4⟩ := ihl (s := { s with cur := childOf (nodeAt s s.cur) false, ipos := s.ipos + 1 })
              (fuel := f) hroot hk ((hsame _ _).trans (he ▸ hf)) (he ▸ hq') hp'
            exact ⟨i, c', h1, h2, ⟨f', u, (hsame f' i).symm.trans h3⟩, h4⟩
          · simp only [if_true] at he hf hq'
            obtain ⟨i, c', h1, h2, ⟨f', u, h3⟩, h4⟩ := ihr (s := { s with cur := childOf (nodeAt s s.cur) true, ipos := s.ipos + 1 })
              (fuel := f) hroot hk ((hsame _ _).trans (he ▸ hf)) (he ▸ hq') hp'
            exact ⟨i, c', h1, h2, ⟨f', u, (hsame f' i).symm.trans h3⟩, h4⟩
        obtain ⟨i, c', h1, h2, h3, h4⟩ := hres
        refine ⟨i, c', h1, h2, h3, ?_⟩
        rw [h4]
        simp only [State.walked, BitVec.add_assoc, ofNat_succ32]

theorem Tree.walk_ne_nil {l r : Tree} {e : Byte × List Bool} (h : e ∈ (Tree.node l r).walk []) : e.2 ≠ [] := by
  obtain ⟨c, q, hq, _⟩ := Tree.walk_node (y := e.1) (q := e.2) h
  rw [hq]; simp

theorem pushOut_congr_walked {s : State} (b : Byte) (n : Nat) (c : NodeIdx) :
    (s.walked n c).pushOut b = (s.pushOut b).walked n c := rfl

theorem pushAll_walked {s : State} (bs : List Byte) (n : Nat) (c : NodeIdx) :
    (s.walked n c).pushAll bs = (s.pushAll bs).walked n c := by
  induction bs generalizing s with
  | nil => rfl
  | cons b bs ih => rw [State.pushAll_cons, pushOut_congr_walked, ih, State.pushAll_cons]

/-- The decoder reads a sequence of whole codes from the root (R248). -/
theorem decBytes_codes {tr : Tree} {es : List (Byte × List Bool)} {s : State} {rest : List Byte}
    (ht : rootTree s = .done tr) (hes : ∀ e ∈ es, e ∈ tr.codes) (hcur : s.cur = s.root) (hc : s.params.outCap < 2 ^ 32)
    (hroom : s.olen.toNat + es.length ≤ s.params.outCap) :
    decBytes ((es.flatMap fun e => e.2.map symbolOfBit) ++ rest) s =
      decBytes rest ((s.pushAll (es.map Prod.fst)).walked (es.flatMap fun e => e.2.map symbolOfBit).length s.root) := by
  induction es generalizing s with
  | nil =>
    simp only [List.flatMap_nil, List.nil_append, List.map_nil, State.pushAll_nil, List.length_nil]
    rw [← hcur, walked_zero]
  | cons e es ih =>
    rw [List.length_cons] at hroom
    have hone : decBytes (e.2.map symbolOfBit ++ ((es.flatMap fun e => e.2.map symbolOfBit) ++ rest)) s =
        decBytes ((es.flatMap fun e => e.2.map symbolOfBit) ++ rest) ((s.pushOut e.1).walked e.2.length s.root) := by
      have he := hes e (by simp)
      cases tr with
      | leaf y =>
        simp only [Tree.codes, singleCode, List.mem_singleton] at he
        subst he
        obtain ⟨hr, hk, hy⟩ := treeAt_leaf ht
        simp only [List.map_cons, List.map_nil, List.cons_append, List.nil_append, decBytes, decStep,
          bitOfSymbol_symbolOfBit]
        rw [readNode_done hr, Res.done_bind, hk]
        simp only [Bool.false_eq_true, if_false]
        rw [outAppend_done (by omega), Res.done_bind, hy]
        congr 1
        simp only [State.walked, State.pushOut, ← hcur]
        rfl
      | node l r =>
        obtain ⟨hr, hk, _⟩ := treeAt_child ht
        exact decBytes_path hr hk (by rw [hcur]; exact ht) he (Tree.walk_ne_nil he) (by omega)
    rw [List.flatMap_cons, List.append_assoc, hone]
    have ht' : rootTree ((s.pushOut e.1).walked e.2.length s.root) = .done tr :=
      (treeAt_same (s := s) (s' := (s.pushOut e.1).walked e.2.length s.root) rfl rfl treeLevels s.root).trans ht
    have ho : ((s.pushOut e.1).walked e.2.length s.root).olen.toNat = s.olen.toNat + 1 :=
      State.pushOut_olen_toNat (b := e.1) (s := s) (by omega)
    rw [ih ht' (fun e' he' => hes e' (by simp [he'])) rfl hc (by rw [ho]; change _ ≤ s.params.outCap; omega),
      pushAll_walked]
    congr 1
    have hsum : BitVec.ofNat 32 e.2.length + BitVec.ofNat 32 (es.flatMap fun e => e.2.map symbolOfBit).length =
        BitVec.ofNat 32 ((e.2.map symbolOfBit ++ es.flatMap fun e => e.2.map symbolOfBit).length) := by
      apply BitVec.eq_of_toNat_eq
      simp only [BitVec.toNat_add, BitVec.toNat_ofNat, List.length_append, List.length_map]
      omega
    simp only [State.walked, List.map_cons, State.pushAll_cons, ← hsum, BitVec.add_assoc]
    rfl

end Sys2Proof.Machine
end

