-- ==== Sys2Proof/Laws/Build.lean ====
section
/-!
SUPPORT. What the builder makes (42_tree_builder.md R170 to R177): an invariant of the merge loop from PQBUILD on, and the tree
it ends with.
-/

namespace Sys2Proof.Machine

open Sys2Proof.Config

/-! ## What MERGE does to nodes, trees and the queue -/

theorem ncnt_index {s : State} (h : s.ncnt.toNat < nodeCap) : (s.ncnt.setWidth 9).toNat = s.ncnt.toNat := by
  rw [BitVec.toNat_setWidth]; simp only [nodeCap] at h; omega

theorem merged_ncnt {s : State} {a b : NodeIdx} (h : s.ncnt.toNat < nodeCap) :
    (s.merged a b).ncnt.toNat = s.ncnt.toNat + 1 := bv_add_one (by simp only [nodeCap] at h; omega)

theorem merged_nodeAt_old {s : State} {a b x : NodeIdx} (hx : x.toNat ≠ s.ncnt.toNat) :
    nodeAt (s.merged a b) x = nodeAt s x := by
  simp only [nodeAt]
  rw [show (s.merged a b).node = Memory.write s.node s.ncnt.toNat (parentOf (nodeAt s a) (nodeAt s b) a b) from rfl,
    Memory.read_write_other _ _ hx]
  rfl

theorem merged_nodeAt_new {s : State} {a b n : NodeIdx} (hn : n.toNat = s.ncnt.toNat) :
    nodeAt (s.merged a b) n = parentOf (nodeAt s a) (nodeAt s b) a b := by
  simp only [nodeAt, hn]
  rw [show (s.merged a b).node = Memory.write s.node s.ncnt.toNat (parentOf (nodeAt s a) (nodeAt s b) a b) from rfl,
    Memory.read_write_same]
  rfl

/-- The children of a node of the arena are nodes of the arena (10_state.md R39). -/
theorem ArenaInv.child {s : State} (ha : ArenaInv s) {x : NodeIdx} (hx : x.toNat < s.ncnt.toNat)
    (hk : (nodeAt s x).kind = .internal) :
    (nodeAt s x).left.toNat < s.ncnt.toNat ∧ (nodeAt s x).right.toNat < s.ncnt.toNat :=
  ⟨children_lt ha hx hk false, children_lt ha hx hk true⟩

theorem merged_treeAt_old {s : State} {a b : NodeIdx} (ha : ArenaInv s) (fuel : Nat) {x : NodeIdx}
    (hx : x.toNat < s.ncnt.toNat) : treeAt (s.merged a b) fuel x = treeAt s fuel x :=
  treeAt_congr (fun i => i.toNat < s.ncnt.toNat) (fun _ hi => merged_nodeAt_old (Nat.ne_of_lt hi))
    (fun _ hi hk => ha.child hi hk) fuel hx

/-- The two members MERGE takes, and the others. -/
theorem pq_split {s : State} {a b : NodeIdx} (hq : pqWf s.pq) (ham : a ∈ s.pq) (hbm : b ∈ s.pq) (hab : a ≠ b) :
    s.pq.Perm (a :: b :: pqDrop b (pqDrop a s.pq)) :=
  (pqDrop_perm hq.1 ham).trans ((pqDrop_perm (hq.1.filter _) (mem_pqDrop.mpr ⟨hbm, Ne.symm hab⟩)).cons a)

theorem mem_pq_lt {s : State} (hh : HeapInv s) {x : NodeIdx} (hx : x ∈ s.pq) : x.toNat < s.ncnt.toNat := by
  obtain ⟨l, hl⟩ := pending_pq (s := s)
  exact hh.defined _ (hl.mem_iff.mpr (List.mem_append_left _ hx))

theorem mem_pq_tree {s : State} (hh : HeapInv s) {x : NodeIdx} (hx : x ∈ s.pq) : ∃ t, treeAt s treeLevels x = .done t := by
  obtain ⟨l, hl⟩ := pending_pq (s := s)
  exact hh.trees _ (hl.mem_iff.mpr (List.mem_append_left _ hx))

theorem merged_pq {s : State} {a b : NodeIdx} (hh : HeapInv s) (hq : pqWf s.pq) (hroom : s.ncnt.toNat < nodeCap) :
    (s.merged a b).pq.Perm (s.ncnt.setWidth 9 :: pqDrop b (pqDrop a s.pq)) := by
  refine pqAdd_perm ((hq.1.filter _).filter _) fun h => ?_
  have h1 := (mem_pqDrop.mp (mem_pqDrop.mp h).1).1
  have := mem_pq_lt hh h1
  rw [ncnt_index hroom] at this
  omega

/-- The tree of the node MERGE makes. -/
theorem merged_tree {s : State} {a b : NodeIdx} {ta tb : Tree} (hs : Good s) (hv : s.heapV = true) (ham : a ∈ s.pq)
    (hbm : b ∈ s.pq) (hab : a ≠ b) (hroom : s.ncnt.toNat < nodeCap) (hta : treeAt s treeLevels a = .done ta)
    (htb : treeAt s treeLevels b = .done tb) :
    treeAt (s.merged a b) treeLevels (s.ncnt.setWidth 9) = .done (.node ta tb) := by
  have hh := hs.live.heap hv
  have ha := hs.live.arena (.inl hv)
  have hidx := ncnt_index hroom
  have hsum := hh.leaves
  obtain ⟨l, hl⟩ := pending_pq (s := s)
  rw [(hl.map _).sum_eq, List.map_append, List.sum_append, sum_perm_two (pq_split hs.form.pq ham hbm hab)] at hsum
  have hla : leavesAt s a = ta.leaves := by simp [leavesAt, hta]
  have hlb : leavesAt s b = tb.leaves := by simp [leavesAt, htb]
  have d1 := ta.depth_lt_leaves
  have d2 := tb.depth_lt_leaves
  have p1 := ta.leaves_pos
  have p2 := tb.leaves_pos
  refine treeAt_eq_done.mpr ⟨by rw [hidx]; exact hroom, .inr ?_⟩
  rw [merged_nodeAt_new hidx]
  refine ⟨rfl, ta, tb, ?_, ?_, rfl⟩
  · exact (merged_treeAt_old ha _ (mem_pq_lt hh ham)).trans (treeAt_levels hta (by omega))
  · exact (merged_treeAt_old ha _ (mem_pq_lt hh hbm)).trans (treeAt_levels htb (by omega))

/-! ## The invariant of the merge loop -/

/-- The leaf symbols of the tree at a node. -/
def symbolsAt (s : State) (i : NodeIdx) : List Byte :=
  match treeAt s treeLevels i with
  | .done t => t.symbols
  | .raised _ _ _ => []
  | .stopped _ => []

/-- An internal node after its two distinct children, with the sum of their weights (R177). -/
def ParentOk (s : State) (n : NodeIdx) : Prop :=
  (nodeAt s n).kind = .internal ∧ (nodeAt s n).left.toNat < n.toNat ∧ (nodeAt s n).right.toNat < n.toNat ∧
    (nodeAt s n).left ≠ (nodeAt s n).right ∧
    (nodeAt s n).weight.toNat = (nodeAt s (nodeAt s n).left).weight.toNat + (nodeAt s (nodeAt s n).right).weight.toNat

/-- Between the merges of a build that started from the counts `count` with the present symbols `ys`. -/
structure Building (count : Nat → BitVec 32) (ys : List Nat) (s : State) : Prop where
  good    : Good s
  heapV   : s.heapV = true
  xrV     : s.xrV = false
  newest  : ∃ x ∈ s.pq, x.toNat + 1 = s.ncnt.toNat
  room    : s.ncnt.toNat + s.pq.length = 2 * ys.length
  symbols : (s.pq.flatMap (symbolsAt s)).Perm (ys.map (BitVec.ofNat 8))
  weights : (s.pq.map fun x => (nodeAt s x).weight.toNat).sum = (ys.map fun y => (count y).toNat).sum
  leaves  : ∀ k (h : k < ys.length), nodeAt s (BitVec.ofNat 9 k) = leafOf count ys[k]
  parents : ∀ n : NodeIdx, ys.length ≤ n.toNat → n.toNat < s.ncnt.toNat → ParentOk s n

theorem Building.some {count : Nat → BitVec 32} {ys : List Nat} {s : State} (h : Building count ys s) : s.pq ≠ [] := by
  obtain ⟨x, hx, _⟩ := h.newest
  exact List.ne_nil_of_mem hx

theorem Building.count_le {count : Nat → BitVec 32} {ys : List Nat} {s : State} (h : Building count ys s) :
    ys.length ≤ s.ncnt.toNat ∧ s.ncnt.toNat < 2 * ys.length ∧ ys.length ≤ 256 := by
  have h1 := List.length_pos_iff.mpr h.some
  have hge : ∀ l : List NodeIdx, (∀ x ∈ l, x ∈ s.pq) → l.length ≤ (l.flatMap (symbolsAt s)).length := by
    intro l hl
    induction l with
    | nil => simp
    | cons x l ih =>
      obtain ⟨t, ht⟩ := mem_pq_tree (h.good.live.heap h.heapV) (hl x (by simp))
      have h2 := t.leaves_pos
      have h3 : (symbolsAt s x).length = t.leaves := by simp [symbolsAt, ht, t.symbols_length]
      have h4 := ih fun y hy => hl y (by simp [hy])
      rw [List.flatMap_cons, List.length_append, List.length_cons]; omega
  have h2 := hge s.pq fun _ hx => hx
  have h3 := h.symbols.length_eq
  rw [List.length_map] at h3
  have h4 : (s.pq.flatMap (symbolsAt s)).length ≤ 256 := by
    have hl := (h.good.live.heap h.heapV).leaves
    have hp : pending s = s.pq := by simp [pending, h.xrV]
    rw [hp] at hl
    have : (s.pq.flatMap (symbolsAt s)).length = (s.pq.map (leavesAt s)).sum := by
      rw [List.length_flatMap]
      refine congrArg List.sum (List.map_congr_left fun x hx => ?_)
      obtain ⟨t, ht⟩ := mem_pq_tree (h.good.live.heap h.heapV) hx
      simp [symbolsAt, leavesAt, ht, t.symbols_length]
    omega
  have h5 := h.room
  omega

theorem sum_le_of_mem {l : List NodeIdx} {f : NodeIdx → Nat} {x : NodeIdx} (h : x ∈ l) : f x ≤ (l.map f).sum := by
  induction l with
  | nil => simp at h
  | cons y l ih =>
    rw [List.map_cons, List.sum_cons]
    rcases List.mem_cons.mp h with rfl | h
    · omega
    · have := ih h; omega

/-- One merge keeps the loop's invariant (R170). -/
theorem Building.merged {count : Nat → BitVec 32} {ys : List Nat} {s : State} {a b : NodeIdx} (h : Building count ys s)
    (ham : a ∈ s.pq) (hbm : b ∈ s.pq) (hab : a ≠ b) (hroom : s.ncnt.toNat < nodeCap) :
    Building count ys (s.merged a b) := by
  have hh := h.good.live.heap h.heapV
  have ha := h.good.live.arena (.inl h.heapV)
  have hq := h.good.form.pq
  have hidx := ncnt_index hroom
  have hn := merged_ncnt (a := a) (b := b) hroom
  have hsplit := pq_split hq ham hbm hab
  have hnew := merged_pq (a := a) (b := b) hh hq hroom
  obtain ⟨hle, _, _⟩ := h.count_le
  obtain ⟨ta, hta⟩ := mem_pq_tree hh ham
  obtain ⟨tb, htb⟩ := mem_pq_tree hh hbm
  have htree := merged_tree h.good h.heapV ham hbm hab hroom hta htb
  have hrest : ∀ x ∈ pqDrop b (pqDrop a s.pq), x.toNat < s.ncnt.toNat := fun x hx =>
    mem_pq_lt hh (mem_pqDrop.mp (mem_pqDrop.mp hx).1).1
  have hlt := mem_pq_lt hh ham
  have hltb := mem_pq_lt hh hbm
  have hw : (parentOf (nodeAt s a) (nodeAt s b) a b).weight.toNat =
      (nodeAt s a).weight.toNat + (nodeAt s b).weight.toNat := by
    have hsum := hh.weights
    have hp : pending s = s.pq := by simp [pending, h.xrV]
    rw [hp, sum_perm_two hsplit] at hsum
    simp only [parentOf, BitVec.toNat_add]
    exact Nat.mod_eq_of_lt (by omega)
  refine ⟨merged_good h.good h.heapV ham hbm hab hroom, h.heapV, h.xrV, ?_, ?_, ?_, ?_, ?_, ?_⟩
  · exact ⟨_, hnew.mem_iff.mpr List.mem_cons_self, by rw [hidx, hn]⟩
  · have h1 := hsplit.length_eq
    have h2 := hnew.length_eq
    have h3 := h.room
    simp only [List.length_cons] at h1 h2
    rw [hn]; omega
  · refine (hnew.flatMap_right _).trans (List.Perm.trans ?_ h.symbols)
    refine List.Perm.trans ?_ (hsplit.flatMap_right _).symm
    simp only [List.flatMap_cons]
    have e1 : symbolsAt (s.merged a b) (s.ncnt.setWidth 9) = symbolsAt s a ++ symbolsAt s b := by
      simp [symbolsAt, htree, hta, htb, Tree.symbols]
    have e2 : (pqDrop b (pqDrop a s.pq)).flatMap (symbolsAt (s.merged a b)) =
        (pqDrop b (pqDrop a s.pq)).flatMap (symbolsAt s) := by
      rw [List.flatMap_def, List.flatMap_def]
      refine congrArg List.flatten (List.map_congr_left fun x hx => ?_)
      simp [symbolsAt, merged_treeAt_old ha _ (hrest x hx)]
    rw [e1, e2, List.append_assoc]
  · rw [(hnew.map _).sum_eq, ← h.weights, sum_perm_two hsplit, List.map_cons, List.sum_cons, merged_nodeAt_new hidx, hw,
      List.map_congr_left fun x hx => by rw [merged_nodeAt_old (Nat.ne_of_lt (hrest x hx))]]
    omega
  · intro k hk
    have hkk : (BitVec.ofNat 9 k).toNat = k := by
      have := (h.count_le).2.2
      rw [BitVec.toNat_ofNat]; omega
    rw [merged_nodeAt_old (by rw [hkk]; omega)]
    exact h.leaves k hk
  · intro n h1 h2
    rw [hn] at h2
    by_cases hc : n.toNat = s.ncnt.toNat
    · unfold ParentOk
      rw [merged_nodeAt_new hc]
      refine ⟨rfl, by simp only [parentOf]; omega, by simp only [parentOf]; omega, hab, ?_⟩
      rw [hw]
      simp only [parentOf]
      rw [merged_nodeAt_old (Nat.ne_of_lt hlt), merged_nodeAt_old (Nat.ne_of_lt hltb)]
    · have hp := h.parents n h1 (by omega)
      unfold ParentOk at hp ⊢
      rw [merged_nodeAt_old hc]
      obtain ⟨p1, p2, p3, p4, p5⟩ := hp
      refine ⟨p1, p2, p3, p4, ?_⟩
      rw [merged_nodeAt_old (by omega), merged_nodeAt_old (by omega)]
      exact p5

/-- The loop of R174 runs `|PQ| − 1` merges and ends with one node. -/
theorem mergeLoop_building {count : Nat → BitVec 32} {ys : List Nat} {fuel : Nat} {s : State} (h : Building count ys s)
    (hf : s.pq.length ≤ fuel + 1) :
    ∃ t r, mergeLoop fuel s = .done t ∧ Building count ys t ∧ t.pq = [r] := by
  induction fuel generalizing s with
  | zero =>
    refine ⟨s, ?_⟩
    rcases hq : s.pq with _ | ⟨x, _ | ⟨y, q⟩⟩
    · exact absurd hq h.some
    · exact ⟨x, rfl, h, rfl⟩
    · rw [hq] at hf; simp at hf
  | succ fuel ih =>
    have hsz := (h.good.live.heap h.heapV).size
    unfold mergeLoop
    by_cases hc : 1 < s.hsize.toNat
    · rw [if_pos hc]
      rcases merge_cases h.good h.heapV with ⟨hlt, _⟩ | ⟨a, b, ham, hbm, hab, _, _, hroom, hd⟩
      · omega
      · rw [hd, Res.done_bind]
        have hb := h.merged ham hbm hab hroom
        refine ih hb ?_
        have h1 := hb.room
        have h2 := h.room
        rw [merged_ncnt hroom] at h1
        omega
    · rw [if_neg hc]
      rcases hq : s.pq with _ | ⟨x, _ | ⟨y, q⟩⟩
      · exact absurd hq h.some
      · exact ⟨s, x, rfl, h, hq⟩
      · rw [hq] at hsz; simp only [List.length_cons] at hsz; omega

/-! ## PQBUILD and TBUILD -/

/-- The state PQBUILD makes (41_priority_queue.md R154). -/
def State.queued (s : State) : State :=
  { s with
    node := Memory.ofList ((presentSymbols (freqAt s)).map (leafOf (freqAt s)))
    ncnt := BitVec.ofNat 10 (presentSymbols (freqAt s)).length
    pq := (List.range (presentSymbols (freqAt s)).length).map (BitVec.ofNat 9)
    hsize := BitVec.ofNat 9 (presentSymbols (freqAt s)).length
    heapV := true, treeV := false, xrV := false }

theorem flatMap_single {α β : Type} (l : List α) (f : α → β) : (l.flatMap fun a => [f a]) = l.map f := by
  induction l with
  | nil => rfl
  | cons a l ih => rw [List.flatMap_cons, ih]; rfl

theorem pqbuild_done {s : State} (h : s.freqV = true) : pqbuild s = .done s.queued := by
  unfold pqbuild
  rw [h]; rfl

theorem queued_ncnt (s : State) : s.queued.ncnt.toNat = (presentSymbols (freqAt s)).length := by
  have := present_length (freqAt s)
  simp only [State.queued, BitVec.toNat_ofNat]; omega

theorem queued_nodeAt {s : State} {k : Nat} (h : k < (presentSymbols (freqAt s)).length) :
    nodeAt s.queued (BitVec.ofNat 9 k) = leafOf (freqAt s) (presentSymbols (freqAt s))[k] := by
  have := present_length (freqAt s)
  have hk : (BitVec.ofNat 9 k).toNat = k := by rw [BitVec.toNat_ofNat]; omega
  simp only [nodeAt, hk]
  simp [State.queued, h]

/-- PQBUILD starts a build (R174). -/
theorem queued_building {s : State} (hs : Good s) (hv : s.freqV = true) (hne : presentSymbols (freqAt s) ≠ []) :
    Building (freqAt s) (presentSymbols (freqAt s)) s.queued := by
  have hg := ((pqbuild_keeps s hs).2 _ (pqbuild_done hv)).1
  have hlen := present_length (freqAt s)
  have hpos := List.length_pos_iff.mpr hne
  have hn := queued_ncnt s
  have hidx : ∀ k < (presentSymbols (freqAt s)).length, (BitVec.ofNat 9 k).toNat = k := fun k hk => by
    rw [BitVec.toNat_ofNat]; omega
  have htree : ∀ k (hk : k < (presentSymbols (freqAt s)).length), treeAt s.queued treeLevels (BitVec.ofNat 9 k) =
      .done (.leaf (BitVec.ofNat 8 ((presentSymbols (freqAt s))[k]))) := fun k hk => by
    refine treeAt_eq_done.mpr ⟨by rw [hidx k hk]; simp only [nodeCap]; omega, .inl ?_⟩
    rw [queued_nodeAt hk]; exact ⟨rfl, rfl⟩
  have hpq : s.queued.pq = (List.range (presentSymbols (freqAt s)).length).map (BitVec.ofNat 9) := rfl
  refine ⟨hg, rfl, rfl, ?_, ?_, ?_, ?_, fun k hk => queued_nodeAt hk, fun n h1 h2 => ?_⟩
  · refine ⟨BitVec.ofNat 9 ((presentSymbols (freqAt s)).length - 1), ?_, ?_⟩
    · rw [hpq]; exact List.mem_map_of_mem (List.mem_range.mpr (by omega))
    · rw [hidx _ (by omega), hn]; omega
  · rw [hn, hpq, List.length_map, List.length_range]; omega
  · refine List.Perm.of_eq ?_
    rw [hpq, List.flatMap_map, List.flatMap_def]
    refine (congrArg List.flatten (List.map_congr_left (g := fun k => [BitVec.ofNat 8 ((presentSymbols (freqAt s))[k]?.getD 0)])
      fun k hk => ?_)).trans ?_
    · have hk := List.mem_range.mp hk
      simp [symbolsAt, htree k hk, Tree.symbols, hk]
    · rw [← List.flatMap_def, flatMap_single]
      refine List.ext_getElem (by simp) fun k h1 h2 => ?_
      have : k < (presentSymbols (freqAt s)).length := by simpa using h2
      simp [this]
  · rw [hpq, List.map_map]
    refine congrArg List.sum (List.ext_getElem (by simp) fun k h1 h2 => ?_)
    have hk : k < (presentSymbols (freqAt s)).length := by simpa using h2
    simp only [List.getElem_map, List.getElem_range, Function.comp_apply]
    rw [queued_nodeAt hk]
    rfl
  · rw [hn] at h2; omega

/-- What TBUILD leaves (R174, R177). -/
structure Built (count : Nat → BitVec 32) (ys : List Nat) (s : State) : Prop where
  good    : Good s
  tree    : ∃ t, rootTree s = .done t ∧ t.symbols.Perm (ys.map (BitVec.ofNat 8))
  ncnt    : s.ncnt.toNat + 1 = 2 * ys.length
  root    : s.root.toNat + 2 = 2 * ys.length
  cur     : s.cur = s.root
  pq      : s.pq = []
  hsize   : s.hsize = 0
  weight  : (nodeAt s s.root).weight.toNat = (ys.map fun y => (count y).toNat).sum
  leaves  : ∀ k (h : k < ys.length), nodeAt s (BitVec.ofNat 9 k) = leafOf count ys[k]
  parents : ∀ n : NodeIdx, ys.length ≤ n.toNat → n.toNat < s.ncnt.toNat → ParentOk s n

theorem troot_building {count : Nat → BitVec 32} {ys : List Nat} {s : State} {r : NodeIdx} (h : Building count ys s)
    (hr : s.pq = [r]) : ∃ t, troot s = .done t ∧ Built count ys t := by
  have hsz := (h.good.live.heap h.heapV).size
  rcases troot_cases h.good h.heapV with ⟨he, _⟩ | ⟨hl, _⟩ | ⟨x, hx, hd⟩
  · rw [hr] at he; cases he
  · rw [hr] at hl; simp at hl
  · have hxr : x = r := by rw [hr] at hx; cases hx; rfl
    subst hxr
    refine ⟨_, hd, ?_⟩
    have hroom := h.room
    obtain ⟨y, hy, hyn⟩ := h.newest
    rw [hr] at hy hroom hsz
    simp only [List.length_singleton] at hroom hsz
    rw [List.mem_singleton] at hy
    subst hy
    have hnode : ∀ i, nodeAt { s.tookMin y with root := y, cur := y, heapV := false, treeV := true } i = nodeAt s i :=
      fun _ => rfl
    have hsym := h.symbols
    have hw := h.weights
    rw [hr] at hsym hw
    simp only [List.flatMap_cons, List.flatMap_nil, List.append_nil, List.map_cons, List.map_nil, List.sum_cons,
      List.sum_nil, Nat.add_zero] at hsym hw
    obtain ⟨tr, ht⟩ := mem_pq_tree (h.good.live.heap h.heapV) (x := y) (by simp [hr])
    refine ⟨((troot_keeps s h.good).2 _ hd).1, ⟨tr, ?_, ?_⟩, ?_, ?_, rfl, ?_, ?_, ?_, ?_, ?_⟩
    · exact (treeAt_same (s := s) (s' := { s.tookMin y with root := y, cur := y, heapV := false, treeV := true }) rfl rfl
        treeLevels y).trans ht
    · simpa [symbolsAt, ht] using hsym
    · change s.ncnt.toNat + 1 = _; omega
    · change y.toNat + 2 = _; omega
    · simp [State.tookMin, hr, pqDrop]
    · change s.hsize - 1 = 0
      apply BitVec.eq_of_toNat_eq
      rw [BitVec.toNat_sub, hsz]
      rfl
    · exact hw
    · exact h.leaves
    · exact h.parents

/-- TBUILD completes on a non-empty frequency table (R174). -/
theorem tbuild_built {s : State} (hs : Good s) (hv : s.freqV = true) (hd : s.dsym ≠ 0) :
    ∃ t u, mergeLoop (presentSymbols (freqAt s)).length s.queued = .done u ∧ troot u = .done t ∧ tbuild s = .done t ∧
      Built (freqAt s) (presentSymbols (freqAt s)) t := by
  have hlen := present_length (freqAt s)
  have hne : presentSymbols (freqAt s) ≠ [] := by
    intro e
    have := (hs.live.freq hv).dsym
    rw [e] at this
    exact hd (BitVec.eq_of_toNat_eq (by simpa using this))
  have hb := queued_building hs hv hne
  have hsize : s.queued.hsize.toNat = (presentSymbols (freqAt s)).length := by
    simp only [State.queued, BitVec.toNat_ofNat]; omega
  obtain ⟨u, r, h1, h2, h3⟩ := mergeLoop_building (fuel := (presentSymbols (freqAt s)).length) hb
    (by simp [State.queued])
  obtain ⟨t, h4, h5⟩ := troot_building h2 h3
  refine ⟨t, u, h1, h4, ?_, h5⟩
  unfold tbuild
  rw [hv, need_true, Res.done_bind, if_neg hd, pqbuild_done hv, Res.done_bind, hsize, h1, Res.done_bind, h4]

end Sys2Proof.Machine
end

