-- ==== Sys2Proof/Laws/Compress.lean ====
section
/-!
SUPPORT. The encoder and COMP (45_encoder.md R221 to R226): ENC appends the codes of the input bytes; COMP appends the container
of the input to an empty output.
-/

namespace Sys2Proof.Machine

open Sys2Proof.Config

/-! ## ENC -/

theorem outAppendAll_append (st : Stage) (as bs : List Byte) (s : State) :
    outAppendAll st (as ++ bs) s = (outAppendAll st as s).bind (outAppendAll st bs) := by
  induction as generalizing s with
  | nil => rfl
  | cons a as ih =>
    simp only [List.cons_append, outAppendAll]
    rw [Res.bind_assoc]
    exact Res.bind_congr fun t _ => ih t

/-- The bit symbols of an input byte's code (R221). -/
def bitsOf (s : State) (y : Byte) : List Byte := (pathOfCode (codeAt s y)).map symbolOfBit

theorem codeAt_congr {s t : State} (h1 : t.code = s.code) (h2 : t.freeCount = s.freeCount) (y : Byte) :
    codeAt t y = codeAt s y := by
  simp [codeAt, h1, h2]

theorem codeAt_append {s t : State} {st : Stage} {bs : List Byte} (h : outAppendAll st bs s = .done t) (y : Byte) :
    codeAt t y = codeAt s y := by
  rw [outAppendAll_frame h]; rfl

/-- Input bytes that all have codes: ENC appends the codes (R221, R222). -/
theorem encBytes_valid {s : State} {i : Nat} {ys : List Byte}
    (h : ∀ y ∈ ys, (codeAt s y).valid = true ∧ (codeAt s y).len.toNat ≤ maxLen) :
    encBytes i ys s = outAppendAll .enc (ys.flatMap (bitsOf s)) s := by
  induction ys generalizing i s with
  | nil => rfl
  | cons y ys ih =>
    obtain ⟨h1, h2⟩ := h y (by simp)
    have hone : encByte i y s = outAppendAll .enc (bitsOf s y) s := by
      unfold encByte
      simp only [h1, reduceCtorEq, if_false]
      rw [if_neg (by omega)]
      rfl
    simp only [encBytes, List.flatMap_cons]
    rw [hone, outAppendAll_append]
    refine Res.bind_congr fun t ht => ?_
    have hc := codeAt_append ht
    rw [ih fun z hz => by rw [hc]; exact h z (by simp [hz])]
    congr 2
    funext z
    simp [bitsOf, hc]

theorem encBytes_append (i : Nat) (as bs : List Byte) (s : State) :
    encBytes i (as ++ bs) s = (encBytes i as s).bind (encBytes (i + as.length) bs) := by
  induction as generalizing i s with
  | nil => rfl
  | cons a as ih =>
    simp only [List.cons_append, encBytes]
    rw [Res.bind_assoc]
    refine Res.bind_congr fun t _ => ?_
    rw [ih, List.length_cons, show i + 1 + as.length = i + (as.length + 1) by omega]

/-- An input byte without a code (R221). -/
theorem encByte_unknown {s : State} {i : Nat} {y : Byte} (h : (codeAt s y).valid = false) :
    encByte i y s = .raised .unknownSymbol .enc (some (BitVec.ofNat 32 i)) := by
  unfold encByte
  simp [h]

/-! ## COMP -/

theorem mem_inputBytes_symbols {bs : List Byte} (hlen : bs.length < 2 ^ 32) (y : Byte) :
    y ∈ (presentSymbols (countOf bs)).map (BitVec.ofNat 8) ↔ y ∈ bs := by
  have hc : ∀ k, countOf bs k ≠ 0 ↔ BitVec.ofNat 8 k ∈ bs := fun k => by
    rw [← List.count_pos_iff]
    have hle := List.count_le_length (a := BitVec.ofNat 8 k) (l := bs)
    unfold countOf
    constructor
    · intro h
      refine Nat.pos_of_ne_zero fun e => h ?_
      rw [e]; rfl
    · intro h e
      have := congrArg BitVec.toNat e
      rw [BitVec.toNat_ofNat, Nat.mod_eq_of_lt (by omega)] at this
      simp at this
      omega
  simp only [presentSymbols, List.mem_map, List.mem_filter, List.mem_range, decide_eq_true_eq]
  constructor
  · rintro ⟨k, ⟨_, hk⟩, rfl⟩; exact (hc k).mp hk
  · intro h
    exact ⟨y.toNat, ⟨y.isLt, (hc _).mpr (by simpa using h)⟩, by simp⟩

theorem presentSymbols_nodup (count : Nat → BitVec 32) : ((presentSymbols count).map (BitVec.ofNat 8)).Nodup := by
  refine List.Nodup.map_on (fun a ha b hb e => ?_) (List.nodup_range.filter _)
  have ha := List.mem_range.mp (List.mem_filter.mp ha).1
  have hb := List.mem_range.mp (List.mem_filter.mp hb).1
  have := congrArg BitVec.toNat e
  simp only [BitVec.toNat_ofNat, nsym] at *
  omega

/-- The state FSCAN makes (40_buffers_freq.md R136). -/
def State.scanned (s : State) : State :=
  { s with
    freq := freqTable (inputBytes s)
    dsym := BitVec.ofNat 9 (presentSymbols (countOf (inputBytes s))).length
    freqV := true }

theorem fscan_done {s : State} (h : s.ilen.toNat ≤ s.params.inCap) : fscan s = .done s.scanned := by
  unfold fscan
  rw [scanInput_done h]; rfl

theorem scanned_freqAt {s : State} {y : Nat} (hy : y < 256) : freqAt s.scanned y = countOf (inputBytes s) y := by
  simp [freqAt, State.scanned, freqTable_read hy]

theorem scanned_present (s : State) : presentSymbols (freqAt s.scanned) = presentSymbols (countOf (inputBytes s)) := by
  refine List.filter_congr fun y hy => ?_
  rw [scanned_freqAt (List.mem_range.mp hy)]

theorem scanned_dsym (s : State) : s.scanned.dsym.toNat = (presentSymbols (countOf (inputBytes s))).length := by
  have := present_length (countOf (inputBytes s))
  simp only [State.scanned, BitVec.toNat_ofNat]; omega

theorem present_ne_nil {bs : List Byte} (h : bs ≠ []) (hlen : bs.length < 2 ^ 32) : presentSymbols (countOf bs) ≠ [] := by
  intro e
  obtain ⟨b, hb⟩ := List.exists_mem_of_ne_nil _ h
  have := (mem_inputBytes_symbols hlen b).mpr hb
  rw [e] at this
  simp at this

/-- The state CGEN makes (43_code_generator.md R190). -/
def State.coded (tr : Tree) (s : State) : State := { s with code := codeTable tr, codeV := true }

theorem cgen_done {s : State} {tr : Tree} (hv : s.treeV = true) (ht : rootTree s = .done tr) :
    cgen s = .done (s.coded tr) := by
  unfold cgen
  rw [hv, need_true, Res.done_bind, ht]; rfl

/-- The tables COMP makes, before it writes any output: `u` is the state after FSCAN, TBUILD and CGEN. -/
structure Tabled (s u : State) (tr : Tree) : Prop where
  good    : Good u
  frame   : u = { s.clearOut with freq := u.freq, dsym := u.dsym, freqV := true, node := u.node, ncnt := u.ncnt, pq := [], hsize := 0, root := u.root, cur := u.root, heapV := false, treeV := true, xrV := false, code := codeTable tr, codeV := true }
  tree    : rootTree u = .done tr
  symbols : ∀ y, y ∈ tr.symbols ↔ y ∈ inputBytes s
  nodup   : tr.symbols.Nodup
  dsym    : u.dsym.toNat = tr.leaves
  ncnt    : u.ncnt.toNat + 1 = 2 * tr.leaves
  root    : u.root.toNat + 2 = 2 * tr.leaves

theorem Tabled.depth {s u : State} {tr : Tree} (h : Tabled s u tr) : tr.depth ≤ maxLen := by
  have := treeAt_depth h.tree
  simp only [treeLevels, maxLen] at *; omega

theorem Tabled.codeAt_mem {s u : State} {tr : Tree} (h : Tabled s u tr) {e : Byte × List Bool} (he : e ∈ tr.codes) :
    codeAt u e.1 = codeOfPath e.2 ∧ e.2.length ≤ maxLen := by
  have hl := tr.codes_length he
  have hd := h.depth
  refine ⟨?_, by simp only [maxLen] at *; omega⟩
  have hc : u.code = codeTable tr := by rw [h.frame]
  simp only [codeAt, hc, codeTable_mem h.nodup he]
  rfl

theorem Tabled.path {s u : State} {tr : Tree} (h : Tabled s u tr) {e : Byte × List Bool} (he : e ∈ tr.codes) :
    pathOfCode (codeAt u e.1) = e.2 := by
  obtain ⟨h1, h2⟩ := h.codeAt_mem he
  rw [h1, pathOfCode_codeOfPath h2]

/-- Every input byte has a code: it is the symbol of a leaf (R225). -/
theorem Tabled.code_of_input {s u : State} {tr : Tree} (h : Tabled s u tr) {y : Byte} (hy : y ∈ inputBytes s) :
    ∃ p, (y, p) ∈ tr.codes := by
  have := (h.symbols y).mpr hy
  rw [← tr.codes_symbols] at this
  obtain ⟨⟨z, p⟩, he, rfl⟩ := List.mem_map.mp this
  exact ⟨p, he⟩

/-- COMP on a non-empty input makes its tables and then appends the container's three parts (R225). -/
theorem comp_tabled {s : State} (hs : Good s) (hne : s.ilen ≠ 0) :
    ∃ u tr, Tabled s u tr ∧
      comp s = (tser u).bind fun v => (dlmw v).bind enc := by
  have hb := hs.live.buffers
  have hlen : (inputBytes s).length < 2 ^ 32 := by rw [inputBytes_length]; exact s.ilen.isLt
  have hin : inputBytes s ≠ [] := by
    intro e
    have := congrArg List.length e
    rw [inputBytes_length] at this
    exact hne (BitVec.eq_of_toNat_eq (by simpa using this))
  have hgc := clearOut_good hs
  have hg1 := ((fscan_keeps _ hgc).2 _ (fscan_done hb.ilen)).1
  have hcb : inputBytes s.clearOut = inputBytes s := inputBytes_congr rfl rfl rfl
  have hd : s.clearOut.scanned.dsym ≠ 0 := by
    intro e
    have := scanned_dsym s.clearOut
    rw [e, hcb] at this
    exact present_ne_nil hin hlen (List.length_eq_zero_iff.mp (by simpa using this.symm))
  obtain ⟨t, w, _, _, htb, hbt⟩ := tbuild_built hg1 rfl hd
  have hft := tbuild_frame htb
  obtain ⟨tr, htr, hperm⟩ := hbt.tree
  rw [scanned_present, hcb] at hperm
  have hleaves : tr.leaves = (presentSymbols (countOf (inputBytes s))).length := by
    have := hperm.length_eq
    rwa [tr.symbols_length, List.length_map] at this
  have hcg := cgen_done (show t.treeV = true by rw [hft]) htr
  have hgu := ((cgen_keeps t hbt.good).2 _ hcg).1
  have e1 : t.freq = s.clearOut.scanned.freq := by rw [hft]
  have e2 : t.dsym = s.clearOut.scanned.dsym := by rw [hft]
  refine ⟨t.coded tr, tr, ⟨hgu, ?_, ?_, ?_, ?_, ?_, ?_, ?_⟩, ?_⟩
  · have h1 := hbt.cur
    have h2 := hbt.pq
    have h3 := hbt.hsize
    rw [h1, h2, h3] at hft
    refine (congrArg (State.coded tr) hft).trans ?_
    rw [show (t.coded tr).freq = s.clearOut.scanned.freq from e1, show (t.coded tr).dsym = s.clearOut.scanned.dsym from e2]
    rfl
  · exact (treeAt_same (s := t) (s' := t.coded tr) rfl rfl treeLevels t.root).trans htr
  · intro y
    rw [hperm.mem_iff, mem_inputBytes_symbols hlen]
  · exact hperm.nodup_iff.mpr (presentSymbols_nodup _)
  · rw [hleaves, ← hcb, ← scanned_dsym]
    exact congrArg BitVec.toNat e2
  · have := hbt.ncnt
    rw [scanned_present, hcb] at this
    rw [hleaves]; exact this
  · have := hbt.root
    rw [scanned_present, hcb] at this
    rw [hleaves]; exact this
  · unfold comp
    rw [fscan_done (s := s.clearOut) hb.ilen, Res.done_bind, htb, Res.done_bind, hcg, Res.done_bind]

/-- The bytes ENC appends in COMP are the bit stream of the container (R222, 30_encoding.md R114). -/
theorem flatMap_bitsOf (u : State) (ys : List Byte) :
    ys.flatMap (bitsOf u) = (ys.flatMap fun y => pathOfCode (codeAt u y)).map symbolOfBit := by
  rw [List.map_flatMap]; rfl

/-- COMP writes the container, or runs into the end of the output buffer (R225). -/
theorem comp_container {s : State} (hs : Good s) (hne : s.ilen ≠ 0) :
    ∃ u tr, Tabled s u tr ∧
      (((container s.params.delim tr ((inputBytes s).flatMap fun y => pathOfCode (codeAt u y))).length ≤ s.params.outCap ∧
        comp s = .done (u.pushAll (container s.params.delim tr ((inputBytes s).flatMap fun y => pathOfCode (codeAt u y))))) ∨
      (s.params.outCap < (container s.params.delim tr ((inputBytes s).flatMap fun y => pathOfCode (codeAt u y))).length ∧
        ∃ st ∈ [Stage.ser, .delim, .enc], comp s = .raised .io st (some (BitVec.ofNat 32 s.params.outCap)))) := by
  obtain ⟨u, tr, hT, hc⟩ := comp_tabled hs hne
  refine ⟨u, tr, hT, ?_⟩
  have hf := hT.frame
  have hp := params_bounds hs.live.buffers.params
  have ep : u.params = s.params := by rw [hf]; rfl
  have eo : u.olen.toNat = 0 := by rw [hf]; rfl
  have et : u.treeV = true := by rw [hf]
  have ec : u.codeV = true := by rw [hf]
  have ei : inputBytes u = inputBytes s := by
    refine inputBytes_congr ?_ ?_ ?_ <;> rw [hf] <;> rfl
  have eil : u.ilen.toNat ≤ u.params.inCap := by
    rw [ep, show u.ilen = s.ilen by rw [hf]; rfl]; exact hs.live.buffers.ilen
  have hser : tser u = outAppendAll .ser tr.ser u := by
    unfold tser
    rw [et, need_true, Res.done_bind, hT.tree, Res.done_bind]
  have henc : ∀ v, (∃ st bs w, outAppendAll st bs u = .done w ∧ ∃ st' bs', outAppendAll st' bs' w = .done v) →
      enc v = outAppendAll .enc (((inputBytes s).flatMap fun y => pathOfCode (codeAt u y)).map symbolOfBit) v := by
    rintro v ⟨st, bs, w, hw, st', bs', hv⟩
    have hcw := codeAt_append hw
    have hcv := codeAt_append hv
    have hfv : v = { u with obuf := v.obuf, olen := v.olen } := by rw [outAppendAll_frame hv, outAppendAll_frame hw]
    unfold enc
    rw [show v.codeV = true by rw [hfv]; exact ec, need_true, Res.done_bind,
      scanInput_done (by rw [hfv]; exact eil), Res.done_bind,
      show inputBytes v = inputBytes s by rw [← ei]; refine inputBytes_congr ?_ ?_ ?_ <;> rw [hfv]]
    rw [encBytes_valid fun y hy => ?_]
    · rw [← flatMap_bitsOf]
      congr 2
      funext y
      simp [bitsOf, hcv, hcw]
    · obtain ⟨p, hp⟩ := hT.code_of_input hy
      obtain ⟨h1, h2⟩ := hT.codeAt_mem hp
      rw [hcv, hcw, h1]
      exact ⟨rfl, by rw [codeOfPath_len h2]; exact h2⟩
  have hlen : (container s.params.delim tr ((inputBytes s).flatMap fun y => pathOfCode (codeAt u y))).length =
      tr.ser.length + s.params.delim.length +
        (((inputBytes s).flatMap fun y => pathOfCode (codeAt u y)).map symbolOfBit).length := by
    simp [container, Nat.add_assoc]
  obtain ⟨bits, hbits⟩ : ∃ b, b = ((inputBytes s).flatMap fun y => pathOfCode (codeAt u y)).map symbolOfBit := ⟨_, rfl⟩
  have hcontainer : container s.params.delim tr ((inputBytes s).flatMap fun y => pathOfCode (codeAt u y)) =
      tr.ser ++ s.params.delim ++ bits := by rw [hbits]; rfl
  rw [← hbits] at henc hlen
  rw [hc, hser]
  rcases outAppendAll_cases (st := .ser) (bs := tr.ser) (s := u) (by rw [ep]; exact hp.2.2.2.1) (by omega) with
    ⟨h1, h2⟩ | ⟨h1, h2⟩
  · rw [h2, Res.done_bind]
    have o1 : (u.pushAll tr.ser).olen.toNat = tr.ser.length := by
      rw [State.pushAll_olen_toNat (by rw [ep] at h1; omega), eo, Nat.zero_add]
    have p1 : (u.pushAll tr.ser).params = s.params := by rw [State.pushAll_frame]; exact ep
    unfold dlmw
    rw [p1]
    rcases outAppendAll_cases (st := .delim) (bs := s.params.delim) (s := u.pushAll tr.ser) (by rw [p1]; exact hp.2.2.2.1)
      (by rw [p1, o1]; rw [ep] at h1; omega) with ⟨h3, h4⟩ | ⟨h3, h4⟩
    · rw [h4, Res.done_bind, henc _ ⟨_, _, _, h2, _, _, h4⟩]
      have o2 : ((u.pushAll tr.ser).pushAll s.params.delim).olen.toNat = tr.ser.length + s.params.delim.length := by
        rw [State.pushAll_olen_toNat (by rw [p1] at h3; omega), o1]
      have p2 : ((u.pushAll tr.ser).pushAll s.params.delim).params = s.params := by rw [State.pushAll_frame]; exact p1
      rcases outAppendAll_cases (st := .enc) (bs := bits) (s := (u.pushAll tr.ser).pushAll s.params.delim)
        (by rw [p2]; exact hp.2.2.2.1) (by rw [p2, o2]; rw [p1, o1] at h3; omega) with ⟨h5, h6⟩ | ⟨h5, h6⟩
      · refine .inl ⟨by rw [hlen]; rw [p2, o2] at h5; omega, ?_⟩
        rw [h6, hcontainer, State.pushAll_append, State.pushAll_append]
      · refine .inr ⟨by rw [hlen]; rw [p2, o2] at h5; omega, .enc, by simp, ?_⟩
        rw [h6, p2]
    · refine .inr ⟨by rw [hlen]; rw [p1, o1] at h3; omega, .delim, by simp, ?_⟩
      rw [h4, p1]; rfl
  · refine .inr ⟨by rw [hlen]; rw [ep, eo] at h1; omega, .ser, by simp, ?_⟩
    rw [h2, ep]; rfl

end Sys2Proof.Machine
end

