-- ==== Sys2Proof/Laws/Decompress.lean ====
section
/-!
SUPPORT. The decoder side as a whole (46_decoder.md R240, R248, R250): DLMS where the delimiter stands at the cursor, DEC on a
sequence of codes, and DECOMP on a container.
-/

namespace Sys2Proof.Machine

open Sys2Proof.Config

theorem findDelim_here {d bs : List Byte} {p : Nat} (h : d <+: bs) : findDelim d p bs = some p := by
  cases bs with
  | nil => simp only [findDelim]; rw [if_pos (List.isPrefixOf_iff_prefix.mpr h)]
  | cons b bs => simp only [findDelim]; rw [if_pos (List.isPrefixOf_iff_prefix.mpr h)]

/-- DLMS where the input continues with the delimiter (R240). -/
theorem dlms_here {s : State} {tail : List Byte} (h : s.ilen.toNat ≤ s.params.inCap)
    (hr : (inputBytes s).drop s.ipos.toNat = s.params.delim ++ tail) :
    dlms s = .done { s with ipos := BitVec.ofNat 32 (s.ipos.toNat + s.params.delim.length) } := by
  unfold dlms
  rw [restBytes_done h, Res.done_bind, hr, findDelim_here (List.prefix_append _ _)]

/-- DEC on a sequence of whole codes, from the root (R248). -/
theorem dec_codes {s : State} {tr : Tree} {es : List (Byte × List Bool)} (hs : Good s) (hv : s.treeV = true)
    (ht : rootTree s = .done tr) (hcur : s.cur = s.root) (hes : ∀ e ∈ es, e ∈ tr.codes)
    (hr : (inputBytes s).drop s.ipos.toNat = es.flatMap fun e => e.2.map symbolOfBit)
    (hroom : s.olen.toNat + es.length ≤ s.params.outCap) :
    dec s = .done { s.pushAll (es.map Prod.fst) with ipos := s.ilen } := by
  have hb := hs.live.buffers
  have hp := params_bounds hb.params
  unfold dec
  rw [hv, need_true, Res.done_bind, restBytes_done hb.ilen, Res.done_bind, hr]
  have := decBytes_codes (rest := []) ht hes hcur hp.2.2.2.1 hroom
  rw [List.append_nil] at this
  rw [this]
  simp only [decBytes, Res.done_bind, atRoot]
  have hfr := State.pushAll_frame (es.map Prod.fst) s
  refine (if_pos (show s.root = (s.pushAll (es.map Prod.fst)).root by rw [hfr])).trans ?_
  have hl := congrArg List.length hr
  rw [List.length_drop, inputBytes_length] at hl
  have hipos : (s.pushAll (es.map Prod.fst)).ipos + BitVec.ofNat 32 (es.flatMap fun e => e.2.map symbolOfBit).length = s.ilen := by
    rw [show (s.pushAll (es.map Prod.fst)).ipos = s.ipos by rw [hfr], ← hl]
    apply BitVec.eq_of_toNat_eq
    have h1 := hb.ipos
    have h2 := s.ilen.isLt
    rw [BitVec.toNat_add, BitVec.toNat_ofNat]; omega
  simp only [State.walked, hipos]
  rw [show s.root = (s.pushAll (es.map Prod.fst)).cur by rw [hfr]; exact hcur.symm]

/-- DECOMP on a container (R250). -/
theorem decomp_container {s : State} {tr : Tree} {es : List (Byte × List Bool)} (hs : Good s) (hsize : tr.size ≤ nodeCap)
    (hes : ∀ e ∈ es, e ∈ tr.codes) (hroom : es.length ≤ s.params.outCap)
    (hin : inputBytes s = container s.params.delim tr (es.flatMap Prod.snd)) :
    ∃ t, decomp s = .done t ∧ outputBytes t = es.map Prod.fst ∧ t.olen.toNat = es.length ∧ rootTree t = .done tr ∧
      t = { s with obuf := t.obuf, olen := t.olen, ipos := s.ilen, node := t.node, ncnt := t.ncnt, root := 0, cur := 0, treeV := true, heapV := false, xrV := false } := by
  have hb := hs.live.buffers
  have hp := params_bounds hb.params
  have hg0 : Good { s.clearOut with ipos := 0 } := ((irew_keeps s.clearOut (clearOut_good hs)).2 _ rfl).1
  have hi0 : inputBytes { s.clearOut with ipos := 0 } = inputBytes s := inputBytes_congr rfl rfl rfl
  have hbits : (es.flatMap Prod.snd).map symbolOfBit = es.flatMap fun e => e.2.map symbolOfBit := by
    rw [List.map_flatMap]
  rw [container, hbits, List.append_assoc] at hin
  have hlen := congrArg List.length hin
  rw [inputBytes_length, List.length_append, List.length_append] at hlen
  have hlt := s.ilen.isLt
  have h1 := tdes_of_ser (s := { s.clearOut with ipos := 0 }) (tail := s.params.delim ++ es.flatMap fun e => e.2.map symbolOfBit)
    hb.ilen (by rw [hi0, hin]; rfl) hsize
  obtain ⟨hg1, _⟩ := (tdes_keeps _ hg0).2 _ h1
  obtain ⟨_, _, htree⟩ := deserialized_inv (s := { s.clearOut with ipos := 0 }) hsize
  have hpos1 : ((({ s.clearOut with ipos := 0 } : State).deserialized tr).ipos).toNat = tr.ser.length := by
    rw [State.deserialized, BitVec.toNat_add, BitVec.toNat_ofNat, show (0 : BitVec 32).toNat = 0 from rfl]; omega
  have hi1 : inputBytes (({ s.clearOut with ipos := 0 } : State).deserialized tr) = inputBytes s := inputBytes_congr rfl rfl rfl
  have h2 := dlms_here (s := ({ s.clearOut with ipos := 0 } : State).deserialized tr)
    (tail := es.flatMap fun e => e.2.map symbolOfBit) hb.ilen (by
      rw [hi1, hpos1, hin, List.drop_left]; rfl)
  obtain ⟨hg2, _⟩ := (dlms_keeps _ hg1).2 _ h2
  rw [hpos1] at h2 hg2
  obtain ⟨u, hu⟩ : ∃ u : State, u = { ({ s.clearOut with ipos := 0 } : State).deserialized tr with
    ipos := BitVec.ofNat 32 (tr.ser.length + s.params.delim.length) } := ⟨_, rfl⟩
  have hpos2 : u.ipos.toNat = tr.ser.length + s.params.delim.length := by
    rw [hu]; simp only [BitVec.toNat_ofNat]; omega
  have hi2 : inputBytes u = inputBytes s := by rw [hu]; exact inputBytes_congr rfl rfl rfl
  have htu : rootTree u = .done tr := by
    rw [hu]
    exact (treeAt_same (s := ({ s.clearOut with ipos := 0 } : State).deserialized tr) (s' := { ({ s.clearOut with ipos := 0 } : State).deserialized tr with ipos := BitVec.ofNat 32 (tr.ser.length + s.params.delim.length) }) rfl rfl treeLevels 0).trans htree
  have h2' : dlms (({ s.clearOut with ipos := 0 } : State).deserialized tr) = .done u := by rw [hu]; exact h2
  have hg2' : Good u := by rw [hu]; exact hg2
  have h3 := dec_codes (s := u) (tr := tr) (es := es) hg2' (by rw [hu]; rfl) htu (by rw [hu]; rfl) hes (by
      rw [hi2, hpos2, hin, ← List.append_assoc, List.drop_left' (by simp)])
    (by rw [hu]; change (0 : BitVec 32).toNat + es.length ≤ s.params.outCap; simpa using hroom)
  have ho : u.olen.toNat = 0 := by rw [hu]; rfl
  have hcap : u.params.outCap = s.params.outCap := by rw [hu]; rfl
  have hfit : u.olen.toNat + (es.map Prod.fst).length < 2 ^ 32 := by
    rw [ho, List.length_map]; omega
  refine ⟨{ u.pushAll (es.map Prod.fst) with ipos := u.ilen }, ?_, ?_, ?_, ?_, ?_⟩
  · unfold decomp
    rw [h1, Res.done_bind, h2', Res.done_bind, h3]
  · have hob := outputBytes_pushAll hg2'.live.buffers.obuf hfit
    refine Eq.trans ?_ (hob.trans ?_)
    · rfl
    · have : outputBytes u = [] := List.length_eq_zero_iff.mp (by rw [outputBytes_length, ho])
      rw [this, List.nil_append]
  · change (u.pushAll (es.map Prod.fst)).olen.toNat = _
    rw [State.pushAll_olen_toNat hfit, ho, List.length_map, Nat.zero_add]
  · have hfr := State.pushAll_frame (es.map Prod.fst) u
    refine Eq.trans ?_ htu
    have e1 : ({ u.pushAll (es.map Prod.fst) with ipos := u.ilen } : State).root = u.root := by
      change (u.pushAll (es.map Prod.fst)).root = u.root; rw [hfr]
    unfold rootTree
    rw [e1]
    exact treeAt_same (s := u) (s' := { u.pushAll (es.map Prod.fst) with ipos := u.ilen })
      (by change (u.pushAll (es.map Prod.fst)).node = u.node; rw [hfr])
      (by change (u.pushAll (es.map Prod.fst)).freeCount = u.freeCount; rw [hfr]) treeLevels u.root
  · have hfr := State.pushAll_frame (es.map Prod.fst) u
    have e : ({ u.pushAll (es.map Prod.fst) with ipos := u.ilen } : State) =
        { u with obuf := (u.pushAll (es.map Prod.fst)).obuf, olen := (u.pushAll (es.map Prod.fst)).olen, ipos := u.ilen } := by
      conv_lhs => rw [hfr]
    have e2 : (u.pushAll (es.map Prod.fst)).node = u.node := by rw [hfr]
    have e3 : (u.pushAll (es.map Prod.fst)).ncnt = u.ncnt := by rw [hfr]
    refine e.trans ?_
    simp only [e2, e3]
    rw [hu]
    rfl

end Sys2Proof.Machine
end

