-- ==== Sys2Proof/Laws/PerInstr.lean ====
section
/-!
SUPPORT. One lemma per command: its operand is a byte, its encoding belongs to its own row of 30_encoding.md R103, and
the two fields of the word are the row's opcode and the operand (R100, R101).
-/

namespace Sys2Proof.Laws.Encoded

open Sys2Proof

/-- What a command's encoding is, field by field (R100, R103). -/
def Statement (i : Instr) : Prop :=
  i.wellFormed = true ∧ wordWellFormed (opField (encode i)) (immField (encode i)) = true ∧
    opField (encode i) = i.opcode ∧ immField (encode i) = i.operand ∧ i.opcode = i.row.pattern.extractLsb' 8 8

theorem ipush (imm : Byte) : Statement (.ipush imm) := by
  refine ⟨?_, ?_, opField_encode _, immField_encode _, by simp [Instr.opcode, Instr.row]⟩
  · simp only [Instr.wellFormed, decide_eq_true_eq]
    exact imm.isLt
  · rw [opField_encode]
    rfl

theorem iclr : Statement .iclr :=
  ⟨rfl, rfl, opField_encode _, immField_encode _, rfl⟩

theorem irew : Statement .irew :=
  ⟨rfl, rfl, opField_encode _, immField_encode _, rfl⟩

theorem oclr : Statement .oclr :=
  ⟨rfl, rfl, opField_encode _, immField_encode _, rfl⟩

theorem omov : Statement .omov :=
  ⟨rfl, rfl, opField_encode _, immField_encode _, rfl⟩

theorem fscan : Statement .fscan :=
  ⟨rfl, rfl, opField_encode _, immField_encode _, rfl⟩

theorem pqbuild : Statement .pqbuild :=
  ⟨rfl, rfl, opField_encode _, immField_encode _, rfl⟩

theorem pqins : Statement .pqins :=
  ⟨rfl, rfl, opField_encode _, immField_encode _, rfl⟩

theorem pqext : Statement .pqext :=
  ⟨rfl, rfl, opField_encode _, immField_encode _, rfl⟩

theorem merge : Statement .merge :=
  ⟨rfl, rfl, opField_encode _, immField_encode _, rfl⟩

theorem troot : Statement .troot :=
  ⟨rfl, rfl, opField_encode _, immField_encode _, rfl⟩

theorem tbuild : Statement .tbuild :=
  ⟨rfl, rfl, opField_encode _, immField_encode _, rfl⟩

theorem cgen : Statement .cgen :=
  ⟨rfl, rfl, opField_encode _, immField_encode _, rfl⟩

theorem tser : Statement .tser :=
  ⟨rfl, rfl, opField_encode _, immField_encode _, rfl⟩

theorem tdes : Statement .tdes :=
  ⟨rfl, rfl, opField_encode _, immField_encode _, rfl⟩

theorem enc : Statement .enc :=
  ⟨rfl, rfl, opField_encode _, immField_encode _, rfl⟩

theorem dlmw : Statement .dlmw :=
  ⟨rfl, rfl, opField_encode _, immField_encode _, rfl⟩

theorem comp : Statement .comp :=
  ⟨rfl, rfl, opField_encode _, immField_encode _, rfl⟩

theorem dlms : Statement .dlms :=
  ⟨rfl, rfl, opField_encode _, immField_encode _, rfl⟩

theorem dstep (imm : Byte) : Statement (.dstep imm) := by
  refine ⟨?_, ?_, opField_encode _, immField_encode _, by simp [Instr.opcode, Instr.row]⟩
  · simp only [Instr.wellFormed, decide_eq_true_eq]
    exact imm.isLt
  · rw [opField_encode]
    rfl

theorem dend : Statement .dend :=
  ⟨rfl, rfl, opField_encode _, immField_encode _, rfl⟩

theorem dec : Statement .dec :=
  ⟨rfl, rfl, opField_encode _, immField_encode _, rfl⟩

theorem decomp : Statement .decomp :=
  ⟨rfl, rfl, opField_encode _, immField_encode _, rfl⟩

end Sys2Proof.Laws.Encoded
end

