-- ==== Sys2Proof/Laws/Sequence.lean ====
section
/-!
SUPPORT. Lists of commands: what `execAll` does, and how it relates to the commands' pseudocode run one after another, which is
what a composite command does (42_tree_builder.md R174, 45_encoder.md R225, 46_decoder.md R250).
-/

namespace Sys2Proof.Machine

open Sys2Proof.Config

/-- A command that retires has run its pseudocode to the end. -/
theorem done_of {i : Instr} {s t : State} (h : exec i s = .next t) (hf : t.fault = false) : s.fault = false ∧ ∃ u, body i s = .done u ∧ t = u.retire := by
  cases hs : s.fault
  · rw [exec_eq_issue, issue_eq_next hs] at h
    rcases h with ⟨u, hu, rfl⟩ | ⟨k, st, off, _, rfl⟩
    · exact ⟨rfl, u, hu, rfl⟩
    · cases hf
  · rw [exec_eq_issue, issue_faulted hs] at h; cases h; rw [hs] at hf; cases hf

@[simp] theorem execAll_nil (s : State) : execAll [] s = .next s := rfl

/-- A list of commands runs its first command, then the rest. -/
theorem execAll_cons {i : Instr} {is : List Instr} {s t : State} (h : exec i s = .next t) : execAll (i :: is) s = execAll is t := by simp [execAll, h]
/-- Once the block has faulted, the rest of a list of commands has no effect (60_exceptions.md R276). -/
theorem execAll_faulted {is : List Instr} {s : State} (h : s.fault = true) : execAll is s = .next s := by
  induction is with
  | nil => rfl
  | cons i is ih => rw [execAll_cons (by rw [exec_eq_issue]; exact issue_faulted h)]; exact ih

/-- What a list of commands does at its first command: the rest runs, or the list ends with its fault. -/
theorem seq_done {i : Instr} {is : List Instr} {s u : State} (hs : s.fault = false) (h : execAll (i :: is) s = .next u) :
    (∃ t, body i s = .done t ∧ execAll is t.retire = .next u) ∨ (∃ k st off, body i s = .raised k st off ∧ u = s.enterFault (encode i) k st off) := by
  simp only [execAll] at h
  split at h
  · rename_i t ht
    rw [exec_eq_issue, issue_eq_next hs] at ht
    rcases ht with ⟨w, hw, rfl⟩ | ⟨k, st, off, hr, rfl⟩
    · exact .inl ⟨w, hw, h⟩
    · rw [execAll_faulted rfl] at h; cases h
      exact .inr ⟨k, st, off, hr, rfl⟩
  · cases h
  · cases h

/-- The pseudocode of a list of commands, one after another, as a composite command runs it. -/
def bodyAll : List Instr → State → Res State
  | [], s => .done s
  | i :: is, s => (body i s).bind (bodyAll is)

/-- No pseudocode reads `CIX`. -/
theorem bodyAll_cix (is : List Instr) : CixFree (bodyAll is) := by
  induction is with
  | nil => exact fun _ _ => rfl
  | cons i is ih => exact (body_cix i).bind ih

/-- A list of commands that completes keeps `FAULT` and, but for retirement, `CIX`. -/
theorem bodyAll_record {is : List Instr} {s t : State} (h : bodyAll is s = .done t) : t.fault = s.fault ∧ t.cix = s.cix := by
  induction is generalizing s with
  | nil => cases h; simp
  | cons i is ih =>
    obtain ⟨u, hu, h⟩ := Res.bind_eq_done.mp h
    obtain ⟨r1, _, _, _, _, _, r2, _⟩ := body_record hu
    rw [← r1, ← r2]; exact ih h

/-- A list of commands that answers a next state has run all its pseudocode, `CIX` counting the commands, or has faulted with
the record its pseudocode raises. -/
theorem execAll_body {is : List Instr} {s u : State} (hs : s.fault = false) (h : execAll is s = .next u) :
    (∃ t, bodyAll is s = .done t ∧ u = t.setCix (s.cix + BitVec.ofNat 32 is.length)) ∨
    (∃ k st off, bodyAll is s = .raised k st off ∧ u.fault = true ∧ u.err = k.number ∧ u.errStage = st.number ∧ u.erroffV = off.isSome ∧ u.errOff = off.getD 0) := by
  induction is generalizing s with
  | nil => cases h; exact .inl ⟨u, rfl, by simp [State.setCix]⟩
  | cons i is ih =>
    rcases seq_done hs h with ⟨t, ht, h⟩ | ⟨k, st, off, hr, rfl⟩
    · obtain ⟨r1, _, _, _, _, _, r2, _⟩ := body_record ht
      have hc : bodyAll is t.retire = (bodyAll is t).map (State.setCix (t.cix + 1)) := bodyAll_cix is (t.cix + 1) t
      rcases ih (by rw [State.retire_fault, r1]; exact hs) h with ⟨w, hw, rfl⟩ | ⟨k, st, off, hr, hrest⟩
      · rw [hc] at hw
        cases hb : bodyAll is t with
        | done w' =>
          rw [hb] at hw; cases hw
          refine .inl ⟨w', by simp only [bodyAll]; rw [ht, Res.done_bind, hb], ?_⟩
          simp only [State.setCix, State.retire_cix, r2, List.length_cons, BitVec.add_assoc, ofNat_succ32]
        | raised => rw [hb] at hw; cases hw
        | stopped => rw [hb] at hw; cases hw
      · rw [hc] at hr
        refine .inr ⟨k, st, off, ?_, hrest⟩
        simp only [bodyAll]; rw [ht, Res.done_bind]
        cases hb : bodyAll is t with
        | done w' => rw [hb] at hr; cases hr
        | raised => rw [hb] at hr; exact hr
        | stopped => rw [hb] at hr; cases hr
    · refine .inr ⟨k, st, off, ?_, rfl, rfl, rfl, rfl, rfl⟩
      simp only [bodyAll]; rw [hr]; rfl

end Sys2Proof.Machine
end

