-- ==== Sys2Proof/Tests/Slice0.lean ====
section
/-!
SUPPORT. Small tests: ill-formed terms the checks refuse, every command's decoding from a word written out from 30_encoding.md
R103, at most two one-command tests per command with results from spec/95_test_vectors.md or a rule's own example, and for each
statement with hypotheses a state that meets them (for each clause, at a boundary of its range).
-/

namespace Sys2Proof.Tests

open Sys2Proof Sys2Proof.Machine Sys2Proof.Config

set_option maxRecDepth 20000

/-! ## Helpers -/

/-- A block with small buffers and the one-byte delimiter `0A`. -/
def board (inCap outCap : Nat) : State := { State.reset with params := { inCap := inCap, outCap := outCap, delim := [0x0A] } }

/-- Run commands while they retire. -/
def run : List Instr → State → State
  | [], s => s
  | i :: is, s =>
    match body i s with
    | .done t => run is t.retire
    | .raised _ _ _ => s
    | .stopped _ => s

/-- Push bytes. -/
def push (bs : List Byte) : List Instr := bs.map .ipush

/-- What a command leaves in a part of the state. -/
def got {α : Type} (f : State → α) (i : Instr) (s : State) : Option α :=
  match exec i s with
  | .next t => some (f t)
  | .fault _ => none
  | .refused _ => none

/-- What a list of commands leaves in a part of the state. -/
def gotAll {α : Type} (f : State → α) (is : List Instr) (s : State) : Option α :=
  match execAll is s with
  | .next t => some (f t)
  | .fault _ => none
  | .refused _ => none

theorem got_next {α : Type} {f : State → α} {i : Instr} {s : State} {v : α} (h : got f i s = some v) :
    ∃ t, exec i s = .next t ∧ f t = v := by
  unfold got at h
  split at h
  · exact ⟨_, ‹_›, Option.some.inj h⟩
  · cases h
  · cases h

theorem gotAll_next {α : Type} {f : State → α} {is : List Instr} {s : State} {v : α} (h : gotAll f is s = some v) :
    ∃ t, execAll is s = .next t ∧ f t = v := by
  unfold gotAll at h
  split at h
  · exact ⟨_, ‹_›, Option.some.inj h⟩
  · cases h
  · cases h

/-- The fault record, and `CIX`. -/
structure Record where
  fault : Bool
  err   : BitVec 4
  stage : BitVec 4
  offV  : Bool
  off   : BitVec 32
  cmd   : CmdWord
  cix   : BitVec 32
deriving DecidableEq

def record (t : State) : Record := ⟨t.fault, t.err, t.errStage, t.erroffV, t.errOff, t.errCmd, t.cix⟩

theorem good_retire {s : State} (h : Good s) : Good s.retire :=
  h.buffers rfl { h.live.buffers with }

theorem good_run {is : List Instr} {s : State} (h : Good s) : Good (run is s) := by
  induction is generalizing s with
  | nil => exact h
  | cons i is ih =>
    simp only [run]
    split
    · rename_i t ht
      exact ih (good_retire ((body_keeps i s h).2 t ht).1)
    · exact h
    · exact h

theorem good_start {p : Params} (hp : paramsWellFormed p = true) : Good { State.reset with params := p } := by
  refine ⟨rfl, ⟨?_, ?_, ?_, ?_, ?_, ?_⟩, ⟨⟨hp, ?_, ?_, ?_, ?_, ?_⟩, ?_, ?_, ?_, ?_, ?_, ?_⟩⟩
  all_goals first
    | exact List.Pairwise.nil
    | exact ⟨List.Pairwise.nil, fun _ h => nomatch h⟩
    | exact Nat.zero_le _
    | exact rfl
    | (intro h; revert h; simp [State.reset])

theorem inv_of_good {s : State} (h : Good s) : Inv s := ⟨h.form, h.live.buffers.params, fun _ => h.live⟩

/-- The invariant holds on what commands make of a board after reset. -/
theorem inv_run {inCap outCap : Nat} (is : List Instr)
    (hp : paramsWellFormed { inCap := inCap, outCap := outCap, delim := [0x0A] } = true := by decide) :
    Inv (run is (board inCap outCap)) := inv_of_good (good_run (good_start hp))

theorem inv_reset_run (is : List Instr) : Inv (run is State.reset) := inv_of_good (good_run (good_start (p := defaultParams) (by decide)))

/-- A board whose arena holds leaves of these symbols and weights, with a queue and perhaps a node in hand. -/
def heap (leaves : List (Byte × BitVec 32)) (q : List NodeIdx) (hand : Option NodeIdx) : State :=
  { board 4 4 with
    heapV := true, node := Memory.ofList (leaves.map fun l => ⟨.leaf, l.1, l.2, 0, 0⟩), ncnt := BitVec.ofNat 10 leaves.length
    pq := q, hsize := BitVec.ofNat 9 q.length, xrV := hand.isSome, xr := hand.getD 0 }

/-- What `inv_heap` asks of such a board, as a check that can be run. -/
def heapOk (s : State) : Bool :=
  decide (Memory.wf s.node) && decide (pqWf s.pq) && decide (s.node.map Prod.fst = List.range s.ncnt.toNat) &&
    decide (s.ncnt.toNat ≤ nodeCap) && decide (childrenOf s.node = []) && decide (s.hsize.toNat = s.pq.length) &&
    decide (pending s).Nodup && decide (∀ x ∈ pending s, x.toNat < s.ncnt.toNat ∧ (nodeAt s x).kind = .leaf) &&
    decide ((pending s).length ≤ 256) && decide (s.ncnt.toNat + (pending s).length ≤ 512) &&
    decide (((pending s).map fun x => (nodeAt s x).weight.toNat).sum ≤ 4294967295) && decide (∀ e ∈ s.node, e.2.kind ≠ .internal)

theorem inv_heap {leaves : List (Byte × BitVec 32)} {q : List NodeIdx} {hand : Option NodeIdx}
    (h : heapOk (heap leaves q hand) = true) : Inv (heap leaves q hand) := by
  simp only [heapOk, Bool.and_eq_true, decide_eq_true_eq] at h
  obtain ⟨⟨⟨⟨⟨⟨⟨⟨⟨⟨⟨h1, h2⟩, h3⟩, h4⟩, h5⟩, h6⟩, h7⟩, h8⟩, h9⟩, h10⟩, h11⟩, h12⟩ := h
  have hb := (good_start (p := ⟨4, 4, [0x0A]⟩) (by decide)).live.buffers
  have ht : ∀ x ∈ pending (heap leaves q hand), treeAt (heap leaves q hand) treeLevels x =
      .done (.leaf (nodeAt (heap leaves q hand) x).sym) := fun x hx =>
    treeAt_eq_done.mpr ⟨by have := (h8 x hx).1; omega, .inl ⟨(h8 x hx).2, rfl⟩⟩
  have harena : ArenaInv (heap leaves q hand) :=
    { node := h3, ncnt := h4, closed := by rw [h5]; simp, strict := by rw [h5]; exact List.nodup_nil }
  have hleaves : ((pending (heap leaves q hand)).map (leavesAt (heap leaves q hand))).sum ≤ 256 := by
    have : (pending (heap leaves q hand)).map (leavesAt (heap leaves q hand)) =
        (pending (heap leaves q hand)).map fun _ => 1 := List.map_congr_left fun x hx => by simp [leavesAt, ht x hx, Tree.leaves]
    rw [this]
    simpa using h9
  have hheap : HeapInv (heap leaves q hand) :=
    { size := h6, distinct := h7, defined := fun x hx => (h8 x hx).1, roots := fun x _ => by rw [h5]; simp
      trees := fun x hx => ⟨_, ht x hx⟩, leaves := hleaves, room := h10, weights := h11
      sums := fun e he hk => absurd hk (h12 e he) }
  exact {
    form := ⟨List.Pairwise.nil, List.Pairwise.nil, List.Pairwise.nil, h1, List.Pairwise.nil, h2⟩
    params := hb.params
    live := fun _ => {
      buffers := { params := hb.params, ilen := hb.ilen, ipos := hb.ipos, olen := hb.olen, ibuf := hb.ibuf, obuf := hb.obuf }
      oneUse := fun hc => Bool.noConfusion hc.2
      freq := fun hc => Bool.noConfusion hc
      code := fun hc => Bool.noConfusion hc
      arena := fun _ => harena
      heap := fun _ => hheap
      tree := fun hc => Bool.noConfusion hc } }

/-! ## Sample inputs -/

/-- "ab". -/
def ab : List Instr := push [0x61, 0x62]

/-- "aaabbc". -/
def aaabbc : List Instr := push [0x61, 0x61, 0x61, 0x62, 0x62, 0x63]

/-- The leaves PQBUILD makes of "aaabbc" (R154's example). -/
def abc : List (Byte × BitVec 32) := [(0x61, 3), (0x62, 2), (0x63, 1)]

/-- "01a01c1b", the serialized tree of vectors V41 and V71. -/
def serTree : List Byte := [0x30, 0x31, 0x61, 0x30, 0x31, 0x63, 0x31, 0x62]

/-- The tree of "01a01c1b". -/
def tree3 : Tree := .node (.leaf 0x61) (.node (.leaf 0x63) (.leaf 0x62))

/-! ## Well-formedness -/

theorem test_wf_unassigned_opcode : wordWellFormed 0x00 0x00 = false := by decide
theorem test_wf_unassigned_opcode_ff : wordWellFormed 0xFF 0xFF = false := by decide
theorem test_wf_nonzero_operand : wordWellFormed 0x32 0x01 = false := by decide
theorem test_wf_zero_operand : wordWellFormed 0x32 0x00 = true ∧ wordWellFormed 0x01 0x00 = true := by decide
theorem test_wf_operand_top : Instr.wellFormed (.ipush 0xFF) = true ∧ Instr.wellFormed (.dstep 0xFF) = true := by decide
theorem test_wf_cap_zero : capWellFormed 0 = false ∧ capWellFormed 1 = true := by decide
theorem test_wf_cap_top : capWellFormed 4294967296 = false ∧ capWellFormed 4294967295 = true := by decide
theorem test_wf_delim_empty : delimWellFormed { inCap := 4, outCap := 4, delim := [] } = false := by decide
theorem test_wf_delim_long : delimWellFormed { inCap := 4, outCap := 1, delim := [0x0A, 0x0A] } = false := by decide
theorem test_wf_params_bad : paramsWellFormed { inCap := 0, outCap := 4, delim := [0x0A] } = false := by decide
theorem test_wf_params_default : paramsWellFormed defaultParams = true := by decide

/-! ## Decoding: words written out from R100 and R103 -/

theorem test_decode_ipush : decode 0b0000000101100001 = .ok (.ipush 0x61) := by decide
theorem test_decode_iclr : decode 0b0000001000000000 = .ok .iclr := by decide
theorem test_decode_irew : decode 0b0000001100000000 = .ok .irew := by decide
theorem test_decode_oclr : decode 0b0000010000000000 = .ok .oclr := by decide
theorem test_decode_omov : decode 0b0000010100000000 = .ok .omov := by decide
theorem test_decode_fscan : decode 0b0000100000000000 = .ok .fscan := by decide
theorem test_decode_pqbuild : decode 0b0001000000000000 = .ok .pqbuild := by decide
theorem test_decode_pqins : decode 0b0001000100000000 = .ok .pqins := by decide
theorem test_decode_pqext : decode 0b0001001000000000 = .ok .pqext := by decide
theorem test_decode_merge : decode 0b0001100000000000 = .ok .merge := by decide
theorem test_decode_troot : decode 0b0001100100000000 = .ok .troot := by decide
theorem test_decode_tbuild : decode 0b0001101000000000 = .ok .tbuild := by decide
theorem test_decode_cgen : decode 0b0010000000000000 = .ok .cgen := by decide
theorem test_decode_tser : decode 0b0010100000000000 = .ok .tser := by decide
theorem test_decode_tdes : decode 0b0010100100000000 = .ok .tdes := by decide
theorem test_decode_enc : decode 0b0011000000000000 = .ok .enc := by decide
theorem test_decode_dlmw : decode 0b0011000100000000 = .ok .dlmw := by decide
theorem test_decode_comp : decode 0b0011001000000000 = .ok .comp := by decide
theorem test_decode_dlms : decode 0b0011100000000000 = .ok .dlms := by decide
theorem test_decode_dstep : decode 0b0011100100110001 = .ok (.dstep 0x31) := by decide
theorem test_decode_dend : decode 0b0011101000000000 = .ok .dend := by decide
theorem test_decode_dec : decode 0b0011101100000000 = .ok .dec := by decide
theorem test_decode_decomp : decode 0b0011110000000000 = .ok .decomp := by decide
theorem test_decode_ipush_zero : decode 0x0100 = .ok (.ipush 0x00) := by decide
theorem test_decode_v4 : decode 0x0000 = .error (.unassignedOpcode 0x00) := by decide
theorem test_decode_v5 : decode 0xFFFF = .error (.unassignedOpcode 0xFF) := by decide
theorem test_decode_v6 : decode 0x3201 = .error (.nonzeroOperand 0x32 0x01) := by decide
theorem test_decode_v7 : [0x0600, 0x3D00, 0x0900, 0x1300, 0x2100].all
    (fun w : CmdWord => match decode w with | .ok _ => false | .error _ => true) = true := by decide
theorem test_decode_v8 : decode 0x3932 = .ok (.dstep 0x32) := by decide
theorem test_encode_ends : encode (.ipush 0xFF) = 0x01FF ∧ encode .decomp = 0x3C00 := by decide
theorem test_table_word : decodeTableWord 16 0x3A00 = some .dend := by decide

/-! ## One command each -/

-- V20a, `IN_CAP = 4`: the fifth IPUSH
theorem test_ipush_v1 : got (fun t => (t.ibuf, t.ilen, t.cix)) (.ipush 0x61) State.reset = some ([(0, 0x61)], 1, 1) := by
  decide +kernel
theorem test_ipush_v20a : got record (.ipush 0x65) (run (push [0x61, 0x62, 0x63, 0x64]) (board 4 4)) =
    some ⟨true, 6, 1, true, 4, 0x0165, 4⟩ := by decide +kernel
-- R131's example
theorem test_iclr : got (fun t => (t.ilen, t.ipos)) .iclr (run (push [0x78, 0x79, 0x7A]) State.reset) = some (0, 0) := by
  decide +kernel
-- R132's example
theorem test_irew : got (fun t => (t.ipos, t.ilen)) .irew (run (push serTree ++ [.tdes]) State.reset) = some (0, 8) := by
  decide +kernel
-- R133, V12
theorem test_oclr : got (fun t => t.olen) .oclr (run [.dlmw] State.reset) = some 0 := by decide +kernel
-- R134
theorem test_omov : got (fun t => (inputBytes t, t.ilen, t.ipos, t.olen)) .omov (run [.dlmw] State.reset) =
    some ([0x0A, 0x2D, 0x2D, 0x2D, 0x2D, 0x0A], 6, 0, 0) := by decide +kernel
-- R134: `OLEN = 6 > IN_CAP = 5`
theorem test_omov_full : got (fun t => (t.err, t.errStage, t.errOff, t.errCmd)) .omov
    (run [.dlmw] { State.reset with params := { defaultParams with inCap := 5 } }) = some (6, 1, 5, 0x0500) := by
  decide +kernel
-- V20b, V11
theorem test_fscan : got (fun t => (freqAt t 0x61, freqAt t 0x62, freqAt t 0x63, freqAt t 0x64, t.dsym, status t)) .fscan
    (run aaabbc State.reset) = some (3, 2, 1, 0, 3, 0x02) := by decide +kernel
theorem test_fscan_empty : got (fun t => (t.dsym, status t, t.cix)) .fscan State.reset = some (0, 0x02, 1) := by decide +kernel
-- R154's example
theorem test_pqbuild : got (fun t => (t.node.map fun e => (e.1, e.2.sym, e.2.weight), t.ncnt, t.pq, t.hsize)) .pqbuild
    (run (aaabbc ++ [.fscan]) State.reset) =
    some ([(0, 0x61, 3), (1, 0x62, 2), (2, 0x63, 1)], 3, [0, 1, 2], 3) := by decide +kernel
-- V21d (but for `FREQ_V`), V21e
theorem test_pqins_v21d : got (fun t => (t.pq, t.hsize, t.xr, status t)) .pqins
    (heap abc [0, 1] (some 2)) = some ([0, 1, 2], 3, 2, 0x04) := by decide +kernel
theorem test_pqins_v21e : got (fun t => (t.err, t.errStage, t.errCmd)) .pqins
    (heap abc [0, 1, 2] none) = some (9, 3, 0x1100) := by decide +kernel
-- V21c: equal weights come out in ascending symbol order; V20d
theorem test_pqext_v21c : got (fun t => (t.xr, t.pq)) .pqext
    (heap [(0x61, 1), (0x62, 1), (0x63, 1), (0x64, 1)] [1, 2, 3] (some 0)) = some (1, [2, 3]) := by decide +kernel
theorem test_pqext_v20d : got (fun t => (t.err, t.errStage, t.errCmd)) .pqext (heap [] [] none) =
    some (2, 3, 0x1200) := by decide +kernel
-- R170's example, and R172's second merge
theorem test_merge : got (fun t => (nodeAt t 3, t.pq, t.hsize, t.ncnt)) .merge
    (heap abc [0, 1, 2] none) =
    some ({ kind := .internal, sym := 0, weight := 3, left := 2, right := 1 }, [0, 3], 2, 4) := by decide +kernel
theorem test_merge_tie : got (fun t => (nodeAt t 4, t.pq)) .merge (run [.merge] (heap abc [0, 1, 2] none)) =
    some ({ kind := .internal, sym := 0, weight := 6, left := 0, right := 3 }, [4]) := by decide +kernel
-- R172's example
theorem test_troot : got (fun t => (t.root, t.cur, t.hsize, status t)) .troot
    (run [.merge, .merge] (heap abc [0, 1, 2] none)) = some (4, 4, 0, 0x08) := by decide +kernel
theorem test_troot_two : got (fun t => (t.err, t.errStage)) .troot (heap abc [0, 1] none) =
    some (9, 4) := by decide +kernel
-- V25 "abracadabra"
theorem test_tbuild_v25 : got (fun t => (t.node.drop 5).map fun e => (e.1, e.2.weight, e.2.left, e.2.right)) .tbuild
    (run (push [0x61, 0x62, 0x72, 0x61, 0x63, 0x61, 0x64, 0x61, 0x62, 0x72, 0x61] ++ [.fscan]) State.reset) =
    some [(5, 2, 2, 3), (6, 4, 1, 4), (7, 6, 5, 6), (8, 11, 0, 7)] := by decide +kernel
-- V31; V39b: the last leaf of a repeated symbol wins
theorem test_cgen_v31 : got (fun t => (pathOfCode (codeAt t 0x61), pathOfCode (codeAt t 0x63), pathOfCode (codeAt t 0x62),
    (codeAt t 0x64).valid)) .cgen (run (push serTree ++ [.tdes]) State.reset) =
    some ([false], [true, false], [true, true], false) := by decide +kernel
theorem test_cgen_v39b : got (fun t => codeAt t 0x61) .cgen (run (push [0x30, 0x31, 0x61, 0x31, 0x61] ++ [.tdes]) State.reset) =
    some { valid := true, len := 1, bits := 1 } := by decide +kernel
-- V41, V44
theorem test_tser_v41 : got outputBytes .tser (run [.merge, .merge, .troot] { heap abc [0, 1, 2] none with params := defaultParams }) = some serTree := by decide +kernel
theorem test_tser_v44 : got outputBytes .tser (run [.merge, .troot] { heap [(0x00, 2), (0xFF, 1)] [0, 1] none with params := defaultParams }) =
    some [0x30, 0x31, 0xFF, 0x31, 0x00] := by decide +kernel
-- R203's example; V47
theorem test_tdes : got (fun t => (t.node.map fun e => (e.2.sym, e.2.left, e.2.right), t.ncnt, t.root, t.cur, t.ipos)) .tdes
    (run (push serTree ++ push [0x0A]) State.reset) =
    some ([(0, 1, 2), (0x61, 0, 0), (0, 3, 4), (0x63, 0, 0), (0x62, 0, 0)], 5, 0, 0, 8) := by decide +kernel
theorem test_tdes_v47 : got record .tdes (run (push [0x30, 0x31, 0x61]) State.reset) = some ⟨true, 3, 7, true, 3, 0x2900, 3⟩ := by
  decide +kernel
-- V6D, V6A
theorem test_enc_v6d : got outputBytes .enc (run (push serTree ++ [.tdes, .cgen, .iclr] ++ aaabbc) State.reset) =
    some [0x30, 0x30, 0x30, 0x31, 0x31, 0x31, 0x31, 0x31, 0x30] := by decide +kernel
theorem test_enc_v6a : got (fun t => (t.err, t.errStage, t.erroffV, t.errOff, t.errCmd)) .enc
    (run (push [0x30, 0x31, 0x61, 0x31, 0x62] ++ [.tdes, .cgen, .iclr] ++ ab ++ [.ipush 0x63]) State.reset) = some (5, 8, true, 2, 0x3000) := by decide +kernel
-- V12
theorem test_dlmw_v12 : got (fun t => (outputBytes t, t.olen, t.cix)) .dlmw State.reset =
    some ([0x0A, 0x2D, 0x2D, 0x2D, 0x2D, 0x0A], 6, 1) := by decide +kernel
-- V60; V6B, `OUT_CAP = 10`
theorem test_comp_v60 : got outputBytes .comp (run ab State.reset) =
    some [0x30, 0x31, 0x61, 0x31, 0x62, 0x0A, 0x2D, 0x2D, 0x2D, 0x2D, 0x0A, 0x30, 0x31] := by decide +kernel
theorem test_comp_v6b : got (fun t => (t.err, t.errStage, t.errOff, t.errCmd)) .comp
    (run aaabbc { State.reset with params := { defaultParams with outCap := 10 } }) = some (6, 9, 10, 0x3200) := by decide +kernel
-- R240's example; V19
theorem test_dlms : got (fun t => t.ipos) .dlms
    (run (push (serTree ++ [0x0A, 0x2D, 0x2D, 0x2D, 0x2D, 0x0A, 0x30]) ++ [.tdes]) State.reset) = some 14 := by decide +kernel
theorem test_dlms_v19 : got record .dlms State.reset = some ⟨true, 3, 9, true, 0, 0x3800, 0⟩ := by decide +kernel
-- V71
theorem test_dstep_edge : got (fun t => (t.cur, t.olen)) (.dstep 0x31) (run (push serTree ++ [.tdes]) State.reset) = some (2, 0) := by
  decide +kernel
theorem test_dstep_leaf : got (fun t => (outputBytes t, t.cur)) (.dstep 0x30)
    (run (push serTree ++ [.tdes, .dstep 0x31]) State.reset) = some ([0x63], 0) := by decide +kernel
-- R246's corner case; V73
theorem test_dend : got (fun t => t.fault) .dend (run (push serTree ++ [.tdes]) State.reset) = some false := by decide +kernel
theorem test_dend_v73 : got (fun t => (t.err, t.errStage, t.erroffV)) .dend (run (push serTree ++ [.tdes, .dstep 0x31]) State.reset) =
    some (4, 10, false) := by decide +kernel
-- V7C
theorem test_dec_v7c : got (fun t => (outputBytes t, t.ipos)) .dec
    (run (push [0x30, 0x31, 0x61, 0x31, 0x61] ++ [.tdes, .cgen, .iclr] ++ push [0x61, 0x61] ++ [.enc, .omov]) State.reset) =
    some ([0x61, 0x61], 2) := by decide +kernel
-- V79, V76
theorem test_decomp_v79 : got outputBytes .decomp
    (run (push [0x30, 0x31, 0x61, 0x31, 0x62, 0x78, 0x78, 0x0A, 0x2D, 0x2D, 0x2D, 0x2D, 0x0A, 0x30, 0x31]) State.reset) =
    some [0x61, 0x62] := by decide +kernel
theorem test_decomp_v76 : got (fun t => (t.err, t.errStage, t.errOff, t.errCmd)) .decomp
    (run (push [0x30, 0x31, 0x61, 0x31, 0x62, 0x0A, 0x2D, 0x2D, 0x2D, 0x2D, 0x0A, 0x30, 0x31, 0x78]) State.reset) =
    some (7, 10, 13, 0x3C00) := by decide +kernel

/-! ## The step, the port, the assembler -/

/-- What one step leaves in a part of the state. -/
def stepped {α : Type} (f : State → α) (s : State) : Option α :=
  match step s with
  | .next t => some (f t)
  | .fault _ => none
  | .refused _ => none

theorem test_fetch_word : stepped (fun t => (t.ibuf, t.ilen)) (State.reset.withFetchWord 16 0x0161) = some ([(0, 0x61)], 1) := by
  decide +kernel
-- V4
theorem test_step_illegal : stepped record (State.reset.withFetchWord 16 0x0000) = some ⟨true, 8, 0, false, 0, 0x0000, 0⟩ := by
  decide +kernel
-- V80: refused after the fault
theorem test_step_refused : gotAll record [.ipush 0x30, .decomp, .iclr] State.reset = some ⟨true, 3, 7, true, 1, 0x3C00, 1⟩ := by
  decide +kernel
theorem test_step_reset : stepped (fun t => (t.fault, t.cix, t.host)) ((State.reset.enterFault 0x3200 .emptyInput .build none).withHost [.reset]) =
    some (false, 0, []) := by decide +kernel
-- R84
theorem test_observe : observe (run ab State.reset) .ibuf 1 = .byte 0x62 ∧ observe (run ab State.reset) .ibuf 2 = .unspecified ∧
    observe State.reset .reg 0x08 = .unspecified ∧ observe State.reset .node 511 = .absent := by decide +kernel
theorem test_pack_node : packNode { kind := .leaf, sym := 0x61, weight := 3, left := 0, right := 0 } = 0x0400006100000003 := by
  decide +kernel
-- R119, R102
theorem test_assemble_char : assemble ["IPUSH 'a' ; push".toList] = some [0x0161] := by decide +kernel
theorem test_assemble_lines : assemble ["COMP".toList, "; none".toList, "DSTEP 0x31".toList, "IPUSH 97".toList] =
    some [0x3200, 0x3931, 0x0161] := by decide +kernel
theorem test_assemble_bad : assemble ["COMP 1".toList] = none ∧ assemble ["IPUSH 256".toList] = none := by decide +kernel
theorem test_listing : listing 0x0161 = "0161".toList := by decide +kernel
-- R120
theorem test_assemble_load : assemble ["LOAD \"a0\\n\"".toList] = some [0x0200, 0x0161, 0x0130, 0x010A] := by decide +kernel
theorem test_assemble_pseudo : assemble ["IPUSHS 0x61 98 ; two".toList, "DBITS \"10\"".toList, "ROUNDTRIP".toList,
    "BUILDSTEPWISE 1".toList] = some ([0x0161, 0x0162, 0x3931, 0x3930] ++ [0x3200, 0x0500, 0x3C00] ++ [0x0800, 0x1000, 0x1800, 0x1900]) := by
  decide +kernel
theorem test_assemble_dbits_bad : assemble ["DBITS \"12\"".toList] = none := by decide +kernel
theorem test_pseudo : Pseudo.expand .roundtrip = [.comp, .omov, .decomp] ∧
    Pseudo.expand (.dbits [true, false]) = [.dstep 0x31, .dstep 0x30] := by decide

/-! ## Witnesses: the hypotheses of each statement can be met, clause by clause -/

/-- A block that has faulted. -/
def faulted : State := State.reset.enterFault 0x3200 .emptyInput .build none

/-- A full input buffer: `ILEN = IN_CAP = 4`. -/
def fullIn : State := run (push [0x61, 0x62, 0x63, 0x64]) (board 4 4)

/-- A full output buffer: `OLEN = OUT_CAP = 4`. -/
def fullOut : State := run [.dlmw, .dlmw, .dlmw, .dlmw] (board 4 4)

/-- The tree of "01a01c1b" as TDES leaves it, with `IPOS = ILEN`. -/
def treed (outCap : Nat) : State := run (push serTree ++ [.tdes]) (board 64 outCap)

/-- A one-leaf tree as TDES leaves it. -/
def oneLeaf (outCap : Nat) : State := run (push [0x31, 0x41] ++ [.tdes]) (board 64 outCap)

/-- The treed block with its codes and a new input. -/
def coded (outCap : Nat) (bs : List Byte) : State := run (push serTree ++ [.tdes, .cgen, .iclr] ++ push bs) (board 64 outCap)

/-- The treed block with a new input and the cursor at its start. -/
def fed (bs : List Byte) : State := run (push serTree ++ [.tdes, .iclr] ++ push bs) (board 64 64)

theorem witness_opcode_rows : (Instr.dstep 0x00).row.covers 0x39FF = true ∧ (Instr.iclr).row.covers 0x0200 = true := by decide
theorem witness_illegal_words : decode 0x3D00 = .error (.unassignedOpcode (opField 0x3D00)) ∧
    decode 0x02FF = .error (.nonzeroOperand (opField 0x02FF) (immField 0x02FF)) := by decide
theorem witness_step_runs : (State.reset.withHost [.command 0x0161]).host = .command 0x0161 :: [] ∧
    decode 0x0161 = .ok (.ipush 0x61) := by decide
theorem witness_illegal_faults : (State.reset.withHost [.command 0x3201]).host = .command 0x3201 :: [] ∧
    (State.reset.withHost [.command 0x3201]).fault = false ∧ decode 0x3201 = .error (.nonzeroOperand 0x32 0x01) := by decide
theorem witness_reset : (faulted.withHost [.reset]).host = .reset :: [] := rfl
theorem witness_waiting : State.reset.host = [] := rfl
theorem witness_fault_entry : State.reset.fault = false ∧ ∃ t, exec .comp State.reset = .next t ∧ t.fault = true :=
  ⟨rfl, got_next (f := State.fault) (by decide +kernel)⟩
theorem witness_fault_position : ∃ t u, execAll [.ipush 0x30] State.reset = .next t ∧ t.fault = false ∧
    exec .decomp t = .next u ∧ u.fault = true := by
  obtain ⟨u, hu, hf⟩ := got_next (f := State.fault) (i := .decomp) (s := run [.ipush 0x30] State.reset) (v := true) (by decide +kernel)
  exact ⟨_, u, rfl, rfl, hu, hf⟩
theorem witness_after_fault : faulted.fault = true ∧ (faulted.withHost [.command 0x0200]).host = .command 0x0200 :: [] := ⟨rfl, rfl⟩
theorem witness_fault_cleared : (faulted.withHost [.reset]).fault = true ∧
    ∃ t, step (faulted.withHost [.reset]) = .next t ∧ t.fault = false := ⟨rfl, _, rfl, rfl⟩
theorem witness_raises : Inv State.reset ∧ State.reset.fault = false ∧ ∃ t, exec .comp State.reset = .next t ∧ t.fault = true :=
  ⟨inv_reset_run [], rfl, got_next (f := State.fault) (by decide +kernel)⟩
theorem witness_first_command : paramsWellFormed defaultParams = true ∧ State.reset = { State.reset with params := defaultParams } ∧
    paramsWellFormed { inCap := 1, outCap := 1, delim := [0x0A] } = true := ⟨by decide, rfl, by decide⟩
theorem reset_inv : Inv State.reset := inv_reset_run []
theorem witness_memory_form : MemoryForm State.reset ∧ ∃ t, step State.reset = .next t := ⟨reset_inv.form, _, rfl⟩
theorem witness_one_event : ∃ t, step (State.reset.withHost [.command 0x0200, .reset]) = .next t := ⟨_, rfl⟩
theorem witness_cix : ∃ t, exec (.ipush 0x61) State.reset = .next t ∧ t.fault = false := ⟨_, rfl, rfl⟩
theorem witness_cix_faults : ∃ t, exec .tdes State.reset = .next t ∧ t.fault = true := got_next (f := State.fault) (by decide +kernel)
theorem witness_dec_no_tree : Inv (run [] (board 4 4)) ∧ (board 4 4).fault = false ∧ (board 4 4).treeV = false :=
  ⟨inv_run [], rfl, rfl⟩
theorem witness_cix_sequence : ∃ t, execAll [.ipush 0x61, .iclr, .irew] State.reset = .next t ∧ t.fault = false :=
  gotAll_next (f := State.fault) (by decide +kernel)
theorem witness_frames : (∃ t, exec .irew State.reset = .next t ∧ t.fault = false) ∧ (∀ imm, Instr.irew ≠ .ipush imm) ∧
    (∀ imm, Instr.irew ≠ .dstep imm) ∧ Instr.irew ∉ [Instr.iclr, .omov] := ⟨⟨_, rfl, rfl⟩, nofun, nofun, by decide⟩
theorem witness_appending : Instr.dlmw ∈ [Instr.tser, .dlmw, .enc, .dstep 0x30, .dec] ∧ paramsWellFormed (board 1 1).params = true ∧
    (∃ t, exec .dlmw (board 1 1) = .next t ∧ t.fault = false) :=
  ⟨by decide, by decide, got_next (f := State.fault) (by decide +kernel)⟩
theorem witness_cursor : Inv (run (push serTree) (board 64 64)) ∧
    ∃ t, exec .tdes (run (push serTree) (board 64 64)) = .next t ∧ t.fault = false :=
  ⟨inv_run _, got_next (f := State.fault) (by decide +kernel)⟩
theorem witness_port : faulted.fault = true := rfl
theorem witness_port_buffers : fullIn.fault = false ∧ 3 < fullIn.params.inCap ∧ 3 < fullIn.ilen.toNat ∧
    observe fullIn .ibuf 3 = .byte 0x64 ∧ observe fullIn .ibuf 4 = .absent ∧ observe fullIn .obuf 0 = .unspecified ∧
    fullOut.fault = false ∧ observe fullOut .obuf 3 = .byte 0x0A ∧ observe fullOut .freq 255 = .unspecified ∧
    observe fullOut .freq 256 = .absent := by decide +kernel
theorem witness_port_flags : (treed 64).fault = false ∧ (treed 64).treeV = true ∧ (treed 64).heapV = false ∧
    (treed 64).ncnt.toNat = 5 ∧ observe (treed 64) .node 5 = .unspecified ∧ observe (treed 64) .node 510 = .unspecified ∧
    observe (treed 64) .pq 510 = .unspecified ∧ observe (treed 64) .pq 511 = .absent := by decide +kernel
theorem witness_port_node : (treed 64).treeV = true ∧ (4 : NodeIdx).toNat < (treed 64).ncnt.toNat ∧
    ∃ w, observe (treed 64) .node 4 = .node w := ⟨by decide +kernel, by decide +kernel, _, rfl⟩
theorem witness_port_code : (treed 64).codeV = false ∧ observe (treed 64) .code 255 = .unspecified ∧
    (coded 64 []).fault = false ∧ (coded 64 []).codeV = true ∧
    observe (coded 64 []) .code 0x61 = .code (BitVec.ofNat 272 (2 ^ 265 + 2 ^ 256)) := by decide +kernel
theorem witness_port_heap : (run (ab ++ [.fscan, .pqbuild]) (board 4 4)).fault = false ∧
    (run (ab ++ [.fscan, .pqbuild]) (board 4 4)).heapV = true ∧
    observe (run (ab ++ [.fscan, .pqbuild]) (board 4 4)) .pq 1 = .member 1 ∧
    observe (run (ab ++ [.fscan, .pqbuild]) (board 4 4)) .pq 2 = .member 0 ∧
    observe (run (ab ++ [.fscan, .pqbuild]) (board 4 4)) .freq 0x62 = .count 1 := by decide +kernel
theorem witness_port_record : observe faulted .reg 0x01 = .reg (faulted.err.setWidth 32) ∧
    observe faulted .reg 0x04 = .reg faulted.cix ∧ observe faulted .reg 0x05 = .unspecified ∧
    observe faulted .reg 0x0D = .unspecified ∧ observe faulted .reg 0x0E = .reg 0x3200 ∧
    observe faulted .reg 0x0F = .absent := by decide +kernel

theorem witness_assembler : ("ICLR", (0x0200 : CmdWord)) ∈ [("ICLR", (0x0200 : CmdWord)), ("IREW", 0x0300)] ∧
    assemble ["ICLR".toList] = some [0x0200] ∧ assemble ["DECOMP".toList ++ [' ', ';', 'x']] = some [0x3C00] := by decide +kernel
theorem witness_assembler_operands : assemble ["IPUSH 0x00".toList] = some [0x0100] ∧
    assemble ["DSTEP 0xFF".toList] = some [0x39FF] ∧ assemble ["IPUSH 255".toList] = some [0x01FF] ∧
    (0x7F : Byte).toNat < 128 ∧ assemble ["DSTEP '".toList ++ [Char.ofNat 0x7F, Char.ofNat 39]] = some [0x397F] ∧
    assemble ["IPUSH ';'".toList] = some [0x013B] ∧ assemble ["DSTEP ';' ; 1".toList] = some [0x393B] ∧
    assemble ["IPUSH 0x0A ;".toList] = some [0x010A] := by decide +kernel

theorem witness_ipush_last : (run (push [0x61, 0x62, 0x63]) (board 4 4)).fault = false ∧
    (run (push [0x61, 0x62, 0x63]) (board 4 4)).ilen.toNat + 1 = (run (push [0x61, 0x62, 0x63]) (board 4 4)).params.inCap := by
  decide +kernel
theorem witness_ipush_full : fullIn.fault = false ∧ fullIn.ilen.toNat = fullIn.params.inCap := by decide +kernel
theorem witness_plain_buffers : fullIn.fault = false ∧ fullOut.fault = false := by decide +kernel
theorem witness_omov_fits : fullOut.fault = false ∧ fullOut.olen.toNat = fullOut.params.inCap ∧
    fullOut.olen.toNat ≤ fullOut.params.outCap := by decide +kernel
theorem witness_omov_full : (run [.dlmw, .dlmw, .dlmw, .dlmw] (board 3 4)).fault = false ∧
    (run [.dlmw, .dlmw, .dlmw, .dlmw] (board 3 4)).params.inCap < (run [.dlmw, .dlmw, .dlmw, .dlmw] (board 3 4)).olen.toNat := by
  decide +kernel
theorem witness_fscan : fullIn.fault = false ∧ fullIn.ilen.toNat = fullIn.params.inCap := by decide +kernel
theorem witness_fscan_empty : (board 4 4).fault = false ∧ (board 4 4).ilen.toNat ≤ (board 4 4).params.inCap := by decide
theorem witness_frequency_table : fullIn.ilen.toNat ≤ fullIn.params.inCap ∧ ∃ t, exec .fscan fullIn = .next t ∧ t.fault = false :=
  ⟨by decide +kernel, got_next (f := State.fault) (by decide +kernel)⟩

theorem witness_less : less (heap abc [0, 1, 2] none) 2 1 = true ∧ less (heap abc [0, 1, 2] none) 1 0 = true ∧ (1 : NodeIdx) ≠ 0 ∧
    (heap abc [0, 1, 2] none).pq ≠ [] := by decide +kernel
theorem witness_less_tie : less (heap [(0x61, 1), (0x62, 1)] [0, 1] none) 0 1 = true := by decide +kernel
theorem witness_pqbuild_no_table : (board 4 4).fault = false ∧ (board 4 4).freqV = false := ⟨rfl, rfl⟩
theorem witness_pqbuild_inv : Inv (run [.fscan] fullIn) := inv_of_good (good_run (good_run (good_start (by decide))))
theorem witness_pqbuild : (run [.fscan] fullIn).fault = false ∧ (run [.fscan] fullIn).freqV = true ∧ ∃ ys : List Nat,
    ys = (List.range 256).filter (fun y => 0 < (freqAt (run [.fscan] fullIn) y).toNat) := ⟨by decide +kernel, by decide +kernel, _, rfl⟩
theorem witness_pqins_no_hand : (heap abc [0] none).fault = false ∧ (heap abc [0] none).xrV = false ∧
    (board 4 4).heapV = false := ⟨rfl, rfl, rfl⟩
theorem witness_pqins : (heap abc [0, 1] (some 2)).fault = false ∧ (heap abc [0, 1] (some 2)).heapV = true ∧
    (heap abc [0, 1] (some 2)).xrV = true ∧ (heap abc [0, 1] (some 2)).xr.toNat < 511 ∧ Inv (heap abc [0, 1] (some 2)) :=
  ⟨rfl, rfl, rfl, by decide, inv_heap (by decide +kernel)⟩
theorem witness_pqins_last_index : (heap [] [] (some 510)).xr.toNat < 511 ∧ (heap [] [] (some 510)).xrV = true := by decide
theorem witness_pqext_no_queue : (board 4 4).fault = false ∧ (board 4 4).heapV = false := ⟨rfl, rfl⟩
theorem witness_pqext_empty : (heap [] [] none).fault = false ∧ (heap [] [] none).heapV = true ∧ (heap [] [] none).hsize = 0 := by
  decide
theorem witness_pqext_one : (heap abc [2] none).fault = false ∧ (heap abc [2] none).heapV = true ∧ (heap abc [2] none).hsize ≠ 0 ∧
    (heap abc [2] none).pq ≠ [] := by decide
theorem witness_extract_insert : Inv (heap abc [0, 1, 2] none) ∧ (heap abc [0, 1, 2] none).fault = false ∧
    (heap abc [0, 1, 2] none).heapV = true ∧ (heap abc [0, 1, 2] none).pq ≠ [] :=
  ⟨inv_heap (by decide +kernel), rfl, rfl, by decide⟩
theorem witness_extractions : Inv (heap abc [0, 1, 2] none) ∧ (heap abc [0, 1, 2] none).heapV = true ∧
    ∃ t u, exec .pqext (heap abc [0, 1, 2] none) = .next t ∧ exec .pqext t = .next u ∧ u.fault = false := by
  obtain ⟨u, hu, hf⟩ := got_next (f := State.fault) (i := .pqext) (s := run [.pqext] (heap abc [0, 1, 2] none)) (v := false)
    (by decide +kernel)
  exact ⟨inv_heap (by decide +kernel), rfl, _, u, by rfl, hu, hf⟩

theorem witness_merge_no_queue : Inv (run [] (board 4 4)) ∧ (board 4 4).fault = false ∧ (board 4 4).heapV = false :=
  ⟨inv_run [], rfl, rfl⟩
theorem witness_merge_one : Inv (heap abc [2] none) ∧ (heap abc [2] none).fault = false ∧ (heap abc [2] none).heapV = true ∧
    (heap abc [2] none).hsize.toNat < 2 := ⟨inv_heap (by decide +kernel), rfl, rfl, by decide⟩
theorem witness_merge_none : Inv (heap [] [] none) ∧ (heap [] [] none).fault = false ∧ (heap [] [] none).heapV = true ∧ (heap [] [] none).hsize.toNat < 2 :=
  ⟨inv_heap (by decide +kernel), rfl, rfl, by decide⟩
theorem witness_merge_two : Inv (heap abc [0, 1] (some 2)) ∧ (heap abc [0, 1] (some 2)).fault = false ∧
    (heap abc [0, 1] (some 2)).heapV = true ∧ 2 ≤ (heap abc [0, 1] (some 2)).hsize.toNat :=
  ⟨inv_heap (by decide +kernel), rfl, rfl, by decide⟩
theorem witness_troot_empty : Inv (heap [] [] none) ∧ (heap [] [] none).fault = false ∧ (heap [] [] none).heapV = true ∧
    (heap [] [] none).hsize = 0 := ⟨inv_heap (by decide +kernel), rfl, rfl, rfl⟩
theorem witness_troot_two : Inv (heap abc [0, 1] none) ∧ (heap abc [0, 1] none).fault = false ∧ (heap abc [0, 1] none).heapV = true ∧ 1 < (heap abc [0, 1] none).hsize.toNat :=
  ⟨inv_heap (by decide +kernel), rfl, rfl, by decide⟩
theorem witness_troot_one : Inv (heap abc [1] none) ∧ (heap abc [1] none).fault = false ∧ (heap abc [1] none).heapV = true ∧ (heap abc [1] none).hsize = 1 :=
  ⟨inv_heap (by decide +kernel), rfl, rfl, rfl⟩
theorem witness_tbuild_no_table : Inv (run [] (board 4 4)) ∧ (board 4 4).fault = false ∧ (board 4 4).freqV = false :=
  ⟨inv_run [], rfl, rfl⟩
theorem witness_tbuild_empty : Inv (run [.fscan] (board 4 4)) ∧ (run [.fscan] (board 4 4)).fault = false ∧
    (run [.fscan] (board 4 4)).freqV = true ∧ (run [.fscan] (board 4 4)).dsym = 0 := ⟨inv_run _, by decide +kernel⟩
theorem witness_tbuild_one : Inv (run [.ipush 0x41, .fscan] (board 4 4)) ∧ (run [.ipush 0x41, .fscan] (board 4 4)).fault = false ∧
    (run [.ipush 0x41, .fscan] (board 4 4)).freqV = true ∧ (run [.ipush 0x41, .fscan] (board 4 4)).dsym = 1 :=
  ⟨inv_run _, by decide +kernel⟩
theorem witness_built_tree : Inv (run (ab ++ [.fscan]) (board 4 4)) ∧ (run (ab ++ [.fscan]) (board 4 4)).freqV = true ∧
    ∃ t, exec .tbuild (run (ab ++ [.fscan]) (board 4 4)) = .next t ∧ t.fault = false :=
  ⟨inv_run _, by decide +kernel, got_next (f := State.fault) (by decide +kernel)⟩

theorem witness_cgen_no_tree : (board 4 4).fault = false ∧ (board 4 4).treeV = false := ⟨rfl, rfl⟩
theorem witness_cgen : (treed 64).fault = false ∧ (treed 64).treeV = true ∧ rootTree (treed 64) = .done tree3 := by decide +kernel
theorem witness_cgen_clauses : (0x64 : Byte) ∉ tree3.symbols ∧
    tree3.codes = [(0x61, [false]), (0x63, [true, false])] ++ (0x62, [true, true]) :: [] ∧ (0x62 : Byte) ∉ ([] : List (Byte × List Bool)).map Prod.fst := by
  decide
theorem witness_cgen_one_leaf : (oneLeaf 64).fault = false ∧ (oneLeaf 64).treeV = true ∧ rootTree (oneLeaf 64) = .done (.leaf 0x41) := by
  decide +kernel
theorem witness_prefix_free : (treed 64).treeV = true ∧ rootTree (treed 64) = .done tree3 ∧ tree3.symbols.Nodup ∧
    (∃ t, exec .cgen (treed 64) = .next t ∧ (t.fault = false ∧ (codeAt t 0x61).valid = true ∧ (codeAt t 0x62).valid = true)) := by
  refine ⟨by decide +kernel, by decide +kernel, by decide, ?_⟩
  obtain ⟨t, ht, hv⟩ := got_next (f := fun t => (t.fault, (codeAt t 0x61).valid, (codeAt t 0x62).valid)) (i := .cgen) (s := treed 64)
    (v := (false, true, true)) (by decide +kernel)
  simp only [Prod.mk.injEq] at hv
  exact ⟨t, ht, hv⟩

theorem witness_tser_no_tree : (board 4 4).fault = false ∧ paramsWellFormed (board 4 4).params = true ∧
    (board 4 4).olen.toNat ≤ (board 4 4).params.outCap ∧ (board 4 4).treeV = false := by decide
theorem witness_tser_fits : (treed 8).fault = false ∧ paramsWellFormed (treed 8).params = true ∧ (treed 8).treeV = true ∧
    rootTree (treed 8) = .done tree3 ∧ (treed 8).olen.toNat + tree3.ser.length = (treed 8).params.outCap := by decide +kernel
theorem witness_tser_full : (treed 7).fault = false ∧ paramsWellFormed (treed 7).params = true ∧
    (treed 7).olen.toNat ≤ (treed 7).params.outCap ∧ (treed 7).treeV = true ∧ rootTree (treed 7) = .done tree3 ∧
    (treed 7).params.outCap + 1 = (treed 7).olen.toNat + tree3.ser.length := by decide +kernel
theorem witness_tdes : (run (push (serTree ++ [0x0A])) (board 64 64)).fault = false ∧
    (run (push (serTree ++ [0x0A])) (board 64 64)).ilen.toNat ≤ (run (push (serTree ++ [0x0A])) (board 64 64)).params.inCap ∧
    (inputBytes (run (push (serTree ++ [0x0A])) (board 64 64))).drop (run (push (serTree ++ [0x0A])) (board 64 64)).ipos.toNat =
      tree3.ser ++ [0x0A] ∧ 2 * tree3.leaves - 1 ≤ 511 := by decide +kernel

/-- The tokens after which a tree needs a further node, as `TdesFaultsInExactlyFourCases` names them. -/
def NeedsNode (tokens : List (Option Byte)) : Prop :=
  tokens.length ≤ 511 ∧ ∃ tr more, Tree.ser tr = tokenBytes tokens ++ more ∧ more ≠ []

/-- A tree whose serialization begins with `n` internal-node markers. -/
def comb : Nat → Tree
  | 0 => .leaf 0x78
  | n + 1 => .node (comb n) (.leaf 0x78)

theorem comb_size (n : Nat) : (comb n).leaves = n + 1 ∧ (comb n).ser.length = 3 * n + 2 := by
  induction n with
  | zero => exact ⟨rfl, rfl⟩
  | succ n ih => simp only [comb, Tree.leaves, Tree.ser, List.length_cons, List.length_append, List.length_nil]; omega

/-- An input buffer filled by the largest tree, 256 leaves and 767 bytes. -/
def largest : State := { board 767 4 with ibuf := Memory.ofList (comb 255).ser, ilen := 767 }

theorem witness_tdes_largest : largest.fault = false ∧ largest.ilen.toNat = largest.params.inCap ∧
    (inputBytes largest).drop largest.ipos.toNat = (comb 255).ser ++ [] ∧ 2 * (comb 255).leaves - 1 = 511 := by
  refine ⟨rfl, rfl, ?_, by rw [(comb_size 255).1]⟩
  have hd : Defined largest.ibuf largest.ilen.toNat := by
    have := Memory.ofList_defined (comb 255).ser
    rwa [(comb_size 255).2] at this
  rw [inputBytes_eq hd, List.append_nil]
  refine (List.drop_zero).trans ?_
  show (Memory.ofList (comb 255).ser).map Prod.snd = _
  rw [Memory.ofList, List.map_map]
  exact List.zipIdx_map_fst 0 _

theorem comb_ser (n : Nat) : ∃ more, (comb n).ser = tokenBytes (List.replicate n none) ++ more ∧ more ≠ [] := by
  induction n with
  | zero => exact ⟨[0x31, 0x78], rfl, by simp⟩
  | succ n ih =>
    obtain ⟨more, h, hm⟩ := ih
    exact ⟨more ++ [0x31, 0x78], by simp [comb, Tree.ser, h, List.replicate_succ, tokenBytes, markLeaf], by simp⟩

theorem needs_comb {n : Nat} (h : n ≤ 511) : NeedsNode (List.replicate n none) :=
  ⟨by simpa using h, comb n, comb_ser n⟩

theorem witness_tdes_ends : (run (push [0x30]) (board 4 4)).fault = false ∧
    (run (push [0x30]) (board 4 4)).ipos.toNat ≤ (run (push [0x30]) (board 4 4)).ilen.toNat ∧ NeedsNode [none] ∧
    inputBytes (run (push [0x30]) (board 4 4)) = tokenBytes [none] := ⟨by decide, by decide, needs_comb (n := 1) (by decide), by decide⟩
theorem witness_tdes_bounds : (run (push [0x30]) (board 1 4)).ilen.toNat = (run (push [0x30]) (board 1 4)).params.inCap := by decide
theorem witness_tdes_no_payload : NeedsNode [] ∧ inputBytes (run (push [0x31]) (board 4 4)) = tokenBytes [] ++ [0x31] :=
  ⟨needs_comb (n := 0) (by decide), by decide⟩
theorem witness_tdes_no_marker : NeedsNode [none] ∧ inputBytes (run (push [0x30, 0x32]) (board 4 4)) = tokenBytes [none] ++ 0x32 :: [] ∧
    (0x32 : Byte) ≠ 0x30 ∧ (0x32 : Byte) ≠ 0x31 := ⟨needs_comb (n := 1) (by decide), by decide, by decide, by decide⟩
/-- An input of 512 internal-node markers: the last would create a 512th node. -/
def tooDeep : State := { board 512 4 with ibuf := Memory.ofList (List.replicate 512 0x30), ilen := 512 }

theorem witness_tdes_capacity : NeedsNode (List.replicate 511 none) ∧ (List.replicate 511 (none : Option Byte)).length = 511 ∧
    tooDeep.fault = false ∧ tooDeep.ilen.toNat = tooDeep.params.inCap ∧ tooDeep.ipos = 0 ∧
    inputBytes tooDeep = tokenBytes (List.replicate 511 none) ++ 0x30 :: [] :=
  ⟨needs_comb (by decide), by simp, by decide +kernel⟩
theorem witness_tdes_faulted : ∃ t, exec .tdes (run (push [0x30]) (board 4 4)) = .next t ∧ t.fault = true :=
  got_next (f := State.fault) (by decide +kernel)
theorem witness_serialization : Inv (treed 8) ∧ (treed 8).fault = false ∧ (treed 8).treeV = true ∧ rootTree (treed 8) = .done tree3 ∧
    tree3.ser.length ≤ (treed 8).params.inCap ∧ tree3.ser.length = (treed 8).params.outCap :=
  ⟨inv_run _, by decide +kernel⟩

theorem witness_enc_no_codes : Inv (run [] (board 4 4)) ∧ (board 4 4).fault = false ∧ (board 4 4).codeV = false := ⟨inv_run [], rfl, rfl⟩
theorem witness_enc_fits : Inv (coded 9 [0x61, 0x61, 0x61, 0x62, 0x62, 0x63]) ∧ (coded 9 [0x61, 0x61, 0x61, 0x62, 0x62, 0x63]).fault = false ∧
    (coded 9 [0x61, 0x61, 0x61, 0x62, 0x62, 0x63]).codeV = true ∧
    (∀ y ∈ inputBytes (coded 9 [0x61, 0x61, 0x61, 0x62, 0x62, 0x63]), (codeAt (coded 9 [0x61, 0x61, 0x61, 0x62, 0x62, 0x63]) y).valid = true) ∧
    (coded 9 [0x61, 0x61, 0x61, 0x62, 0x62, 0x63]).olen.toNat + ((inputBytes (coded 9 [0x61, 0x61, 0x61, 0x62, 0x62, 0x63])).flatMap fun y =>
      (pathOfCode (codeAt (coded 9 [0x61, 0x61, 0x61, 0x62, 0x62, 0x63]) y)).map symbolOfBit).length =
      (coded 9 [0x61, 0x61, 0x61, 0x62, 0x62, 0x63]).params.outCap := ⟨inv_run _, by decide +kernel⟩
theorem witness_enc_full : Inv (coded 1 [0x62, 0x64]) ∧ (coded 1 [0x62, 0x64]).fault = false ∧ (coded 1 [0x62, 0x64]).codeV = true ∧ inputBytes (coded 1 [0x62, 0x64]) = [0x62] ++ [0x64] ∧
    (∀ z ∈ [(0x62 : Byte)], (codeAt (coded 1 [0x62, 0x64]) z).valid = true) ∧ (coded 1 [0x62, 0x64]).params.outCap <
      (coded 1 [0x62, 0x64]).olen.toNat + ([(0x62 : Byte)].flatMap fun z => pathOfCode (codeAt (coded 1 [0x62, 0x64]) z)).length :=
  ⟨inv_run _, by decide +kernel⟩
theorem witness_enc_unknown : Inv (coded 2 [0x62, 0x64]) ∧ (coded 2 [0x62, 0x64]).fault = false ∧ (coded 2 [0x62, 0x64]).codeV = true ∧ inputBytes (coded 2 [0x62, 0x64]) = [0x62] ++ 0x64 :: [] ∧
    (codeAt (coded 2 [0x62, 0x64]) 0x64).valid = false ∧ (∀ z ∈ [(0x62 : Byte)], (codeAt (coded 2 [0x62, 0x64]) z).valid = true) ∧
    (coded 2 [0x62, 0x64]).olen.toNat + ([(0x62 : Byte)].flatMap fun z => pathOfCode (codeAt (coded 2 [0x62, 0x64]) z)).length =
      (coded 2 [0x62, 0x64]).params.outCap := ⟨inv_run _, by decide +kernel⟩
theorem witness_dlmw_fits : (board 1 1).fault = false ∧ paramsWellFormed (board 1 1).params = true ∧
    (board 1 1).olen.toNat + (board 1 1).params.delim.length = (board 1 1).params.outCap := by decide
theorem witness_dlmw_full : fullOut.fault = false ∧ paramsWellFormed fullOut.params = true ∧ fullOut.olen.toNat ≤ fullOut.params.outCap ∧
    fullOut.params.outCap < fullOut.olen.toNat + fullOut.params.delim.length := by decide +kernel
theorem witness_comp_parts : (run (push [0x41]) (board 4 4)).fault = false ∧
    ∃ u, execAll [.oclr, .fscan, .tbuild, .cgen, .tser, .dlmw, .enc] (run (push [0x41]) (board 4 4)) = .next u ∧ u.fault = false :=
  ⟨by decide +kernel, gotAll_next (f := State.fault) (by decide +kernel)⟩
theorem witness_comp_parts_fault : State.reset.fault = false ∧ ∃ u, execAll [.oclr, .fscan, .tbuild, .cgen, .tser, .dlmw, .enc] State.reset = .next u ∧ u.fault = true :=
  ⟨rfl, gotAll_next (f := State.fault) (by decide +kernel)⟩
theorem witness_comp_empty : Inv (run [] (board 4 4)) ∧ (board 4 4).fault = false ∧ (board 4 4).ilen = 0 := ⟨inv_run [], rfl, rfl⟩
theorem witness_comp_one : Inv (run (push [0x41]) (board 1 1)) ∧ (run (push [0x41]) (board 1 1)).fault = false ∧
    (run (push [0x41]) (board 1 1)).ilen ≠ 0 := ⟨inv_run _, by decide +kernel, by decide +kernel⟩
theorem witness_comp_completes : Inv (run (push [0x41]) (board 1 1023)) ∧ (run (push [0x41]) (board 1 1023)).fault = false ∧
    (run (push [0x41]) (board 1 1023)).ilen ≠ 0 ∧
    767 + (run (push [0x41]) (board 1 1023)).params.delim.length + 255 * (run (push [0x41]) (board 1 1023)).ilen.toNat =
      (run (push [0x41]) (board 1 1023)).params.outCap := ⟨inv_run _, by decide +kernel, by decide +kernel, by decide +kernel⟩

theorem witness_dlms_found : (run (push [0x78, 0x0A]) (board 2 4)).fault = false ∧
    (run (push [0x78, 0x0A]) (board 2 4)).ilen.toNat ≤ (run (push [0x78, 0x0A]) (board 2 4)).params.inCap ∧
    (run (push [0x78, 0x0A]) (board 2 4)).ipos.toNat ≤ 1 ∧
    1 + (run (push [0x78, 0x0A]) (board 2 4)).params.delim.length = (run (push [0x78, 0x0A]) (board 2 4)).ilen.toNat ∧
    ibufAt (run (push [0x78, 0x0A]) (board 2 4)) 1 = 0x0A ∧ ibufAt (run (push [0x78, 0x0A]) (board 2 4)) 0 ≠ 0x0A := by decide +kernel
theorem witness_dlms_none : (board 4 4).fault = false ∧ (board 4 4).ilen.toNat ≤ (board 4 4).params.inCap ∧
    (board 4 4).params.delim ≠ [] ∧ ∀ p, ¬ ((board 4 4).ipos.toNat ≤ p ∧ p + (board 4 4).params.delim.length ≤ (board 4 4).ilen.toNat) :=
  ⟨rfl, by decide, by decide, fun p h => Nat.not_succ_le_zero p h.2⟩
theorem witness_dstep_no_tree : (board 4 4).fault = false ∧ paramsWellFormed (board 4 4).params = true ∧ (board 4 4).treeV = false := by
  decide
theorem witness_dstep_bad : (treed 64).fault = false ∧ paramsWellFormed (treed 64).params = true ∧ (treed 64).treeV = true ∧
    (0x32 : Byte) ≠ 0x30 ∧ (0x32 : Byte) ≠ 0x31 := by decide +kernel
theorem witness_dstep_one_leaf : (oneLeaf 1).fault = false ∧ paramsWellFormed (oneLeaf 1).params = true ∧ (oneLeaf 1).treeV = true ∧ (oneLeaf 1).root.toNat < 511 ∧
    (nodeAt (oneLeaf 1) (oneLeaf 1).root).kind = .leaf ∧ (oneLeaf 1).olen.toNat < (oneLeaf 1).params.outCap := by decide +kernel
theorem witness_dstep_one_leaf_full : (run [.dstep 0x30] (oneLeaf 1)).fault = false ∧
    paramsWellFormed (run [.dstep 0x30] (oneLeaf 1)).params = true ∧ (run [.dstep 0x30] (oneLeaf 1)).treeV = true ∧
    (run [.dstep 0x30] (oneLeaf 1)).root.toNat < 511 ∧ (nodeAt (run [.dstep 0x30] (oneLeaf 1)) (run [.dstep 0x30] (oneLeaf 1)).root).kind = .leaf ∧
    (run [.dstep 0x30] (oneLeaf 1)).olen.toNat = (run [.dstep 0x30] (oneLeaf 1)).params.outCap := by decide +kernel
theorem witness_dstep_internal : (treed 1).fault = false ∧ paramsWellFormed (treed 1).params = true ∧ (treed 1).treeV = true ∧ (treed 1).root.toNat < 511 ∧ (nodeAt (treed 1) (treed 1).root).kind = .internal ∧
    (treed 1).cur.toNat < 511 ∧ (nodeAt (treed 1) (treed 1).cur).right = 2 ∧ (nodeAt (treed 1) 2).kind = .internal := by decide +kernel
theorem witness_dstep_leaf : (treed 1).fault = false ∧ (treed 1).treeV = true ∧ (treed 1).root.toNat < 511 ∧
    (nodeAt (treed 1) (treed 1).root).kind = .internal ∧ (treed 1).cur.toNat < 511 ∧ (nodeAt (treed 1) (treed 1).cur).left = 1 ∧ (nodeAt (treed 1) 1).kind = .leaf ∧
    (treed 1).olen.toNat < (treed 1).params.outCap := by decide +kernel
theorem witness_dstep_leaf_full : (run [.dstep 0x30] (treed 1)).fault = false ∧ (run [.dstep 0x30] (treed 1)).treeV = true ∧
    (run [.dstep 0x30] (treed 1)).root.toNat < 511 ∧ (run [.dstep 0x30] (treed 1)).cur.toNat < 511 ∧
    (nodeAt (run [.dstep 0x30] (treed 1)) (run [.dstep 0x30] (treed 1)).root).kind = .internal ∧
    (nodeAt (run [.dstep 0x30] (treed 1)) (run [.dstep 0x30] (treed 1)).cur).left = 1 ∧ (nodeAt (run [.dstep 0x30] (treed 1)) 1).kind = .leaf ∧
    (run [.dstep 0x30] (treed 1)).olen.toNat = (run [.dstep 0x30] (treed 1)).params.outCap := by decide +kernel
theorem witness_dend : (board 4 4).fault = false ∧ (board 4 4).treeV = false ∧ (treed 64).fault = false ∧ (treed 64).treeV = true ∧
    (treed 64).cur = (treed 64).root := by decide +kernel
theorem witness_dend_inside : (run [.dstep 0x31] (treed 64)).fault = false ∧ (run [.dstep 0x31] (treed 64)).treeV = true ∧
    (run [.dstep 0x31] (treed 64)).cur ≠ (run [.dstep 0x31] (treed 64)).root := by decide +kernel
theorem witness_streaming : Inv (fed [0x30]) ∧ (fed [0x30]).fault = false ∧ (fed [0x30]).treeV = true ∧
    ∃ u, execAll (((inputBytes (fed [0x30])).drop (fed [0x30]).ipos.toNat).map Instr.dstep ++ [.dend]) (fed [0x30]) = .next u ∧
      u.fault = false := ⟨inv_run _, by decide +kernel, by decide +kernel, gotAll_next (f := State.fault) (by decide +kernel)⟩
theorem witness_streaming_fault : Inv (fed [0x31]) ∧ (fed [0x31]).fault = false ∧ (fed [0x31]).treeV = true ∧ ∃ u, execAll (((inputBytes (fed [0x31])).drop (fed [0x31]).ipos.toNat).map Instr.dstep ++ [.dend])
    (fed [0x31]) = .next u ∧ u.fault = true :=
  ⟨inv_run _, by decide +kernel, by decide +kernel, gotAll_next (f := State.fault) (by decide +kernel)⟩
theorem witness_dec_codes : Inv (fed [0x31, 0x30]) ∧ (fed [0x31, 0x30]).fault = false ∧ (fed [0x31, 0x30]).treeV = true ∧
    (fed [0x31, 0x30]).cur = (fed [0x31, 0x30]).root ∧ rootTree (fed [0x31, 0x30]) = .done tree3 ∧
    (∀ e ∈ [((0x63 : Byte), [true, false])], e ∈ tree3.codes) ∧
    (inputBytes (fed [0x31, 0x30])).drop (fed [0x31, 0x30]).ipos.toNat =
      ([((0x63 : Byte), [true, false])].flatMap fun e => e.2.map symbolOfBit) ++ [] ∧
    (fed [0x31, 0x30]).olen.toNat + [((0x63 : Byte), [true, false])].length ≤ (fed [0x31, 0x30]).params.outCap :=
  ⟨inv_run _, by decide +kernel⟩
theorem witness_dec_bad : Inv (fed [0x30, 0x32]) ∧ (fed [0x30, 0x32]).fault = false ∧ (fed [0x30, 0x32]).treeV = true ∧
    (fed [0x30, 0x32]).cur = (fed [0x30, 0x32]).root ∧ rootTree (fed [0x30, 0x32]) = .done tree3 ∧
    (fed [0x30, 0x32]).olen.toNat + 1 ≤ (fed [0x30, 0x32]).params.outCap ∧ (inputBytes (fed [0x30, 0x32])).drop (fed [0x30, 0x32]).ipos.toNat =
      ([((0x61 : Byte), [false])].flatMap fun e => e.2.map symbolOfBit) ++ 0x32 :: [] ∧ ((0x61 : Byte), [false]) ∈ tree3.codes ∧
    (0x32 : Byte) ≠ 0x30 ∧ (0x32 : Byte) ≠ 0x31 := ⟨inv_run _, by decide +kernel⟩
theorem witness_dec_truncated : Inv (fed [0x30, 0x31]) ∧ (fed [0x30, 0x31]).fault = false ∧ (fed [0x30, 0x31]).treeV = true ∧
    (fed [0x30, 0x31]).cur = (fed [0x30, 0x31]).root ∧ rootTree (fed [0x30, 0x31]) = .done tree3 ∧
    (fed [0x30, 0x31]).olen.toNat + 1 ≤ (fed [0x30, 0x31]).params.outCap ∧ ((0x61 : Byte), [false]) ∈ tree3.codes ∧
    (inputBytes (fed [0x30, 0x31])).drop (fed [0x30, 0x31]).ipos.toNat =
      ([((0x61 : Byte), [false])].flatMap fun e => e.2.map symbolOfBit) ++ [true].map symbolOfBit ∧
    ((0x63 : Byte), [true] ++ [false]) ∈ tree3.codes := ⟨inv_run _, by decide +kernel⟩
theorem witness_decomp_parts : (run (push (serTree ++ [0x0A, 0x30])) (board 64 64)).fault = false ∧
    ∃ u, execAll [.irew, .oclr, .tdes, .dlms, .dec] (run (push (serTree ++ [0x0A, 0x30])) (board 64 64)) = .next u ∧ u.fault = false :=
  ⟨by decide +kernel, gotAll_next (f := State.fault) (by decide +kernel)⟩
theorem witness_decomp_parts_fault : State.reset.fault = false ∧ ∃ u, execAll [.irew, .oclr, .tdes, .dlms, .dec] State.reset = .next u ∧ u.fault = true :=
  ⟨rfl, gotAll_next (f := State.fault) (by decide +kernel)⟩
theorem witness_decomp : Inv (run (push (serTree ++ [0x0A, 0x30])) (board 64 1)) ∧
    (run (push (serTree ++ [0x0A, 0x30])) (board 64 1)).fault = false ∧ 2 * tree3.leaves - 1 ≤ 511 ∧
    (∀ e ∈ [((0x61 : Byte), [false])], e ∈ tree3.codes) ∧
    [((0x61 : Byte), [false])].length = (run (push (serTree ++ [0x0A, 0x30])) (board 64 1)).params.outCap ∧
    inputBytes (run (push (serTree ++ [0x0A, 0x30])) (board 64 1)) =
      container (run (push (serTree ++ [0x0A, 0x30])) (board 64 1)).params.delim tree3 ([((0x61 : Byte), [false])].flatMap Prod.snd) :=
  ⟨inv_run _, by decide +kernel⟩
theorem witness_round_trip : Inv (run (push [0x41]) (board 4 4)) ∧ (run (push [0x41]) (board 4 4)).fault = false ∧
    ∃ t, exec .comp (run (push [0x41]) (board 4 4)) = .next t ∧ (t.fault = false ∧ t.olen.toNat ≤ (run (push [0x41]) (board 4 4)).params.inCap) := by
  refine ⟨inv_run _, by decide +kernel, ?_⟩
  obtain ⟨t, ht, hv⟩ := got_next (f := fun t => (t.fault, t.olen)) (i := .comp) (s := run (push [0x41]) (board 4 4)) (v := (false, 4))
    (by decide +kernel)
  simp only [Prod.mk.injEq] at hv
  exact ⟨t, ht, hv.1, by rw [hv.2]; decide +kernel⟩

end Sys2Proof.Tests
end

section
/-!
PROOFS of the family 10_state.md: the reset values (R46), the count of retired commands (R21), and the flags (R33, R34).
-/

namespace Sys2Proof.Machine

/-! ## What a command does to `CIX` -/

/-- All a command can answer: it is refused without effect, it retires after its pseudocode, or it faults (60_exceptions.md R277). -/
theorem exec_eq_next {i : Instr} {s t : State} (h : exec i s = .next t) :
    (s.fault = true ∧ t = s) ∨
    (s.fault = false ∧ t.fault = false ∧ ∃ u, body i s = .done u ∧ t = u.retire) ∨
    (s.fault = false ∧ ∃ k st off, body i s = .raised k st off ∧ t = s.enterFault (encode i) k st off) := by
  rw [exec_eq_issue] at h
  cases hs : s.fault
  · rcases (issue_eq_next hs).mp h with ⟨u, hu, rfl⟩ | hraised
    · obtain ⟨hfault, _⟩ := body_record hu
      exact .inr (.inl ⟨rfl, hfault.trans hs, u, hu, rfl⟩)
    · exact .inr (.inr ⟨rfl, hraised⟩)
  · rw [issue_faulted hs] at h
    cases h
    exact .inl ⟨rfl, rfl⟩

/-- `CIX` goes up by one when a command retires, and stays when it faults or is refused (R21). -/
theorem exec_cix {i : Instr} {s t : State} (h : exec i s = .next t) : t.cix = if t.fault = true then s.cix else s.cix + 1 := by
  rcases exec_eq_next h with ⟨hs, rfl⟩ | ⟨_, ht, u, hu, rfl⟩ | ⟨_, k, st, off, _, rfl⟩
  · simp [hs]
  · obtain ⟨_, _, _, _, _, _, hcix, _⟩ := body_record hu
    rw [ht, if_neg Bool.false_ne_true, State.retire_cix, hcix]
  · simp

@[simp] theorem State.setCix_fault (c : BitVec 32) (s : State) : (s.setCix c).fault = s.fault := rfl

/-- A command does the same from a state that differs only in `CIX`: no command reads it (R21). -/
theorem exec_setCix {i : Instr} {s t : State} (c : BitVec 32) (h : exec i s = .next t) :
    exec i (s.setCix c) = .next (t.setCix (if t.fault = true then c else c + 1)) := by
  have hbody := body_cix i c s
  rcases exec_eq_next h with ⟨hs, rfl⟩ | ⟨hs, ht, u, hu, rfl⟩ | ⟨hs, k, st, off, hr, rfl⟩
  · rw [exec_eq_issue, issue_faulted (by simpa using hs), if_pos hs]
  · rw [hu] at hbody
    rw [exec_of_done (by simpa using hs) hbody, ht]
    rfl
  · rw [hr] at hbody
    exact exec_of_raised (by simpa using hs) hbody

/-- A sequence of commands that ends without a fault advances `CIX` by its length (R21). -/
theorem execAll_cix {is : List Instr} {s t : State} (h : execAll is s = .next t) (hf : t.fault = false) :
    t.cix = s.cix + BitVec.ofNat 32 is.length := by
  cases hs : s.fault
  · rcases execAll_body hs h with ⟨u, _, rfl⟩ | ⟨_, _, _, _, hfault, _⟩
    · rfl
    · exact absurd hfault (by simp [hf])
  · rw [execAll_faulted hs] at h
    cases h
    exact absurd hs (by simp [hf])

/-! ## The flags -/

/-- `STATUS` is the word of its flags, `FAULT` least significant (R33). -/
theorem status_eq_ofNat_natOfBits (s : State) :
    status s = BitVec.ofNat 8 (natOfBits [s.fault, s.freqV, s.heapV, s.treeV, s.codeV, s.xrV, s.erroffV]) := by
  simp only [status, natOfBits]
  congr 1
  omega

/-- Each bit of `STATUS` is its flag (R33). -/
theorem status_getLsbD {s : State} {k : Nat} (hk : k < 8) :
    (status s).getLsbD k = [s.fault, s.freqV, s.heapV, s.treeV, s.codeV, s.xrV, s.erroffV].getD k false := by
  rw [status_eq_ofNat_natOfBits, BitVec.getLsbD_ofNat, natOfBits_testBit]
  simp [hk]

/-- The flags after a command's pseudocode, row by row of the table of R33: each command's frame names the flags it writes. -/
theorem body_flags {i : Instr} {s t : State} (h : body i s = .done t) :
    t.freqV = (if i ∈ [Instr.fscan, .comp] then true else s.freqV) ∧
    t.heapV = (if i = .pqbuild then true else if i ∈ [Instr.troot, .tbuild, .tdes, .comp, .decomp] then false
      else s.heapV) ∧
    t.treeV = (if i = .pqbuild then false else if i ∈ [Instr.troot, .tbuild, .tdes, .comp, .decomp] then true
      else s.treeV) ∧
    t.codeV = (if i ∈ [Instr.cgen, .comp] then true else s.codeV) ∧
    t.xrV = (if i = .pqext then true
      else if i ∈ [Instr.pqins, .pqbuild, .tbuild, .tdes, .comp, .decomp] then false else s.xrV) := by
  cases i with
  | ipush imm => rw [ipush_frame h]; simp
  | iclr => cases h; simp
  | irew => cases h; simp
  | oclr => cases h; simp
  | omov => rw [omov_frame h]; simp
  | fscan => rw [fscan_frame h]; simp
  | pqbuild => rw [pqbuild_frame h]; simp
  | pqins => rw [pqins_frame h]; simp
  | pqext => rw [pqext_frame h]; simp
  | merge => rw [merge_frame h]; simp
  | troot => rw [troot_frame h]; simp
  | tbuild => rw [tbuild_frame h]; simp
  | cgen => rw [cgen_frame h]; simp
  | tser => rw [tser_frame h]; simp
  | tdes => rw [tdes_frame h]; simp
  | enc => rw [enc_frame h]; simp
  | dlmw => rw [dlmw_frame h]; simp
  | comp => rw [comp_frame h]; simp
  | dlms => rw [dlms_frame h]; simp
  | dstep imm => rw [dstep_frame h]; simp
  | dend => rw [dend_frame h]; simp
  | dec => rw [dec_frame h]; simp
  | decomp => rw [decomp_frame h]; simp

/-! ## The statements -/

/-- Settles O9: every value is read off the definition of the reset state. -/
theorem resetState : Obligations.ResetState := by
  unfold Obligations.ResetState
  decide

/-- Settles O19: a command is its pseudocode issued, which keeps `CIX` and does not read it. -/
theorem cixCountsRetiredCommands : Obligations.CixCountsRetiredCommands := by
  refine ⟨fun i s t h => ⟨fun hf => ?_, fun hf => ?_⟩, fun i s t c h => exec_setCix c h, fun is s t h hf => execAll_cix h hf⟩
  · rw [exec_cix h, hf]; rfl
  · rw [exec_cix h, if_pos hf]

/-- Settles O20: a command that retires leaves the flags as its pseudocode leaves them. -/
theorem flagsAreWrittenAsTheTableSays : Obligations.FlagsAreWrittenAsTheTableSays := by
  refine ⟨fun s => ?_, fun i s t h hf => ?_⟩
  · have bit (k : Nat) (hk : k < 8) := status_getLsbD (s := s) hk
    exact ⟨bit 0 (by decide), bit 1 (by decide), bit 2 (by decide), bit 3 (by decide),
      bit 4 (by decide), bit 5 (by decide), bit 6 (by decide), bit 7 (by decide)⟩
  · obtain ⟨_, u, hu, rfl⟩ := done_of h hf
    obtain ⟨hfreq, hheap, htree, hcode, hxr⟩ := body_flags hu
    obtain ⟨_, _, _, _, _, herroff, _⟩ := body_record hu
    exact ⟨hfreq, hheap, htree, hcode, hxr, herroff⟩

end Sys2Proof.Machine
end

section
/-!
PROOFS of the family 30_encoding.md: the decoder undoes the encoder and the encoder the decoder (R100, R104), and a word is the
command of a row when `w & mask = match` (R103).
-/

namespace Sys2Proof

/-! ## Decoding and encoding -/

/-- Every command is decoded from its own word (R104). -/
@[simp] theorem decode_encode (i : Instr) : decode (encode i) = .ok i := by
  cases i with
  | ipush imm => simp [decode, opField_encode, immField_encode, Instr.opcode, Instr.operand]
  | dstep imm => simp [decode, opField_encode, immField_encode, Instr.opcode, Instr.operand]
  | _ => rfl

/-- The fields of a word that decodes are those of its command (R100, R104). -/
theorem fields_of_decode {w : CmdWord} {i : Instr} (h : decode w = .ok i) : i.opcode = opField w ∧ i.operand = immField w := by
  simp only [decode] at h
  split at h
  · rename_i hop
    cases h
    exact ⟨hop.symm, rfl⟩
  split at h
  · rename_i hop
    cases h
    exact ⟨hop.symm, rfl⟩
  split at h
  · cases h
  · rename_i hop
    split at h
    · rename_i himm
      cases h
      rw [himm]
      exact formatNInstr_eq hop
    · cases h

/-- A word decodes to the one command that it encodes. -/
theorem decode_eq_ok_iff {w : CmdWord} {i : Instr} : decode w = .ok i ↔ encode i = w := by
  constructor
  · intro h
    obtain ⟨hop, himm⟩ := fields_of_decode h
    rw [encode, hop, himm, fields_append]
  · rintro rfl
    exact decode_encode i

/-! ## The rows of the opcode map -/

/-- The mask of format I keeps the opcode and clears the operand. -/
theorem and_formatI_mask (w : CmdWord) : w &&& 0xFF00 = opField w ++ (0 : Byte) := by
  calc w &&& 0xFF00 = (opField w ++ immField w) &&& ((0xFF : Byte) ++ (0 : Byte)) := by rw [fields_append]; rfl
    _ = (opField w &&& BitVec.allOnes 8) ++ (immField w &&& 0#8) := BitVec.and_append
    _ = opField w ++ (0 : Byte) := by rw [BitVec.and_allOnes, BitVec.and_zero]; rfl

/-- A row of format I covers the words with its opcode (R103). -/
theorem covers_formatI_iff {op : Byte} {w : CmdWord} :
    (OpcodeRow.mk (op ++ (0 : Byte)) 0xFF00).covers w = true ↔ opField w = op := by
  rw [OpcodeRow.covers, beq_iff_eq, and_formatI_mask]
  constructor
  · intro h
    rw [← opField_append (opField w) 0, h, opField_append]
  · rintro rfl
    rfl

/-- A row of format N covers one word, its pattern (R103). -/
theorem covers_formatN_iff {p w : CmdWord} : (OpcodeRow.mk p 0xFFFF).covers w = true ↔ w = p := by
  rw [OpcodeRow.covers, beq_iff_eq, show (0xFFFF : CmdWord) = BitVec.allOnes 16 from rfl, BitVec.and_allOnes]

/-- A command's row is of format N, with its encoding as the pattern, or of format I, shared by commands with every operand
byte (R101, R103). -/
theorem row_formatN_or_formatI (i : Instr) :
    i.row = ⟨encode i, 0xFFFF⟩ ∨
    (i.row = ⟨i.opcode ++ (0 : Byte), 0xFF00⟩ ∧ ∀ imm : Byte, ∃ j, encode j = i.opcode ++ imm ∧ j.row = i.row) := by
  cases i with
  | ipush _ => exact .inr ⟨by simp [Instr.row, Instr.opcode], fun imm => ⟨.ipush imm, rfl, rfl⟩⟩
  | dstep _ => exact .inr ⟨by simp [Instr.row, Instr.opcode], fun imm => ⟨.dstep imm, rfl, rfl⟩⟩
  | _ => exact .inl rfl

/-- A command's row covers its encoding. -/
theorem row_covers_encode (i : Instr) : i.row.covers (encode i) = true := by
  rcases row_formatN_or_formatI i with hrow | ⟨hrow, _⟩
  · rw [hrow, covers_formatN_iff]
  · rw [hrow, covers_formatI_iff, opField_encode]

/-- A word that a row covers is the encoding of a command of that row. -/
theorem exists_encode_of_covers {i : Instr} {w : CmdWord} (h : i.row.covers w = true) : ∃ j, encode j = w ∧ j.row = i.row := by
  rcases row_formatN_or_formatI i with hrow | ⟨hrow, hall⟩
  · rw [hrow, covers_formatN_iff] at h
    exact ⟨i, h.symm, rfl⟩
  · rw [hrow, covers_formatI_iff] at h
    obtain ⟨j, hj, hjrow⟩ := hall (immField w)
    exact ⟨j, by rw [hj, ← h, fields_append], hjrow⟩

/-! ## The statement -/

/-- Settles O4: the words a row covers are the encodings of its commands, which are the words that decode to them. -/
theorem opcodeRowsDecideTheCommand : Obligations.OpcodeRowsDecideTheCommand := by
  intro w i
  simp only [decode_eq_ok_iff]
  constructor
  · exact exists_encode_of_covers
  · rintro ⟨j, rfl, hrow⟩
    rw [← hrow]
    exact row_covers_encode j

end Sys2Proof
end

section
/-!
PROOFS of the family 40_buffers_freq.md: the buffer commands (R130 to R134) and FSCAN (R136). Each command's pseudocode has
one equation per outcome; a statement then follows from the command being its pseudocode issued.
-/

namespace Sys2Proof.Machine

/-! ## Faulting -/

/-- A command whose pseudocode raises writes the fault record (60_exceptions.md R274). -/
theorem faults_of_raised {i : Instr} {s : State} {k : ErrKind} {st : Stage} {off : Option (BitVec 32)} (h : s.fault = false)
    (hb : body i s = .raised k st off) : Faults i s k st off :=
  ⟨s.enterFault (encode i) k st off, exec_of_raised h hb, rfl, rfl, rfl, rfl, rfl, rfl, rfl⟩

/-! ## The buffer commands -/

theorem ipush_done {s : State} (imm : Byte) (h : s.ilen.toNat < s.params.inCap) : ipush imm s = .done (s.pushIn imm) := by
  rw [ipush, if_neg (Nat.ne_of_lt h), if_neg (Nat.lt_asymm h)]

theorem ipush_raised {s : State} (imm : Byte) (h : s.ilen.toNat = s.params.inCap) :
    ipush imm s = .raised .io .buf (some s.ilen) := by
  rw [ipush, if_pos h]

theorem scanOutput_done {s : State} (h : s.olen.toNat ≤ s.params.outCap) : scanOutput s = .done (outputBytes s) := by
  rw [scanOutput, if_pos h]

/-- The state OMOV makes (R134). -/
def State.moved (s : State) : State :=
  { s.clearOut with ibuf := Memory.ofList (outputBytes s), ilen := s.olen, ipos := 0 }

theorem omov_done {s : State} (hin : s.olen.toNat ≤ s.params.inCap) (hout : s.olen.toNat ≤ s.params.outCap) :
    omov s = .done s.moved := by
  rw [omov, if_neg (Nat.not_lt.mpr hin), scanOutput_done hout]
  rfl

theorem omov_raised {s : State} (h : s.params.inCap < s.olen.toNat) :
    omov s = .raised .io .buf (some (BitVec.ofNat 32 s.params.inCap)) := by
  rw [omov, if_pos h]

/-- OMOV copies what `OBUF` reads as, free values included. -/
theorem moved_ibufAt {s : State} {k : Nat} (hk : k < s.olen.toNat) : ibufAt s.moved k = obufAt s k := by
  simp [ibufAt, State.moved, outputBytes, hk]

/-! ## FSCAN -/

/-- The occurrences of a byte in the input are the positions that hold it. -/
theorem count_inputBytes (s : State) {y : Nat} (hy : y < 256) :
    (inputBytes s).count (BitVec.ofNat 8 y) = ((List.range s.ilen.toNat).filter fun k => (ibufAt s k).toNat = y).length := by
  have hbyte (k : Nat) : ibufAt s k = BitVec.ofNat 8 y ↔ (ibufAt s k).toNat = y := by
    rw [← BitVec.toNat_inj, BitVec.toNat_ofNat, Nat.mod_eq_of_lt hy]
  rw [inputBytes, List.count, List.countP_map, List.countP_eq_length_filter]
  refine congrArg List.length (List.filter_congr fun k _ => Bool.eq_iff_iff.mpr ?_)
  simp [hbyte]

/-- No count overflows: a byte occurs at most `ILEN` times. -/
theorem countOf_inputBytes_toNat (s : State) (y : Nat) :
    (countOf (inputBytes s) y).toNat = (inputBytes s).count (BitVec.ofNat 8 y) := by
  have hle : (inputBytes s).count (BitVec.ofNat 8 y) ≤ s.ilen.toNat := inputBytes_length s ▸ List.count_le_length
  exact Nat.mod_eq_of_lt (Nat.lt_of_le_of_lt hle s.ilen.isLt)

/-- `D` read off the table itself (R136), not off the input. -/
theorem scanned_dsym_eq_positive (s : State) :
    s.scanned.dsym.toNat = ((List.range 256).filter fun y => 0 < (freqAt s.scanned y).toNat).length := by
  rw [scanned_dsym, ← scanned_present]
  refine congrArg List.length (List.filter_congr fun y _ => ?_)
  simp [Nat.pos_iff_ne_zero, ← BitVec.toNat_inj]

/-! ## The statements -/

/-- Settles O26: IPUSH is one write at `ILEN`, or it raises. -/
theorem ipushAppendsOneByte : Obligations.IpushAppendsOneByte := by
  refine fun s imm hf => ⟨fun hroom => ?_, fun hfull => faults_of_raised hf (ipush_raised imm hfull)⟩
  exact ⟨(s.pushIn imm).retire, exec_of_done hf (ipush_done imm hroom), Memory.read_write_same _ _ _,
    fun _ ha => Memory.read_write_other _ _ ha, rfl⟩

/-- Settles O27: the state ICLR makes is written out in its pseudocode. -/
theorem iclrStartsANewInput : Obligations.IclrStartsANewInput :=
  fun s hf => ⟨{ s with ilen := 0, ipos := 0, ibuf := [], cix := s.cix + 1 },
    exec_of_done (t := { s with ilen := 0, ipos := 0, ibuf := [] }) hf rfl, rfl⟩

/-- Settles O28: the state IREW makes is written out in its pseudocode. -/
theorem irewRewindsTheCursor : Obligations.IrewRewindsTheCursor :=
  fun s hf => exec_of_done (t := { s with ipos := 0 }) hf rfl

/-- Settles O29: OCLR clears the output and does nothing else. -/
theorem oclrStartsANewOutput : Obligations.OclrStartsANewOutput :=
  fun s hf => ⟨s.clearOut.retire, exec_of_done hf rfl, rfl⟩

/-- Settles O30: OMOV lists the output's bytes as the input, or it raises. -/
theorem omovMovesOutputToInput : Obligations.OmovMovesOutputToInput := by
  refine fun s hf => ⟨fun hin hout => ?_, fun hlarge => faults_of_raised hf (omov_raised hlarge)⟩
  exact ⟨s.moved.retire, exec_of_done hf (omov_done hin hout), fun _ hk => moved_ibufAt hk, rfl⟩

/-- Settles O31: the counts FSCAN writes are numbers of occurrences, which do not overflow. -/
theorem fscanCountsTheInput : Obligations.FscanCountsTheInput := by
  refine fun s hf hfit => ⟨s.scanned.retire, exec_of_done hf (fscan_done hfit), fun y hy => ?_, scanned_dsym_eq_positive s, rfl⟩
  calc (freqAt s.scanned y).toNat
      _ = (countOf (inputBytes s) y).toNat := by rw [scanned_freqAt hy]
      _ = (inputBytes s).count (BitVec.ofNat 8 y) := countOf_inputBytes_toNat s y
      _ = ((List.range s.ilen.toNat).filter fun k => (ibufAt s k).toNat = y).length := count_inputBytes s hy

end Sys2Proof.Machine
end

section
/-!
PROOFS of the family 41_priority_queue.md: the order of the queue (R151), PQBUILD (R154) and PQEXT (R158). The least member of
R153 is `pqLeast`, and the two commands have one equation per outcome of their pseudocode.
-/

namespace Sys2Proof.Machine

/-! ## The order -/

/-- Equal weights are equal words, so R151's tie is a tie of the registers. -/
theorem less_iff_weight_eq {s : State} {i j : NodeIdx} :
    less s i j = true ↔ (nodeAt s i).weight.toNat < (nodeAt s j).weight.toNat ∨
      ((nodeAt s i).weight = (nodeAt s j).weight ∧ i.toNat < j.toNat) := by
  rw [less_iff, BitVec.toNat_inj]

theorem exists_pqLeast_eq_some (s : State) {q : List NodeIdx} (h : q ≠ []) : ∃ x, pqLeast s q = some x :=
  Option.ne_none_iff_exists'.mp (mt pqLeast_eq_none.mp h)

/-- A queue that is not empty has exactly one least member (R151). -/
theorem exists_unique_least (s : State) {q : List NodeIdx} (h : q ≠ []) :
    ∃ x ∈ q, (∀ y ∈ q, y ≠ x → less s x y = true) ∧ ∀ z ∈ q, (∀ y ∈ q, y ≠ z → less s z y = true) → z = x := by
  obtain ⟨x, hx⟩ := exists_pqLeast_eq_some s h
  obtain ⟨hmem, hleast⟩ := pqLeast_spec hx
  exact ⟨x, hmem, hleast, fun z hz hzleast => Option.some.inj ((pqLeast_unique hz hzleast).symm.trans hx)⟩

/-! ## PQBUILD -/

theorem pqbuild_raised {s : State} (h : s.freqV = false) : pqbuild s = .raised .sequence .pq none := by
  rw [pqbuild, h, need_false, Res.raised_bind]

/-- A count that is not zero is a positive number. -/
theorem presentSymbols_eq_filter_pos (count : Nat → BitVec 32) :
    presentSymbols count = (List.range 256).filter fun y => 0 < (count y).toNat := by
  refine List.filter_congr fun y _ => ?_
  simp [Nat.pos_iff_ne_zero, ← BitVec.toNat_inj]

theorem queued_hsize (s : State) : s.queued.hsize.toNat = (presentSymbols (freqAt s)).length :=
  Nat.mod_eq_of_lt (Nat.lt_of_le_of_lt (present_length (freqAt s)) (by decide))

/-- The queue PQBUILD makes holds the indices of the leaves (R154). -/
theorem mem_queued_pq {s : State} {x : NodeIdx} : x ∈ s.queued.pq ↔ x.toNat < (presentSymbols (freqAt s)).length := by
  have hlen := present_length (freqAt s)
  simp only [State.queued, List.mem_map, List.mem_range]
  constructor
  · rintro ⟨k, hk, rfl⟩
    rwa [BitVec.toNat_ofNat, Nat.mod_eq_of_lt (by omega)]
  · exact fun hx => ⟨x.toNat, hx, by rw [BitVec.ofNat_toNat, BitVec.setWidth_eq]⟩

/-! ## PQEXT -/

theorem pqExtractMin_raised {st : Stage} {s : State} (h : s.hsize = 0) :
    pqExtractMin st s = .raised .emptyQueue st none := by
  rw [pqExtractMin, if_pos h]

theorem pqExtractMin_done {st : Stage} {s : State} {x : NodeIdx} (h : s.hsize ≠ 0) (hx : pqLeast s s.pq = some x) :
    pqExtractMin st s = .done (x, s.tookMin x) := by
  rw [pqExtractMin, if_neg h, hx]
  rfl

theorem pqext_raised_of_no_queue {s : State} (h : s.heapV = false) : pqext s = .raised .sequence .pq none := by
  rw [pqext, h, need_false, Res.raised_bind]

theorem pqext_raised_of_empty {s : State} (hv : s.heapV = true) (h : s.hsize = 0) :
    pqext s = .raised .emptyQueue .pq none := by
  rw [pqext, hv, need_true, Res.done_bind, pqExtractMin_raised h, Res.raised_bind]

/-- The state PQEXT makes when it takes `x` (R158). -/
def State.tookInHand (x : NodeIdx) (s : State) : State := { s.tookMin x with xr := x, xrV := true }

theorem pqext_done {s : State} {x : NodeIdx} (hv : s.heapV = true) (h : s.hsize ≠ 0) (hx : pqLeast s s.pq = some x) :
    pqext s = .done (s.tookInHand x) := by
  rw [pqext, hv, need_true, Res.done_bind, pqExtractMin_done h hx]
  rfl

/-! ## The statements -/

/-- Settles O33: the order compares pairs of numbers, and the least member is the one `pqLeast` finds. -/
theorem lessIsAStrictTotalOrder : Obligations.LessIsAStrictTotalOrder :=
  fun s => ⟨fun _ _ => less_iff_weight_eq, less_irrefl s, fun _ _ _ => less_trans, fun _ _ => less_total,
    fun _ => exists_unique_least s⟩

/-- Settles O34: at most 256 symbols are present, so the indices and lengths PQBUILD writes fit their registers. -/
theorem pqbuildMakesTheLeaves : Obligations.PqbuildMakesTheLeaves := by
  refine fun s hf => ⟨fun hv => faults_of_raised hf (pqbuild_raised hv), fun hv ys hys => ?_⟩
  rw [← presentSymbols_eq_filter_pos] at hys
  subst hys
  exact ⟨s.queued.retire, exec_of_done hf (pqbuild_done hv), fun _ hk => queued_nodeAt hk, queued_ncnt s,
    fun hinv => ((hinv.live hf).freq hv).dsym.symm, queued_hsize s, fun _ => mem_queued_pq, rfl⟩

/-- Settles O36: PQEXT takes what `pqLeast` finds in a queue that is not empty, or it raises. -/
theorem pqextTakesTheLeastNode : Obligations.PqextTakesTheLeastNode := by
  refine fun s hf => ⟨fun hv => faults_of_raised hf (pqext_raised_of_no_queue hv),
    fun hv hempty => faults_of_raised hf (pqext_raised_of_empty hv hempty), fun hv hsize hne => ?_⟩
  obtain ⟨x, hx⟩ := exists_pqLeast_eq_some s hne
  obtain ⟨hmem, hleast⟩ := pqLeast_spec hx
  exact ⟨x, (s.tookInHand x).retire, exec_of_done hf (pqext_done hv hsize hx), hmem, hleast, fun _ => mem_pqDrop, rfl⟩

end Sys2Proof.Machine
end

section
/-!
PROOFS of the family 42_tree_builder.md: TROOT (R172). It has one equation per outcome of its pseudocode; the invariant's
`|PQ| = HSIZE` makes the queue of the last outcome a single node.
-/

namespace Sys2Proof.Machine

/-! ## TROOT -/

theorem troot_raised_of_no_queue {s : State} (h : s.heapV = false) : troot s = .raised .sequence .build none := by
  rw [troot, h, need_false, Res.raised_bind]

theorem troot_raised_of_empty {s : State} (hv : s.heapV = true) (h : s.hsize = 0) :
    troot s = .raised .emptyQueue .build none := by
  rw [troot, hv, need_true, Res.done_bind, if_pos h]

theorem troot_raised_of_many {s : State} (hv : s.heapV = true) (h : 1 < s.hsize.toNat) :
    troot s = .raised .sequence .build none := by
  have hne : s.hsize ≠ 0 := fun h0 => by simp [h0] at h
  rw [troot, hv, need_true, Res.done_bind, if_neg hne, if_pos h]

/-- The state TROOT makes of the queue's last node (R172). -/
def State.rooted (r : NodeIdx) (s : State) : State :=
  { s with pq := [], hsize := 0, root := r, cur := r, heapV := false, treeV := true }

/-- Taking the one member of a queue leaves none. -/
theorem tookMin_singleton {s : State} {r : NodeIdx} (h : s.hsize = 1) (hq : s.pq = [r]) :
    s.tookMin r = { s with pq := [], hsize := 0 } := by
  simp [State.tookMin, pqDrop, h, hq]

theorem troot_done {s : State} {r : NodeIdx} (hv : s.heapV = true) (h : s.hsize = 1) (hq : s.pq = [r]) :
    troot s = .done (s.rooted r) := by
  have hleast : pqLeast s s.pq = some r := by rw [hq]; rfl
  rw [troot, hv, need_true, Res.done_bind, if_neg (by simp [h]), if_neg (by simp [h]),
    pqExtractMin_done (by simp [h]) hleast, Res.done_bind, tookMin_singleton h hq]
  rfl

/-- Where the invariant holds, `HSIZE = 1` leaves one node in the queue (R26). -/
theorem HeapInv.pq_eq_singleton {s : State} (hh : HeapInv s) (h : s.hsize = 1) : ∃ r, s.pq = [r] :=
  List.length_eq_one_iff.mp (by rw [← hh.size, h]; rfl)

/-! ## The statement -/

/-- Settles O39: TROOT tests the flag and then `HSIZE`, and at `HSIZE = 1` the queue is the one node it takes. -/
theorem trootTakesTheLastNode : Obligations.TrootTakesTheLastNode := by
  refine fun s hinv hf => ⟨fun hv => faults_of_raised hf (troot_raised_of_no_queue hv),
    fun hv hempty => faults_of_raised hf (troot_raised_of_empty hv hempty),
    fun hv hmany => faults_of_raised hf (troot_raised_of_many hv hmany), fun hv hone => ?_⟩
  obtain ⟨r, hr⟩ := ((hinv.live hf).heap hv).pq_eq_singleton hone
  exact ⟨r, hr, exec_of_done (t := s.rooted r) hf (troot_done hv hone hr)⟩

end Sys2Proof.Machine
end

section
/-!
PROOFS of the family 43_code_generator.md: CGEN (R190). The table it writes is `codeTable`, whose entries `codeTable_other` and
`codeTable_last` give; a tree the arena holds is shallow enough for its codes to fit the records (R193).
-/

namespace Sys2Proof.Machine

open Sys2Proof.Config

/-! ## CGEN -/

theorem cgen_raised {s : State} (h : s.treeV = false) : cgen s = .raised .sequence .cgen none := by
  rw [cgen, h, need_false, Res.raised_bind]

/-- Every code of a tree the arena holds fits a code record (R193). -/
theorem rootTree_codes_fit {s : State} {tr : Tree} (ht : rootTree s = .done tr) {e : Byte × List Bool} (he : e ∈ tr.codes) :
    e.2.length ≤ maxLen := by
  have hdepth : tr.depth < 256 := treeAt_depth ht
  have hcode := (tr.codes_length he).2
  simp only [maxLen]
  omega

/-- The record of a code that fits is valid and holds the code's length and bits (R190). -/
theorem codeOfPath_spec {p : List Bool} (h : p.length ≤ maxLen) :
    (codeOfPath p).valid = true ∧ (codeOfPath p).len.toNat = p.length ∧
      ∀ k, (codeOfPath p).bits.getLsbD k = p.getD k false :=
  ⟨rfl, codeOfPath_len h, codeOfPath_getLsbD h⟩

/-- A symbol at no leaf keeps its cleared entry. -/
theorem coded_codeAt_other (s : State) {tr : Tree} {y : Byte} (h : y ∉ tr.symbols) : codeAt (s.coded tr) y = noCode := by
  simp [codeAt, State.coded, codeTable_other h]

/-- A symbol's entry is the record of the last code written for it (R194). -/
theorem coded_codeAt_last (s : State) {tr : Tree} {before after : List (Byte × List Bool)} {y : Byte} {p : List Bool}
    (h : tr.codes = before ++ (y, p) :: after) (hy : y ∉ after.map Prod.fst) : codeAt (s.coded tr) y = codeOfPath p := by
  simp [codeAt, State.coded, codeTable_last h hy]

/-! ## The statement -/

/-- Settles O42: CGEN writes the code table of the root's tree, or it raises. -/
theorem cgenWritesThePathCodes : Obligations.CgenWritesThePathCodes := by
  refine fun s hf => ⟨fun hv => faults_of_raised hf (cgen_raised hv), fun tr hv ht => ?_⟩
  refine ⟨(s.coded tr).retire, exec_of_done hf (cgen_done hv ht), fun y => coded_codeAt_other s,
    fun before y p after hcodes hlast => ?_, rfl⟩
  have hfit : p.length ≤ maxLen := rootTree_codes_fit ht (e := (y, p)) (by simp [hcodes])
  have hentry : codeAt (s.coded tr).retire y = codeOfPath p := coded_codeAt_last s hcodes hlast
  rw [hentry]
  exact codeOfPath_spec hfit

end Sys2Proof.Machine
end

section
/-!
PROOFS of the family 44_tree_serdes.md: TSER (R201). It appends one byte string, fixed before the first byte is written: the bytes
of a string are appended one by one, and two appends in a row are one append of both strings.
-/

namespace Sys2Proof.Machine

/-! ## Appending -/

theorem appended_nil (s : State) : Appended s s [] := ⟨rfl, fun _ hk => absurd hk (Nat.not_lt_zero _), fun _ _ => rfl⟩

/-- One byte is one write at `OLEN`, where `OLEN` does not wrap. -/
theorem appended_pushOut {s : State} (b : Byte) (h : s.olen.toNat + 1 < 2 ^ 32) : Appended s (s.pushOut b) [b] := by
  refine ⟨State.pushOut_olen_toNat h, fun k hk => ?_, fun a ha => Memory.read_write_other _ _ ?_⟩
  · obtain rfl : k = 0 := by simpa using hk
    exact Memory.read_write_same _ _ _
  · rw [List.length_singleton] at ha
    omega

/-- What two appends in a row append: the second leaves the bytes of the first alone. -/
theorem Appended.trans {s t u : State} {as bs : List Byte} (hst : Appended s t as) (htu : Appended t u bs) :
    Appended s u (as ++ bs) := by
  obtain ⟨htlen, htread, htframe⟩ := hst
  obtain ⟨hulen, huread, huframe⟩ := htu
  refine ⟨by rw [hulen, htlen, List.length_append, Nat.add_assoc], fun k hk => ?_, fun a ha => ?_⟩
  · rw [List.length_append] at hk
    rcases Nat.lt_or_ge k as.length with hfirst | hsecond
    · rw [huframe _ (.inl (by omega)), htread k hfirst, List.getElem_append_left hfirst]
    · have hoff : s.olen.toNat + k = t.olen.toNat + (k - as.length) := by omega
      rw [hoff, huread _ (by omega), List.getElem_append_right hsecond]
  · rw [List.length_append] at ha
    rw [huframe a (by omega), htframe a (by omega)]

theorem appended_pushAll {s : State} {bs : List Byte} (h : s.olen.toNat + bs.length < 2 ^ 32) :
    Appended s (s.pushAll bs) bs := by
  induction bs generalizing s with
  | nil => exact appended_nil s
  | cons b bs ih =>
    rw [List.length_cons] at h
    have hone : (s.pushOut b).olen.toNat = s.olen.toNat + 1 := State.pushOut_olen_toNat (by omega)
    exact (appended_pushOut b (by omega)).trans (ih (by omega))

/-- A command whose pseudocode appends a byte string retires with the string appended where it fits, and raises `IOError` at
`OUT_CAP` where it does not (R12). -/
theorem exec_appends {i : Instr} {st : Stage} {bs : List Byte} {s : State} (hf : s.fault = false)
    (hp : paramsWellFormed s.params = true) (hlen : s.olen.toNat ≤ s.params.outCap)
    (hbody : body i s = outAppendAll st bs s) :
    (s.olen.toNat + bs.length ≤ s.params.outCap → ∃ t, exec i s = .next t ∧ Appended s t bs ∧
      t = { s with obuf := t.obuf, olen := t.olen, cix := s.cix + 1 }) ∧
    (s.params.outCap < s.olen.toNat + bs.length → Faults i s .io st (some (BitVec.ofNat 32 s.params.outCap))) := by
  obtain ⟨_, _, _, hcap, _⟩ := params_bounds hp
  rcases outAppendAll_cases (st := st) (bs := bs) hcap hlen with ⟨hfits, hdone⟩ | ⟨hfull, hraised⟩
  · refine ⟨fun _ => ?_, fun hfull => absurd hfits (Nat.not_le.mpr hfull)⟩
    exact ⟨(s.pushAll bs).retire, exec_of_done hf (hbody.trans hdone), appended_pushAll (Nat.lt_of_le_of_lt hfits hcap),
      congrArg State.retire (State.pushAll_frame bs s)⟩
  · exact ⟨fun hfits => absurd hfits (Nat.not_le.mpr hfull), fun _ => faults_of_raised hf (hbody.trans hraised)⟩

/-! ## TSER -/

theorem tser_raised {s : State} (h : s.treeV = false) : tser s = .raised .sequence .ser none := by
  rw [tser, h, need_false, Res.raised_bind]

/-- With a tree, TSER appends its serialization (R201). -/
theorem tser_eq_outAppendAll {s : State} {tr : Tree} (hv : s.treeV = true) (ht : rootTree s = .done tr) :
    tser s = outAppendAll .ser tr.ser s := by
  rw [tser, hv, need_true, Res.done_bind, ht, Res.done_bind]

/-! ## The statement -/

/-- Settles O44: TSER is one append of the root tree's serialization, or it raises. -/
theorem tserAppendsTheSerializedTree : Obligations.TserAppendsTheSerializedTree := by
  refine fun s hf hp hlen => ⟨fun hv => faults_of_raised hf (tser_raised hv), fun tr hv ht => ?_⟩
  exact ⟨tr.ser_length, exec_appends hf hp hlen (tser_eq_outAppendAll hv ht)⟩

end Sys2Proof.Machine
end

section
/-!
PROOFS of the family 45_encoder.md: ENC (R221) and DLMW (R223). What ENC does splits at any input offset before which every byte
has a code: the codes up to there are one append, and the rest of the input is encoded after it.
-/

namespace Sys2Proof.Machine

open Sys2Proof.Config

/-! ## DLMW -/

/-- Settles O49: DLMW is one append of the delimiter. -/
theorem dlmwAppendsTheDelimiter : Obligations.DlmwAppendsTheDelimiter :=
  fun _ hf hp hlen => exec_appends hf hp hlen rfl

/-! ## ENC -/

/-- A code in the table has at most the 255 bits a record holds (R41). -/
theorem CodeInv.len_le_maxLen {s : State} {y : Byte} (h : CodeInv s) (hv : (codeAt s y).valid = true) :
    (codeAt s y).len.toNat ≤ maxLen := by
  have hok := h.codes y
  rw [codeRecOk, if_pos hv] at hok
  obtain ⟨_, hmax, _⟩ := hok
  exact hmax

theorem enc_raised {s : State} (h : s.codeV = false) : enc s = .raised .sequence .enc none := by
  rw [enc, h, need_false, Res.raised_bind]

theorem enc_eq_encBytes {s : State} (hs : LiveInv s) (hv : s.codeV = true) : enc s = encBytes 0 (inputBytes s) s := by
  rw [enc, hv, need_true, Res.done_bind, scanInput_done hs.buffers.ilen, Res.done_bind]

/-- Input bytes that all have codes, from offset `i` on: their codes are one append (R221, R222). -/
theorem encBytes_eq_outAppendAll {s : State} (i : Nat) {ys : List Byte} (hs : LiveInv s) (hv : s.codeV = true)
    (hcodes : ∀ y ∈ ys, (codeAt s y).valid = true) : encBytes i ys s = outAppendAll .enc (ys.flatMap (bitsOf s)) s :=
  encBytes_valid fun y hy => ⟨hcodes y hy, (hs.code hv).len_le_maxLen (hcodes y hy)⟩

/-- ENC appends the codes of a first part of the input in which every byte has one, and goes on with the rest (R221). -/
theorem enc_split {s : State} {before after : List Byte} (hs : LiveInv s) (hv : s.codeV = true)
    (hin : inputBytes s = before ++ after) (hcodes : ∀ z ∈ before, (codeAt s z).valid = true) :
    enc s = (outAppendAll .enc (before.flatMap (bitsOf s)) s).bind (encBytes before.length after) := by
  rw [enc_eq_encBytes hs hv, hin, encBytes_append, encBytes_eq_outAppendAll 0 hs hv hcodes, Nat.zero_add]

/-- ENC writes one bit symbol per code bit (R221). -/
theorem length_flatMap_bitsOf (s : State) (ys : List Byte) :
    (ys.flatMap (bitsOf s)).length = (ys.flatMap fun z => pathOfCode (codeAt s z)).length := by
  rw [flatMap_bitsOf, List.length_map]

/-- The buffer fills while ENC writes the codes of a first part of the input. -/
theorem enc_raised_of_full {s : State} {before after : List Byte} (hs : LiveInv s) (hv : s.codeV = true)
    (hin : inputBytes s = before ++ after) (hcodes : ∀ z ∈ before, (codeAt s z).valid = true)
    (hfull : s.params.outCap < s.olen.toNat + (before.flatMap (bitsOf s)).length) :
    enc s = .raised .io .enc (some (BitVec.ofNat 32 s.params.outCap)) := by
  obtain ⟨_, _, _, hcap, _⟩ := params_bounds hs.buffers.params
  rw [enc_split hs hv hin hcodes]
  rcases outAppendAll_cases (st := .enc) (bs := before.flatMap (bitsOf s)) hcap hs.buffers.olen with
    ⟨hfits, _⟩ | ⟨_, hraised⟩
  · exact absurd hfits (Nat.not_le.mpr hfull)
  · rw [hraised, Res.raised_bind]

/-- ENC reaches the first input byte without a code: the codes before it fit. Appending them leaves the code table alone. -/
theorem enc_raised_of_unknown {s : State} {before after : List Byte} {y : Byte} (hs : LiveInv s) (hv : s.codeV = true)
    (hin : inputBytes s = before ++ y :: after) (hcodes : ∀ z ∈ before, (codeAt s z).valid = true)
    (hy : (codeAt s y).valid = false) (hfits : s.olen.toNat + (before.flatMap (bitsOf s)).length ≤ s.params.outCap) :
    enc s = .raised .unknownSymbol .enc (some (BitVec.ofNat 32 before.length)) := by
  obtain ⟨_, _, _, hcap, _⟩ := params_bounds hs.buffers.params
  have hdone := outAppendAll_done (st := .enc) hcap hfits
  have hunknown : (codeAt (s.pushAll (before.flatMap (bitsOf s))) y).valid = false := by rw [codeAt_append hdone, hy]
  rw [enc_split hs hv hin hcodes, hdone, Res.done_bind, encBytes, encByte_unknown hunknown, Res.raised_bind]

/-- Settles O48: ENC is one append of the codes where every input byte has one; else it raises at the first code that does not
fit or the first byte without a code. -/
theorem encAppendsTheCodes : Obligations.EncAppendsTheCodes := by
  intro s hinv hf
  have hs := hinv.live hf
  refine ⟨fun hv => faults_of_raised hf (enc_raised hv), fun hv hcodes bits hbits hfits => ?_,
    fun before after hv hin hcodes hfull => ?_, fun before y after hv hin hy hcodes hfits => ?_⟩
  · subst hbits
    have hbody : enc s = outAppendAll .enc ((inputBytes s).flatMap (bitsOf s)) s :=
      (enc_eq_encBytes hs hv).trans (encBytes_eq_outAppendAll 0 hs hv hcodes)
    exact (exec_appends (i := .enc) hf hinv.params hs.buffers.olen hbody).1 hfits
  · rw [← length_flatMap_bitsOf] at hfull
    exact faults_of_raised hf (enc_raised_of_full hs hv hin hcodes hfull)
  · rw [← length_flatMap_bitsOf] at hfits
    exact faults_of_raised hf (enc_raised_of_unknown hs hv hin hcodes hy hfits)

end Sys2Proof.Machine
end

section
/-!
PROOFS of the family 46_decoder.md: DLMS (R240), DSTEP (R244) and DEND (R246). Each command's pseudocode has one equation per
outcome. DLMS searches a list; the delimiter stands at an input offset when the input from there on begins with it.
-/

namespace Sys2Proof.Machine

/-! ## The delimiter's offset -/

/-- The search finds the first offset from which the list begins with the delimiter. -/
theorem findDelim_eq_some_of_first {d bs : List Byte} {p k : Nat} (hk : d <+: bs.drop k)
    (hfirst : ∀ j < k, ¬ d <+: bs.drop j) : findDelim d p bs = some (p + k) := by
  simp only [← List.isPrefixOf_iff_prefix, Bool.not_eq_true] at hk hfirst
  cases hfind : findDelim d p bs with
  | none => exact absurd hk (by simp [findDelim_none hfind k])
  | some q =>
    obtain ⟨i, rfl, _, hi, hbefore⟩ := findDelim_some hfind
    rcases Nat.lt_trichotomy i k with hlt | rfl | hgt
    · exact absurd hi (by simp [hfirst i hlt])
    · rfl
    · exact absurd hk (by simp [hbefore k hgt])

theorem findDelim_eq_none_of_absent {d bs : List Byte} {p : Nat} (h : ∀ j, ¬ d <+: bs.drop j) : findDelim d p bs = none := by
  cases hfind : findDelim d p bs with
  | none => rfl
  | some q =>
    obtain ⟨i, _, _, hi, _⟩ := findDelim_some hfind
    exact absurd (List.isPrefixOf_iff_prefix.mp hi) (h i)

/-- Where a byte string fits, the input from offset `p` on begins with it when the input's bytes there are its bytes. -/
theorem isPrefix_drop_inputBytes_iff {s : State} {d : List Byte} {p : Nat} (h : p + d.length ≤ s.ilen.toNat) :
    d <+: (inputBytes s).drop p ↔ ∀ k (hk : k < d.length), ibufAt s (p + k) = d[k] := by
  have hlen : d.length ≤ ((inputBytes s).drop p).length := by
    rw [List.length_drop, inputBytes_length]
    omega
  simp only [List.prefix_iff_getElem, hlen, exists_true_left]
  exact forall₂_congr fun k hk => by simp [inputBytes, eq_comm]

/-- The delimiter stands in the input at offset `p`, at or after the cursor (R240). -/
def DelimAt (s : State) (p : Nat) : Prop :=
  s.ipos.toNat ≤ p ∧ p + s.params.delim.length ≤ s.ilen.toNat ∧ s.params.delim <+: (inputBytes s).drop p

theorem delimAt_iff {s : State} {p : Nat} :
    DelimAt s p ↔ s.ipos.toNat ≤ p ∧ p + s.params.delim.length ≤ s.ilen.toNat ∧
      ∀ k (h : k < s.params.delim.length), ibufAt s (p + k) = s.params.delim[k] :=
  and_congr_right fun _ => and_congr_right fun hfits => isPrefix_drop_inputBytes_iff hfits

/-! ## DLMS -/

theorem dlms_done {s : State} {p : Nat} (hin : s.ilen.toNat ≤ s.params.inCap) (hp : DelimAt s p)
    (hfirst : ∀ q < p, ¬ DelimAt s q) : dlms s = .done { s with ipos := BitVec.ofNat 32 (p + s.params.delim.length) } := by
  obtain ⟨hpos, hfits, hhere⟩ := hp
  obtain ⟨k, rfl⟩ := Nat.exists_eq_add_of_le hpos
  rw [← List.drop_drop] at hhere
  have hbefore (j : Nat) (hj : j < k) : ¬ s.params.delim <+: ((inputBytes s).drop s.ipos.toNat).drop j := by
    rw [List.drop_drop]
    exact fun hj' => hfirst (s.ipos.toNat + j) (by omega) ⟨by omega, by omega, hj'⟩
  rw [dlms, restBytes_done hin, Res.done_bind, findDelim_eq_some_of_first hhere hbefore]

/-- The input begins with a delimiter that has bytes only where the delimiter fits: one that stands nowhere is not found. -/
theorem dlms_raised {s : State} (hin : s.ilen.toNat ≤ s.params.inCap) (hne : s.params.delim ≠ [])
    (habsent : ∀ p, ¬ DelimAt s p) : dlms s = .raised .malformedTree .delim (some s.ipos) := by
  have hnone (j : Nat) : ¬ s.params.delim <+: ((inputBytes s).drop s.ipos.toNat).drop j := by
    rw [List.drop_drop]
    intro hj
    have hpos : 0 < s.params.delim.length := List.length_pos_iff.mpr hne
    have hle := hj.length_le
    rw [List.length_drop, inputBytes_length] at hle
    exact habsent _ ⟨Nat.le_add_right _ _, by omega, hj⟩
  rw [dlms, restBytes_done hin, Res.done_bind, findDelim_eq_none_of_absent hnone]

/-! ## DSTEP -/

theorem outAppend_full {st : Stage} {b : Byte} {s : State} (h : s.olen.toNat = s.params.outCap) :
    outAppend st b s = .raised .io st (some s.olen) := by
  rw [outAppend, if_pos h]

theorem dstep_raised_of_no_tree {s : State} (imm : Byte) (h : s.treeV = false) :
    dstep imm s = .raised .sequence .dec none := by
  rw [dstep, h, need_false, Res.raised_bind]

theorem dstep_eq_decStep {s : State} (imm : Byte) (h : s.treeV = true) : dstep imm s = decStep imm none s := by
  rw [dstep, h, need_true, Res.done_bind]

theorem decStep_raised_of_bad_symbol {s : State} {b : Byte} (off : Option (BitVec 32)) (h0 : b ≠ 0x30) (h1 : b ≠ 0x31) :
    decStep b off s = .raised .badBitSymbol .dec off := by
  rw [decStep, bitOfSymbol_none h0 h1]

/-- One bit symbol under a one-leaf tree: only `'0'` is a code, and `CUR` stays (R244). -/
theorem decStep_one_leaf {s : State} (c : Bool) (off : Option (BitVec 32)) (hroot : s.root.toNat < Config.nodeCap)
    (hk : (nodeAt s s.root).kind = .leaf) :
    decStep (symbolOfBit c) off s =
      if c then .raised .badBitSymbol .dec off else outAppend .dec (nodeAt s s.root).sym s := by
  simp only [decStep, bitOfSymbol_symbolOfBit, readNode_done hroot, Res.done_bind, hk]

/-- The state DSTEP makes at a leaf: its symbol is appended and the cursor is at the root (R244). -/
def State.emitted (y : Byte) (s : State) : State := { s.pushOut y with cur := s.root }

theorem appended_emitted {s : State} (y : Byte) (h : s.olen.toNat + 1 < 2 ^ 32) : Appended s (s.emitted y) [y] :=
  appended_pushOut y h

/-! ## DEND -/

theorem dend_raised_of_no_tree {s : State} (h : s.treeV = false) : dend s = .raised .sequence .dec none := by
  rw [dend, h, need_false, Res.raised_bind]

theorem dend_done {s : State} (hv : s.treeV = true) (h : s.cur = s.root) : dend s = .done s := by
  rw [dend, hv, need_true, Res.done_bind, atRoot, if_pos h]

theorem dend_raised_inside {s : State} (hv : s.treeV = true) (h : s.cur ≠ s.root) :
    dend s = .raised .truncatedStream .dec none := by
  rw [dend, hv, need_true, Res.done_bind, atRoot, if_neg h]

/-! ## The statements -/

/-- Settles O53: the offsets the statement calls found are those where the delimiter stands, and DLMS searches for the first
of them. -/
theorem dlmsSkipsTheFirstDelimiter : Obligations.DlmsSkipsTheFirstDelimiter := by
  intro s hf hin found hfound
  obtain rfl : found = DelimAt s := funext fun p => propext ((hfound p).trans delimAt_iff.symm)
  refine ⟨fun p hp hfirst => ?_, fun hne habsent => faults_of_raised hf (dlms_raised hin hne habsent)⟩
  refine ⟨_, exec_of_done hf (dlms_done hin hp hfirst), ?_, rfl⟩
  obtain ⟨_, hfits, _⟩ := hp
  exact Nat.mod_eq_of_lt (Nat.lt_of_le_of_lt hfits s.ilen.isLt)

/-- Settles O54: DSTEP is one step of the walk, which goes by the kind of the root and then of the child. -/
theorem dstepConsumesOneBitSymbol : Obligations.DstepConsumesOneBitSymbol := by
  intro s imm hf hp
  obtain ⟨_, _, _, hcap, _⟩ := params_bounds hp
  refine ⟨fun hv => faults_of_raised hf (dstep_raised_of_no_tree imm hv), fun hv h0 h1 => ?_, fun hv hroot hk => ?_,
    fun bit x hv hroot hk hcur himm hx hxn => ?_⟩
  · exact faults_of_raised hf ((dstep_eq_decStep imm hv).trans (decStep_raised_of_bad_symbol none h0 h1))
  · have hbody (c : Bool) := (dstep_eq_decStep (symbolOfBit c) hv).trans (decStep_one_leaf c none hroot hk)
    refine ⟨?_, ?_, ?_⟩
    · rintro rfl
      exact faults_of_raised hf (hbody true)
    · rintro rfl hroom
      exact ⟨_, exec_of_done hf ((hbody false).trans (outAppend_done hroom)), appended_pushOut _ (by omega), rfl⟩
    · rintro rfl hfull
      exact faults_of_raised hf ((hbody false).trans (outAppend_full hfull))
  · obtain rfl : imm = symbolOfBit bit := himm
    obtain ⟨hinternal, hleaf⟩ := decStep_edge (c := bit) (off := none) hroot hk hcur hx.symm hxn
    have hbody := dstep_eq_decStep (symbolOfBit bit) hv
    refine ⟨fun hkind => exec_of_done (t := { s with cur := x }) hf (hbody.trans (hinternal hkind)),
      fun hkind hroom => ?_, fun hkind hfull => ?_⟩
    · have hdone : dstep (symbolOfBit bit) s = .done (s.emitted (nodeAt s x).sym) := by
        rw [hbody, hleaf hkind, outAppend_done hroom]
        rfl
      exact ⟨_, exec_of_done hf hdone, appended_emitted _ (by omega), rfl⟩
    · refine faults_of_raised hf ?_
      exact hbody.trans ((hleaf hkind).trans (by rw [outAppend_full hfull, Res.raised_bind]))

/-- Settles O55: DEND tests the flag and then the cursor. -/
theorem dendChecksTheCursor : Obligations.DendChecksTheCursor :=
  fun _ hf => ⟨fun hv => faults_of_raised hf (dend_raised_of_no_tree hv), fun hv h => exec_of_done hf (dend_done hv h),
    fun hv h => faults_of_raised hf (dend_raised_inside hv h)⟩

end Sys2Proof.Machine
end

section
/-!
PROOFS of the family 60_exceptions.md: fault entry writes the record (R274), and nothing but reset has an effect while `FAULT = 1`
(R276).
-/

namespace Sys2Proof.Machine

/-! ## Fault entry -/

/-- Fault entry writes the record, and `CIX` is unchanged (R274). -/
theorem faultRecord_enterFault (w : CmdWord) (k : ErrKind) (st : Stage) (off : Option (BitVec 32)) (s : State) :
    FaultRecord w k st off s (s.enterFault w k st off) :=
  ⟨rfl, rfl, rfl, rfl, rfl, rfl, rfl⟩

/-- A command that ends in a fault from a state without one has written the record with its own word (R274). -/
theorem faults_of_exec {i : Instr} {s t : State} (hs : s.fault = false) (h : exec i s = .next t) (ht : t.fault = true) :
    ∃ k st off, FaultRecord (encode i) k st off s t := by
  rcases exec_eq_next h with ⟨hfaulted, _⟩ | ⟨_, hretired, _⟩ | ⟨_, k, st, off, _, rfl⟩
  · exact absurd hfaulted (by simp [hs])
  · exact absurd ht (by simp [hretired])
  · exact ⟨k, st, off, faultRecord_enterFault (encode i) k st off s⟩

/-! ## While `FAULT = 1` -/

/-- While `FAULT = 1` a command has no effect (R276). -/
theorem exec_faulted (i : Instr) {s : State} (h : s.fault = true) : exec i s = .next s := by
  rw [exec_eq_issue, issue_faulted h]

/-- While `FAULT = 1` an illegal word has no effect (R276). -/
theorem issueIllegal_faulted (w : CmdWord) {s : State} (h : s.fault = true) : issueIllegal w s = .next s := if_pos h

/-- While `FAULT = 1` a word, legal or not, has no effect (R276). -/
theorem runWord_faulted (w : CmdWord) {s : State} (h : s.fault = true) : runWord w s = .next s := by
  unfold runWord
  cases decode w with
  | ok i => exact exec_faulted i h
  | error e => exact issueIllegal_faulted w h

/-- When the host's next event is a word, the step runs it with that event taken from the list (20_memory.md R86). -/
theorem step_of_command {s : State} {w : CmdWord} {es : List HostEvent} (h : s.host = .command w :: es) :
    step s = runWord w (s.withHost es) := by
  simp only [step, h]

/-- A step that clears `FAULT` is a reset (R276). -/
theorem reset_of_step_clears_fault {s t : State} (hs : s.fault = true) (h : step s = .next t) (ht : t.fault = false) :
    ∃ es, s.host = .reset :: es := by
  rcases step_eq_next h with ⟨_, rfl⟩ | ⟨es, hreset, _⟩ | ⟨_, _, _, _, rfl⟩ | ⟨_, _, _, _, hlive, _⟩ | ⟨_, _, _, _, hlive, _⟩
  · exact absurd hs (by simp [ht])
  · exact ⟨es, hreset⟩
  · exact absurd hs (by simpa using ht)
  · exact absurd hs (by simp [hlive])
  · exact absurd hs (by simp [hlive])

/-! ## The statements -/

/-- Settles O11: a command that faults enters the fault state, and the commands before it have advanced `CIX` by their number. -/
theorem faultEntryWritesTheRecord : Obligations.FaultEntryWritesTheRecord := by
  refine ⟨fun w k st off s => ⟨faultRecord_enterFault w k st off s, rfl⟩, fun i s t => faults_of_exec,
    fun before i s t u hbefore ht hexec hu => ?_⟩
  calc u.cix = t.cix := by rw [exec_cix hexec, if_pos hu]
    _ = s.cix + BitVec.ofNat 32 before.length := execAll_cix hbefore ht

/-- Settles O12: a faulted block refuses commands and illegal words alike, and each other step keeps `FAULT` but reset. -/
theorem nothingRunsAfterAFault : Obligations.NothingRunsAfterAFault := by
  refine ⟨fun s i hs => exec_faulted i hs, fun s w es hs hhost => ?_, fun s t => reset_of_step_clears_fault⟩
  rw [step_of_command hhost, runWord_faulted w (s := s.withHost es) hs]

end Sys2Proof.Machine
end

section
/-!
PROOFS about words and steps: the decoder and the words it rejects (30_encoding.md R103 to R105), what a step does with the host's
next event (20_memory.md R86), and the codes of the fault record (60_exceptions.md R270 to R273).
-/

namespace Sys2Proof

open Sys2Proof.Machine

/-! ## Rejected words -/

theorem mem_formatIOpcodes {op : Byte} : op ∈ formatIOpcodes ↔ op = 0x01 ∨ op = 0x39 := by
  simp [formatIOpcodes]

/-- No opcode has both formats (R103). -/
theorem formatIOpcodes_disjoint {op : Byte} (h : op ∈ formatIOpcodes) : op ∉ formatNOpcodes := by
  rcases mem_formatIOpcodes.mp h with rfl | rfl <;> decide

/-- The fields of a command's word are those of a command (R103). -/
theorem wordWellFormed_eq_true_iff {op imm : Byte} :
    wordWellFormed op imm = true ↔ op ∈ formatIOpcodes ∨ (op ∈ formatNOpcodes ∧ imm = 0) := by
  simp [wordWellFormed]

/-- The three outcomes of the decoder, by the word's opcode and operand (R104). -/
theorem decode_cases (w : CmdWord) :
    (wordWellFormed (opField w) (immField w) = true ∧ ∃ i, decode w = .ok i) ∨
    (opField w ∉ formatIOpcodes ∧ opField w ∉ formatNOpcodes ∧ decode w = .error (.unassignedOpcode (opField w))) ∨
    (opField w ∈ formatNOpcodes ∧ immField w ≠ 0 ∧ decode w = .error (.nonzeroOperand (opField w) (immField w))) := by
  by_cases h1 : opField w = 0x01
  · exact .inl ⟨wordWellFormed_eq_true_iff.mpr (.inl (mem_formatIOpcodes.mpr (.inl h1))), _, by rw [decode, if_pos h1]⟩
  by_cases h2 : opField w = 0x39
  · exact .inl ⟨wordWellFormed_eq_true_iff.mpr (.inl (mem_formatIOpcodes.mpr (.inr h2))), _,
      by rw [decode, if_neg h1, if_pos h2]⟩
  have hI : opField w ∉ formatIOpcodes := fun h => (mem_formatIOpcodes.mp h).elim h1 h2
  cases hN : formatNInstr (opField w) with
  | none => exact .inr (.inl ⟨hI, formatNInstr_none.mp hN, by simp only [decode, if_neg h1, if_neg h2, hN]⟩)
  | some i =>
    have hmem : opField w ∈ formatNOpcodes := by
      by_contra h
      simp [formatNInstr_none.mpr h] at hN
    by_cases himm : immField w = 0
    · exact .inl ⟨wordWellFormed_eq_true_iff.mpr (.inr ⟨hmem, himm⟩), i,
        by simp only [decode, if_neg h1, if_neg h2, hN, if_pos himm]⟩
    · exact .inr (.inr ⟨hmem, himm, by simp only [decode, if_neg h1, if_neg h2, hN, if_neg himm]⟩)

/-! ## The statements -/

/-- Settles O1: each word is read off the map by hand. -/
theorem knownWordsDecode : Obligations.KnownWordsDecode := by
  unfold Obligations.KnownWordsDecode
  decide

/-- Settles O2: decoder and encoder undo each other. -/
theorem decodeAndEncodeAgree : Obligations.DecodeAndEncodeAgree := fun _ _ => decode_eq_ok_iff

/-- Settles O5: the three outcomes of the decoder exclude each other by the word's fields. -/
theorem illegalWordsAreRejectedByName : Obligations.IllegalWordsAreRejectedByName := by
  intro w
  rw [← Bool.not_eq_true, wordWellFormed_eq_true_iff]
  rcases decode_cases w with ⟨hwf, i, hd⟩ | ⟨hI, hN, hd⟩ | ⟨hN, himm, hd⟩
  · rw [wordWellFormed_eq_true_iff] at hwf
    rw [hd]
    rcases hwf with hI | ⟨hN, himm⟩
    · simp [hI, formatIOpcodes_disjoint hI]
    · simp [hN, himm]
  · rw [hd]
    simp [hI, hN]
  · have hI : opField w ∉ formatIOpcodes := fun hI => formatIOpcodes_disjoint hI hN
    rw [hd]
    simpa [hI, hN] using himm

/-- Settles O6: the step runs the word, which decodes to the command. -/
theorem stepRunsTheDecodedCommand : Obligations.StepRunsTheDecodedCommand := by
  intro s w es i hhost hd
  rw [step_of_command hhost, runWord, hd]

/-- Settles O7: an illegal word enters the fault state. -/
theorem illegalWordFaults : Obligations.IllegalWordFaults := by
  intro s w es e hhost hf hd
  refine ⟨(s.withHost es).enterFault w .illegalCommand .cmd none, ?_, faultRecord_enterFault w _ _ _ (s.withHost es)⟩
  rw [step_of_command hhost, runWord, hd]
  exact if_neg (by simp [hf])

/-- Settles O8: the reset event puts the reset state, and with no event the step answers the same state. -/
theorem resetAndWaiting : Obligations.ResetAndWaiting :=
  ⟨fun s es hhost => ⟨s.freeCount + 1, by simp only [step, hhost, State.hostReset]⟩, fun s hhost => by simp only [step, hhost]⟩

/-- Settles O10: the codes are written out in the two tables. -/
theorem errorAndStageCodes : Obligations.ErrorAndStageCodes := by
  unfold Obligations.ErrorAndStageCodes
  decide

end Sys2Proof
end

section
/-!
PROOFS about every step: it keeps the machine's invariant and the memories' form, the parameters and the host's list (10_state.md
R22 to R42).
-/

namespace Sys2Proof.Machine

open Sys2Proof.Config

/-! ## The invariant -/

theorem Inv.good {s : State} (h : Inv s) (hf : s.fault = false) : Good s := ⟨hf, h.form, h.live hf⟩

theorem Good.inv {s : State} (h : Good s) : Inv s := ⟨h.form, h.live.buffers.params, fun _ => h.live⟩

/-- Retirement only counts (R21). -/
theorem Good.retire {s : State} (h : Good s) : Good s.retire := h.buffers rfl { h.live.buffers with }

/-- The host's list is no part of the block. -/
theorem Good.withHost {s : State} (h : Good s) (es : List HostEvent) : Good (s.withHost es) where
  fault := h.fault
  form := { h.form with }
  live :=
    { buffers := { h.live.buffers with }
      oneUse := h.live.oneUse
      freq := fun hv => (h.live.freq hv).congr rfl rfl rfl
      code := fun hv => (h.live.code hv).congr rfl rfl
      arena := fun hv => (h.live.arena hv).congr rfl rfl
      heap := fun hv => (h.live.heap hv).sub rfl rfl rfl (h.live.heap hv).size ⟨[], .of_eq (List.append_nil _).symm⟩
      tree := fun hv => (h.live.tree hv).congr rfl rfl rfl rfl (h.live.tree hv).cur }

/-- With the parameters in range the reset state, whatever the host and the free values, is good (R46). -/
theorem reset_good {p : Params} (hp : paramsWellFormed p = true) (es : List HostEvent) (n : Nat) :
    Good { State.reset with params := p, host := es, freeCount := n } where
  fault := rfl
  form := ⟨.nil, .nil, .nil, .nil, .nil, .nil, fun _ h => nomatch h⟩
  live :=
    { buffers := ⟨hp, Nat.zero_le _, Nat.le_refl _, Nat.zero_le _, rfl, rfl⟩
      oneUse := fun h => nomatch h.1
      freq := fun h => nomatch h
      code := fun h => nomatch h
      arena := fun h => h.elim (fun h => nomatch h) (fun h => nomatch h)
      heap := fun h => nomatch h
      tree := fun h => nomatch h }

/-- Fault entry leaves nothing defined (60_exceptions.md R275), so only the forms and the parameters are left to hold. -/
theorem enterFault_form (w : CmdWord) (k : ErrKind) (st : Stage) (off : Option (BitVec 32)) (s : State) :
    MemoryForm (s.enterFault w k st off) :=
  ⟨.nil, .nil, .nil, .nil, .nil, pqOfList_wf _⟩

theorem enterFault_inv {s : State} (w : CmdWord) (k : ErrKind) (st : Stage) (off : Option (BitVec 32))
    (hp : paramsWellFormed s.params = true) : Inv (s.enterFault w k st off) :=
  ⟨enterFault_form w k st off s, hp, fun hf => nomatch hf⟩

/-- A command keeps the invariant. -/
theorem exec_inv {i : Instr} {s t : State} (h : Inv s) (hexec : exec i s = .next t) : Inv t := by
  rcases exec_eq_next hexec with ⟨_, rfl⟩ | ⟨hf, _, u, hu, rfl⟩ | ⟨_, k, st, off, _, rfl⟩
  · exact h
  · exact ((body_keeps i s (h.good hf)).2 u hu).1.retire.inv
  · exact enterFault_inv _ k st off h.params

/-- A step from a state with the invariant does not stop. -/
theorem step_next_of_inv {s : State} (h : Inv s) : ∃ t, step s = .next t := by
  cases hstep : step s with
  | next t => exact ⟨t, rfl⟩
  | fault e =>
    obtain ⟨w, es, i, _, hf, _, hstop⟩ := step_eq_fault hstep
    exact absurd hstop ((body_keeps i _ ((h.good hf).withHost es)).1 e)
  | refused r => exact absurd hstep step_ne_refused

/-- A step keeps the invariant. -/
theorem step_inv {s t : State} (h : Inv s) (hstep : step s = .next t) : Inv t := by
  rcases step_eq_next hstep with ⟨_, rfl⟩ | ⟨es, _, rfl⟩ | ⟨w, es, _, hf, rfl⟩ | ⟨w, es, e, _, _, _, rfl⟩ |
    ⟨w, es, i, _, hf, _, hexec⟩
  · exact h
  · exact (reset_good h.params es _).inv
  · exact ⟨{ h.form with }, h.params, fun hlive => absurd hf (by simpa using hlive)⟩
  · exact enterFault_inv w _ _ _ h.params
  · exact exec_inv ((h.good hf).withHost es).inv hexec

/-! ## The memories' form, in any state -/

/-- A component step whose result has the memories' form when its start has. -/
def KeepsForm (f : State → Res State) : Prop := ∀ s t, MemoryForm s → f s = .done t → MemoryForm t

theorem KeepsForm.bind {f g : State → Res State} (hf : KeepsForm f) (hg : KeepsForm g) : KeepsForm fun s => (f s).bind g := by
  intro s t hs h
  obtain ⟨u, hu, ht⟩ := Res.bind_eq_done.mp h
  exact hg u t (hf s u hs hu) ht

/-- A step that first works out a value from the state. -/
theorem KeepsForm.value {α : Type} {v : State → Res α} {f : α → State → Res State} (hf : ∀ a, KeepsForm (f a)) :
    KeepsForm fun s => (v s).bind fun a => f a s := by
  intro s t hs h
  obtain ⟨a, _, ht⟩ := Res.bind_eq_done.mp h
  exact hf a s t hs ht

/-- A step guarded by a validity flag. -/
theorem KeepsForm.need {f : State → Res State} {ok : State → Bool} {st : Stage} (hf : KeepsForm f) :
    KeepsForm fun s => (Machine.need (ok s) st s).bind f :=
  fun s t hs h => hf s t hs (need_bind_done h).2

theorem outAppend_form (st : Stage) (b : Byte) : KeepsForm (outAppend st b) := by
  intro s t hs h
  rw [outAppend_eq_done h]
  exact { hs with obuf := Memory.write_wf hs.obuf _ _ }

theorem outAppendAll_form (st : Stage) (bs : List Byte) : KeepsForm (outAppendAll st bs) := by
  induction bs with
  | nil => intro s t hs h; cases h; exact hs
  | cons b bs ih => exact (outAppend_form st b).bind ih

theorem ipush_form (imm : Byte) : KeepsForm (ipush imm) := by
  intro s t hs h
  unfold ipush at h
  split at h
  · cases h
  split at h
  · cases h
  · cases h
    exact { hs with ibuf := Memory.write_wf hs.ibuf _ _ }

theorem omov_form : KeepsForm omov := by
  intro s t hs h
  unfold omov at h
  split at h
  · cases h
  · obtain ⟨bs, _, h⟩ := Res.bind_eq_done.mp h
    cases h
    exact { hs with ibuf := Memory.ofList_wf bs, obuf := Memory.wf_nil }

theorem fscan_form : KeepsForm fscan :=
  .value fun bs s t hs h => by cases h; exact { hs with freq := Memory.ofList_wf _ }

/-- The queue PQBUILD makes has the indices of the leaves, which are below the arena's end. -/
theorem queued_pqWf {n : Nat} (hn : n ≤ 256) : pqWf ((List.range n).map (BitVec.ofNat 9)) := by
  refine ⟨List.pairwise_map.mpr (List.Pairwise.imp_of_mem ?_ List.pairwise_lt_range), fun x hx => ?_⟩
  · intro i j hi hj hij
    rw [List.mem_range] at hi hj
    rw [BitVec.lt_def, BitVec.toNat_ofNat, BitVec.toNat_ofNat]
    omega
  · obtain ⟨k, hk, rfl⟩ := List.mem_map.mp hx
    rw [List.mem_range] at hk
    rw [BitVec.toNat_ofNat, nodeCap]
    omega

theorem pqbuild_form : KeepsForm pqbuild :=
  .need fun s t hs h => by
    cases h
    exact { hs with node := Memory.ofList_wf _, pq := queued_pqWf (present_length _) }

theorem pqInsert_form (x : NodeIdx) : KeepsForm (pqInsert x) := by
  intro s t hs h
  unfold pqInsert at h
  split at h
  · rename_i hx
    cases h
    exact { hs with pq := pqAdd_wf hs.pq hx }
  · cases h

theorem pqExtractMin_form {st : Stage} {s t : State} {x : NodeIdx} (hs : MemoryForm s) (h : pqExtractMin st s = .done (x, t)) :
    MemoryForm t := by
  unfold pqExtractMin at h
  split at h
  · cases h
  · split at h
    · cases h
    · cases h
      exact { hs with pq := pqDrop_wf hs.pq x }

theorem pqins_form : KeepsForm pqins :=
  .need fun s t hs h => by
    obtain ⟨u, hu, h⟩ := Res.bind_eq_done.mp h
    cases h
    exact { pqInsert_form _ s u hs hu with }

theorem pqext_form : KeepsForm pqext :=
  .need fun s t hs h => by
    obtain ⟨⟨x, u⟩, hu, h⟩ := Res.bind_eq_done.mp h
    cases h
    exact { pqExtractMin_form hs hu with }

theorem appendNode_form (n : NodeRec) : KeepsForm (appendNode n) := by
  intro s t hs h
  unfold appendNode at h
  split at h
  · cases h
    exact { hs with node := Memory.write_wf hs.node _ _ }
  · cases h

theorem merge_form : KeepsForm merge :=
  .need fun s t hs h => by
    obtain ⟨⟨a, u⟩, hu, h⟩ := Res.bind_eq_done.mp h
    obtain ⟨⟨b, v⟩, hv, h⟩ := Res.bind_eq_done.mp h
    obtain ⟨na, _, h⟩ := Res.bind_eq_done.mp h
    obtain ⟨nb, _, h⟩ := Res.bind_eq_done.mp h
    obtain ⟨w, hw, h⟩ := Res.bind_eq_done.mp h
    exact pqInsert_form _ w t (appendNode_form _ v w (pqExtractMin_form (pqExtractMin_form hs hu) hv) hw) h

theorem mergeLoop_form (fuel : Nat) : KeepsForm (mergeLoop fuel) := by
  induction fuel with
  | zero => intro s t hs h; cases h; exact hs
  | succ fuel ih =>
    intro s t hs h
    simp only [mergeLoop] at h
    split at h
    · exact merge_form.bind ih s t hs h
    · cases h; exact hs

theorem troot_form : KeepsForm troot :=
  .need fun s t hs h => by
    split at h
    · cases h
    split at h
    · cases h
    · obtain ⟨⟨x, u⟩, hu, h⟩ := Res.bind_eq_done.mp h
      cases h
      exact { pqExtractMin_form hs hu with }

theorem tbuild_form : KeepsForm tbuild :=
  .need fun s t hs h => by
    split at h
    · cases h
    · exact pqbuild_form.bind (.bind (fun u v => mergeLoop_form _ u v) troot_form) s t hs h

/-- Writing codes over a table keeps its form. -/
theorem codes_fold_wf {es : List (Byte × List Bool)} {m : Memory CodeRec} (h : Memory.wf m) :
    Memory.wf (es.foldl (fun m e => Memory.write m e.1.toNat (codeOfPath e.2)) m) := by
  induction es generalizing m with
  | nil => exact h
  | cons e es ih => exact ih (Memory.write_wf h _ _)

theorem cgen_form : KeepsForm cgen :=
  .need (.value fun tr s t hs h => by cases h; exact { hs with code := codes_fold_wf clearedCodes_defined.wf })

theorem tser_form : KeepsForm tser := .need (.value fun tr => outAppendAll_form .ser tr.ser)

/-- `parse()` writes nodes one by one. -/
theorem parseNode_wf {fuel : Nat} {p q : ParseState} {i : Nat} (hp : Memory.wf p.node)
    (h : parseNode fuel p = .done (i, q)) : Memory.wf q.node := by
  induction fuel generalizing p q i with
  | zero => cases h
  | succ fuel ih =>
    simp only [parseNode] at h
    split at h
    · cases h
    split at h
    · cases h
    split at h
    · cases h
    split at h
    · split at h
      · cases h
      · cases h
        exact Memory.write_wf hp _ _
    · obtain ⟨⟨l, u⟩, hu, h⟩ := Res.bind_eq_done.mp h
      obtain ⟨⟨r, v⟩, hv, h⟩ := Res.bind_eq_done.mp h
      cases h
      exact Memory.write_wf (ih (Memory.write_wf (ih (Memory.write_wf hp _ _) hu) _ _) hv) _ _

theorem tdes_form : KeepsForm tdes := by
  intro s t hs h
  obtain ⟨rest, _, h⟩ := Res.bind_eq_done.mp h
  obtain ⟨⟨i, q⟩, hq, h⟩ := Res.bind_eq_done.mp h
  cases h
  exact { hs with node := parseNode_wf Memory.wf_nil hq }

theorem encByte_form (i : Nat) (y : Byte) : KeepsForm (encByte i y) := by
  intro s t hs h
  simp only [encByte] at h
  split at h
  · cases h
  split at h
  · cases h
  · exact outAppendAll_form _ _ s t hs h

theorem encBytes_form (i : Nat) (ys : List Byte) : KeepsForm (encBytes i ys) := by
  induction ys generalizing i with
  | nil => intro s t hs h; cases h; exact hs
  | cons y ys ih => exact (encByte_form i y).bind (ih (i + 1))

theorem enc_form : KeepsForm enc := .need (.value fun bs => encBytes_form 0 bs)

theorem dlmw_form : KeepsForm dlmw := fun s t => outAppendAll_form .delim s.params.delim s t

theorem oclr_form : KeepsForm oclr := fun s t hs h => by cases h; exact { hs with obuf := Memory.wf_nil }

theorem comp_form : KeepsForm comp := fun s t hs h =>
  (fscan_form.bind (tbuild_form.bind (cgen_form.bind (tser_form.bind (dlmw_form.bind enc_form))))) s.clearOut t
    (oclr_form s _ hs rfl) h

theorem dlms_form : KeepsForm dlms := fun s t hs h => by
  rw [dlms_frame h]
  exact { hs with }

/-- One step of the decoder appends a byte, or moves the cursor only. -/
theorem decStep_eq_done {b : Byte} {off : Option (BitVec 32)} {s t : State} (h : decStep b off s = .done t) :
    (∃ y u, outAppend .dec y s = .done u ∧ (t = u ∨ t = { u with cur := u.root })) ∨ ∃ x, t = { s with cur := x } := by
  unfold decStep at h
  split at h
  · cases h
  obtain ⟨r, _, h⟩ := Res.bind_eq_done.mp h
  split at h
  · split at h
    · cases h
    · exact .inl ⟨_, t, h, .inl rfl⟩
  · obtain ⟨n, _, h⟩ := Res.bind_eq_done.mp h
    obtain ⟨m, _, h⟩ := Res.bind_eq_done.mp h
    split at h
    · obtain ⟨u, hu, h⟩ := Res.bind_eq_done.mp h
      cases h
      exact .inl ⟨_, u, hu, .inr rfl⟩
    · cases h
      exact .inr ⟨_, rfl⟩

theorem decStep_form (b : Byte) (off : Option (BitVec 32)) : KeepsForm (decStep b off) := by
  intro s t hs h
  rcases decStep_eq_done h with ⟨y, u, hu, rfl | rfl⟩ | ⟨x, rfl⟩
  · exact outAppend_form .dec y s t hs hu
  · exact { outAppend_form .dec y s u hs hu with }
  · exact { hs with }

theorem decBytes_form (bs : List Byte) : KeepsForm (decBytes bs) := by
  induction bs with
  | nil => intro s t hs h; cases h; exact hs
  | cons b bs ih =>
    intro s t hs h
    obtain ⟨u, hu, h⟩ := Res.bind_eq_done.mp h
    refine ih _ t ?_ h
    exact { decStep_form b _ s u hs hu with }

theorem dec_form : KeepsForm dec :=
  .need (.value fun rest s t hs h => by
    obtain ⟨u, hu, h⟩ := Res.bind_eq_done.mp h
    obtain ⟨_, rfl⟩ := atRoot_eq_done h
    exact decBytes_form rest s t hs hu)

theorem decomp_form : KeepsForm decomp := fun s t hs h =>
  (tdes_form.bind (dlms_form.bind dec_form)) { s.clearOut with ipos := 0 } t { hs with obuf := Memory.wf_nil } h

/-- Every command's pseudocode keeps the form. -/
theorem body_form (i : Instr) : KeepsForm (body i) := by
  cases i with
  | ipush imm => exact ipush_form imm
  | iclr => exact fun s t hs h => by cases h; exact { hs with ibuf := Memory.wf_nil }
  | irew => exact fun s t hs h => by cases h; exact { hs with }
  | oclr => exact oclr_form
  | omov => exact omov_form
  | fscan => exact fscan_form
  | pqbuild => exact pqbuild_form
  | pqins => exact pqins_form
  | pqext => exact pqext_form
  | merge => exact merge_form
  | troot => exact troot_form
  | tbuild => exact tbuild_form
  | cgen => exact cgen_form
  | tser => exact tser_form
  | tdes => exact tdes_form
  | enc => exact enc_form
  | dlmw => exact dlmw_form
  | comp => exact comp_form
  | dlms => exact dlms_form
  | dstep imm => exact .need (decStep_form imm none)
  | dend => exact fun s t hs h => by rw [dend_frame h]; exact hs
  | dec => exact dec_form
  | decomp => exact decomp_form

theorem exec_form {i : Instr} {s t : State} (hs : MemoryForm s) (h : exec i s = .next t) : MemoryForm t := by
  rcases exec_eq_next h with ⟨_, rfl⟩ | ⟨_, _, u, hu, rfl⟩ | ⟨_, k, st, off, _, rfl⟩
  · exact hs
  · exact { body_form i s u hs hu with }
  · exact enterFault_form _ k st off s

/-! ## The statements -/

/-- Settles O15: nothing is defined after reset, and the default parameters are in range. -/
theorem invariantHoldsAtReset : Obligations.InvariantHoldsAtReset := (reset_good (p := defaultParams) (by decide) [] 0).inv

/-- Settles O16: each command's pseudocode keeps what holds between commands and never stops. -/
theorem everyStepKeepsTheInvariant : Obligations.EveryStepKeepsTheInvariant := by
  intro s hs
  obtain ⟨t, ht⟩ := step_next_of_inv hs
  exact ⟨t, ht, step_inv hs ht⟩

/-- Settles O17: every write to a memory or the queue keeps its form, and a fault or reset lists nothing. -/
theorem everyStepKeepsTheMemoryForm : Obligations.EveryStepKeepsTheMemoryForm := by
  intro s t hs hstep
  rcases step_eq_next hstep with ⟨_, rfl⟩ | ⟨es, _, rfl⟩ | ⟨w, es, _, _, rfl⟩ | ⟨w, es, e, _, _, _, rfl⟩ |
    ⟨w, es, i, _, _, _, hexec⟩
  · exact hs
  · exact ⟨.nil, .nil, .nil, .nil, .nil, .nil, fun _ h => nomatch h⟩
  · exact { hs with }
  · exact enterFault_form w _ _ _ _
  · exact exec_form (s := s.withHost es) { hs with } hexec

/-- Settles O18: no command's pseudocode and no fault touches the parameters or the host's list. -/
theorem stepsKeepParametersAndTakeOneEvent : Obligations.StepsKeepParametersAndTakeOneEvent := by
  intro s t hstep
  rcases step_eq_next hstep with ⟨hhost, rfl⟩ | ⟨es, hhost, rfl⟩ | ⟨w, es, hhost, _, rfl⟩ | ⟨w, es, e, hhost, _, _, rfl⟩ |
    ⟨w, es, i, hhost, hf, _, hexec⟩
  · simp [hhost]
  · simp [hhost]
  · simp [hhost]
  · simp [hhost]
  · rcases exec_eq_next hexec with ⟨hfault, _⟩ | ⟨_, _, u, hu, rfl⟩ | ⟨_, k, st, off, _, rfl⟩
    · exact absurd hfault (by simp [hf])
    · obtain ⟨_, _, _, _, _, _, _, hparams, htail, _⟩ := body_record hu
      simp [hhost, hparams, htail]
    · simp [hhost]

end Sys2Proof.Machine
end

section
/-!
PROOFS about frames: what a command that retires leaves as it was in the buffers, the tables and the queue (10_state.md R22 to R41),
how the output grows (R36) and how the read cursor moves (R23).
-/

namespace Sys2Proof.Machine

open Sys2Proof.Config

/-! ## What a command's pseudocode leaves -/

/-- The buffers and their cursors, command by command (R22 to R24, R35, R36). -/
theorem body_buffers {i : Instr} {s t : State} (h : body i s = .done t) :
    (((∀ imm, i ≠ .ipush imm) ∧ i ∉ [Instr.iclr, .omov]) → t.ilen = s.ilen ∧ t.ibuf = s.ibuf) ∧
    (i ∉ [Instr.iclr, .irew, .omov, .tdes, .dlms, .dec, .decomp] → t.ipos = s.ipos) ∧
    (((∀ imm, i ≠ .dstep imm) ∧ i ∉ [Instr.oclr, .omov, .tser, .dlmw, .enc, .comp, .dec, .decomp]) →
      t.olen = s.olen ∧ t.obuf = s.obuf) := by
  cases i with
  | ipush imm => rw [ipush_frame h]; simp
  | iclr => cases h; simp
  | irew => cases h; simp
  | oclr => cases h; simp
  | omov => rw [omov_frame h]; simp
  | fscan => rw [fscan_frame h]; simp
  | pqbuild => rw [pqbuild_frame h]; simp
  | pqins => rw [pqins_frame h]; simp
  | pqext => rw [pqext_frame h]; simp
  | merge => rw [merge_frame h]; simp
  | troot => rw [troot_frame h]; simp
  | tbuild => rw [tbuild_frame h]; simp
  | cgen => rw [cgen_frame h]; simp
  | tser => rw [tser_frame h]; simp
  | tdes => rw [tdes_frame h]; simp
  | enc => rw [enc_frame h]; simp
  | dlmw => rw [dlmw_frame h]; simp
  | comp => rw [comp_frame h]; simp
  | dlms => rw [dlms_frame h]; simp
  | dstep imm => rw [dstep_frame h]; simp
  | dend => rw [dend_frame h]; simp
  | dec => rw [dec_frame h]; simp
  | decomp => rw [decomp_frame h]; simp

/-- The tables, the queue and the tree registers, command by command (R25 to R32, R37 to R41). -/
theorem body_tables {i : Instr} {s t : State} (h : body i s = .done t) :
    (i ∉ [Instr.fscan, .comp] → t.dsym = s.dsym ∧ t.freq = s.freq) ∧
    (i ∉ [Instr.pqbuild, .pqins, .pqext, .merge, .troot, .tbuild, .comp] → t.hsize = s.hsize ∧ t.pq = s.pq) ∧
    (i ∉ [Instr.pqbuild, .merge, .tbuild, .tdes, .comp, .decomp] → t.ncnt = s.ncnt ∧ t.node = s.node) ∧
    (i ∉ [Instr.troot, .tbuild, .tdes, .comp, .decomp] → t.root = s.root) ∧
    (((∀ imm, i ≠ .dstep imm) ∧ i ∉ [Instr.troot, .tbuild, .tdes, .comp, .dec, .decomp]) → t.cur = s.cur) ∧
    (i ≠ .pqext → t.xr = s.xr) ∧
    (i ∉ [Instr.cgen, .comp] → t.code = s.code) := by
  cases i with
  | ipush imm => rw [ipush_frame h]; simp
  | iclr => cases h; simp
  | irew => cases h; simp
  | oclr => cases h; simp
  | omov => rw [omov_frame h]; simp
  | fscan => rw [fscan_frame h]; simp
  | pqbuild => rw [pqbuild_frame h]; simp
  | pqins => rw [pqins_frame h]; simp
  | pqext => rw [pqext_frame h]; simp
  | merge => rw [merge_frame h]; simp
  | troot => rw [troot_frame h]; simp
  | tbuild => rw [tbuild_frame h]; simp
  | cgen => rw [cgen_frame h]; simp
  | tser => rw [tser_frame h]; simp
  | tdes => rw [tdes_frame h]; simp
  | enc => rw [enc_frame h]; simp
  | dlmw => rw [dlmw_frame h]; simp
  | comp => rw [comp_frame h]; simp
  | dlms => rw [dlms_frame h]; simp
  | dstep imm => rw [dstep_frame h]; simp
  | dend => rw [dend_frame h]; simp
  | dec => rw [dec_frame h]; simp
  | decomp => rw [decomp_frame h]; simp

/-! ## The output grows -/

/-- `OBUF` has grown from `s` to `t`: no byte below the old `OLEN` or from the new one on has changed (R36). -/
def OutputGrown (s t : State) : Prop :=
  s.olen.toNat ≤ t.olen.toNat ∧ ∀ a, a < s.olen.toNat ∨ t.olen.toNat ≤ a → Memory.read t.obuf a = Memory.read s.obuf a

theorem OutputGrown.of_same {s t : State} (hlen : t.olen = s.olen) (hbuf : t.obuf = s.obuf) : OutputGrown s t :=
  ⟨by rw [hlen], fun _ _ => by rw [hbuf]⟩

theorem OutputGrown.trans {s t u : State} (hst : OutputGrown s t) (htu : OutputGrown t u) : OutputGrown s u := by
  obtain ⟨hle, hread⟩ := hst
  obtain ⟨hle', hread'⟩ := htu
  exact ⟨Nat.le_trans hle hle', fun a ha => (hread' a (by omega)).trans (hread a (by omega))⟩

/-- Bytes appended with `OLEN` not wrapping. -/
theorem Appended.outputGrown {s t : State} {bs : List Byte} (h : Appended s t bs) : OutputGrown s t := by
  obtain ⟨hlen, _, hframe⟩ := h
  exact ⟨by omega, fun a ha => hframe a (by omega)⟩

/-- A component step that keeps the capacity, and under which the output grows. -/
def Grows (f : State → Res State) : Prop :=
  ∀ s t, s.params.outCap < 2 ^ 32 → f s = .done t → OutputGrown s t ∧ t.params = s.params

theorem Grows.bind {f g : State → Res State} (hf : Grows f) (hg : Grows g) : Grows fun s => (f s).bind g := by
  intro s t hcap h
  obtain ⟨u, hu, ht⟩ := Res.bind_eq_done.mp h
  obtain ⟨hgrown, hparams⟩ := hf s u hcap hu
  obtain ⟨hgrown', hparams'⟩ := hg u t (hparams ▸ hcap) ht
  exact ⟨hgrown.trans hgrown', hparams'.trans hparams⟩

theorem Grows.value {α : Type} {v : State → Res α} {f : α → State → Res State} (hf : ∀ a, Grows (f a)) :
    Grows fun s => (v s).bind fun a => f a s := by
  intro s t hcap h
  obtain ⟨a, _, ht⟩ := Res.bind_eq_done.mp h
  exact hf a s t hcap ht

theorem Grows.need {f : State → Res State} {ok : State → Bool} {st : Stage} (hf : Grows f) :
    Grows fun s => (Machine.need (ok s) st s).bind f :=
  fun s t hcap h => hf s t hcap (need_bind_done h).2

/-- A step that leaves the output alone. -/
theorem Grows.of_same {f : State → Res State}
    (hf : ∀ s t, f s = .done t → t.olen = s.olen ∧ t.obuf = s.obuf ∧ t.params = s.params) : Grows f := by
  intro s t _ h
  obtain ⟨hlen, hbuf, hparams⟩ := hf s t h
  exact ⟨.of_same hlen hbuf, hparams⟩

theorem outAppend_grows (st : Stage) (b : Byte) : Grows (outAppend st b) := by
  intro s t hcap h
  have hlt : s.olen.toNat < s.params.outCap := by
    unfold outAppend at h
    split at h
    · cases h
    split at h
    · cases h
    · omega
  rw [outAppend_eq_done h]
  exact ⟨(appended_pushOut b (by omega)).outputGrown, rfl⟩

theorem outAppendAll_grows (st : Stage) (bs : List Byte) : Grows (outAppendAll st bs) := by
  induction bs with
  | nil => exact .of_same fun s t h => by cases h; exact ⟨rfl, rfl, rfl⟩
  | cons b bs ih => exact (outAppend_grows st b).bind ih

theorem tser_grows : Grows tser := .need (.value fun tr => outAppendAll_grows .ser tr.ser)

theorem dlmw_grows : Grows dlmw := fun s t => outAppendAll_grows .delim s.params.delim s t

theorem encByte_grows (i : Nat) (y : Byte) : Grows (encByte i y) := by
  intro s t hcap h
  simp only [encByte] at h
  split at h
  · cases h
  split at h
  · cases h
  · exact outAppendAll_grows _ _ s t hcap h

theorem encBytes_grows (i : Nat) (ys : List Byte) : Grows (encBytes i ys) := by
  induction ys generalizing i with
  | nil => exact .of_same fun s t h => by cases h; exact ⟨rfl, rfl, rfl⟩
  | cons y ys ih => exact (encByte_grows i y).bind (ih (i + 1))

theorem enc_grows : Grows enc := .need (.value fun bs => encBytes_grows 0 bs)

theorem decStep_grows (b : Byte) (off : Option (BitVec 32)) : Grows (decStep b off) := by
  intro s t hcap h
  rcases decStep_eq_done h with ⟨y, u, hu, rfl | rfl⟩ | ⟨x, rfl⟩
  · exact outAppend_grows .dec y s t hcap hu
  · exact outAppend_grows .dec y s u hcap hu
  · exact ⟨.of_same rfl rfl, rfl⟩

theorem decBytes_grows (bs : List Byte) : Grows (decBytes bs) := by
  induction bs with
  | nil => exact .of_same fun s t h => by cases h; exact ⟨rfl, rfl, rfl⟩
  | cons b bs ih =>
    intro s t hcap h
    obtain ⟨u, hu, h⟩ := Res.bind_eq_done.mp h
    obtain ⟨hgrown, hparams⟩ := decStep_grows b _ s u hcap hu
    obtain ⟨hgrown', hparams'⟩ := ih { u with ipos := u.ipos + 1 } t (hparams ▸ hcap) h
    exact ⟨hgrown.trans hgrown', hparams'.trans hparams⟩

theorem dec_grows : Grows dec :=
  .need (.value fun rest s t hcap h => by
    obtain ⟨u, hu, h⟩ := Res.bind_eq_done.mp h
    obtain ⟨_, rfl⟩ := atRoot_eq_done h
    exact decBytes_grows rest s t hcap hu)

/-- The appending commands. -/
theorem body_grows {i : Instr} {imm : Byte} (h : i ∈ [Instr.tser, .dlmw, .enc, .dstep imm, .dec]) : Grows (body i) := by
  simp only [List.mem_cons, List.not_mem_nil, or_false] at h
  rcases h with rfl | rfl | rfl | rfl | rfl
  · exact tser_grows
  · exact dlmw_grows
  · exact enc_grows
  · exact .need (decStep_grows imm none)
  · exact dec_grows

/-! ## The read cursor moves forward -/

/-- TDES stops just after the tree it parsed (44_tree_serdes.md R203). -/
theorem tdes_ipos_le {s t : State} (hs : Good s) (h : tdes s = .done t) : s.ipos.toNat ≤ t.ipos.toNat := by
  have hb := hs.live.buffers
  rcases tdes_cases hb.ilen with ⟨tr, tail, hser, _, hdone⟩ | ⟨j, _, hraised⟩
  · have hlen := congrArg List.length hser
    rw [List.length_drop, inputBytes_length, List.length_append] at hlen
    rw [hdone] at h
    cases h
    have := tr.ser_length
    have := tr.leaves_pos
    have := s.ilen.isLt
    simp only [State.deserialized, BitVec.toNat_add, BitVec.toNat_ofNat]
    omega
  · rw [hraised] at h
    cases h

/-- DLMS finds the delimiter at or after the cursor (46_decoder.md R240). -/
theorem dlms_ipos_le {s t : State} (hs : Good s) (h : dlms s = .done t) : s.ipos.toNat ≤ t.ipos.toNat := by
  have hb := hs.live.buffers
  unfold dlms at h
  rw [restBytes_done hb.ilen, Res.done_bind] at h
  split at h
  · cases h
  · rename_i p hp
    cases h
    obtain ⟨k, rfl, hk, _⟩ := findDelim_some hp
    rw [List.length_drop, inputBytes_length] at hk
    have := hb.ipos
    have := s.ilen.isLt
    simp only [BitVec.toNat_ofNat]
    omega

/-- DEC consumes the whole input (46_decoder.md R248). -/
theorem dec_ipos_eq {s t : State} (hs : Good s) (h : dec s = .done t) : t.ipos = t.ilen := by
  have hb := hs.live.buffers
  obtain ⟨hv, h⟩ := need_bind_done h
  rw [restBytes_done hb.ilen, Res.done_bind] at h
  obtain ⟨u, hu, h⟩ := Res.bind_eq_done.mp h
  obtain ⟨_, rfl⟩ := atRoot_eq_done h
  have hip := hb.ipos
  exact ((decBytes_good hs hv (by rw [List.length_drop, inputBytes_length]; omega)).2 t hu).2.1

theorem dec_ipos_le {s t : State} (hs : Good s) (h : dec s = .done t) : s.ipos.toNat ≤ t.ipos.toNat := by
  have hlen : t.ilen = s.ilen := by rw [dec_frame h]
  rw [dec_ipos_eq hs h, hlen]
  exact hs.live.buffers.ipos

/-- The read cursor never moves back, but for the commands that set it to 0 (R23, R241). -/
theorem body_ipos_le {i : Instr} {s t : State} (hs : Good s) (h : body i s = .done t)
    (hi : i ∉ [Instr.iclr, .irew, .omov, .decomp]) : s.ipos.toNat ≤ t.ipos.toNat := by
  by_cases htdes : i = .tdes
  · subst htdes
    exact tdes_ipos_le hs h
  by_cases hdlms : i = .dlms
  · subst hdlms
    exact dlms_ipos_le hs h
  by_cases hdec : i = .dec
  · subst hdec
    exact dec_ipos_le hs h
  obtain ⟨_, hipos, _⟩ := body_buffers h
  rw [hipos (by simp_all)]

theorem omov_ipos {s t : State} (h : omov s = .done t) : t.ipos = 0 := by
  unfold omov at h
  split at h
  · cases h
  · obtain ⟨bs, _, h⟩ := Res.bind_eq_done.mp h
    cases h
    rfl

/-! ## The statements -/

/-- Settles O21: a command that retires leaves the buffers as its pseudocode leaves them. -/
theorem bufferFrame : Obligations.BufferFrame := by
  intro i s t h hf
  obtain ⟨_, u, hu, rfl⟩ := done_of h hf
  obtain ⟨hin, hipos, hout⟩ := body_buffers hu
  refine ⟨fun hi => ?_, hipos, fun hi => ?_⟩
  · obtain ⟨hlen, hbuf⟩ := hin hi
    exact ⟨hlen, fun a => by rw [State.retire_ibuf, hbuf]⟩
  · obtain ⟨hlen, hbuf⟩ := hout hi
    exact ⟨hlen, fun a => by rw [State.retire_obuf, hbuf]⟩

/-- Settles O22: a command that retires leaves the tables and the record as its pseudocode leaves them. -/
theorem tableFrame : Obligations.TableFrame := by
  intro i s t h hf
  obtain ⟨_, u, hu, rfl⟩ := done_of h hf
  obtain ⟨hfreq, hpq, hnode, hroot, hcur, hxr, hcode⟩ := body_tables hu
  obtain ⟨_, herr, hstage, hoff, hcmd, hoffV, _⟩ := body_record hu
  refine ⟨fun hi => ?_, hpq, fun hi => ?_, hroot, hcur, hxr, fun hi y => ?_, herr, hstage, hoff, hcmd, hoffV⟩
  · obtain ⟨hd, hm⟩ := hfreq hi
    exact ⟨hd, fun y => by rw [State.retire_freq, hm]⟩
  · obtain ⟨hn, hm⟩ := hnode hi
    exact ⟨hn, fun j => by rw [State.retire_node, hm]⟩
  · rw [State.retire_code, hcode hi]

/-- Settles O23: the appending commands are made of appends, each of which grows the output. -/
theorem appendingKeepsEarlierOutput : Obligations.AppendingKeepsEarlierOutput := by
  intro i imm s t hi hp h hf
  obtain ⟨_, u, hu, rfl⟩ := done_of h hf
  obtain ⟨_, _, _, hcap, _⟩ := params_bounds hp
  exact (body_grows hi s u hcap hu).1

/-- Settles O24: the cursor stays within the input by the invariant; TDES, DLMS and DEC move it over bytes they consumed. -/
theorem cursorOnlyMovesForward : Obligations.CursorOnlyMovesForward := by
  intro i s t hs h hf
  obtain ⟨hlive, u, hu, rfl⟩ := done_of h hf
  refine ⟨((exec_inv hs h).good hf).live.buffers.ipos, body_ipos_le (t := u) (hs.good hlive) hu, fun hi => ?_⟩
  simp only [List.mem_cons, List.not_mem_nil, or_false] at hi
  rcases hi with rfl | rfl | rfl
  · cases hu; rfl
  · cases hu; rfl
  · exact omov_ipos (t := u) hu

end Sys2Proof.Machine
end

section
/-!
PROOFS about the observation port (20_memory.md R84): what a read answers, space by space, and the fields of the packed records.
-/

namespace Sys2Proof.Machine

open Sys2Proof.Config

/-! ## The packed records -/

theorem packNode_fields (n : NodeRec) :
    (packNode n).extractLsb' 0 32 = n.weight ∧ (packNode n).extractLsb' 32 8 = n.sym ∧
    (packNode n).extractLsb' 40 9 = n.left ∧ (packNode n).extractLsb' 49 9 = n.right ∧
    (packNode n).getLsbD 58 = decide (n.kind = .leaf) ∧ (packNode n).extractLsb' 59 5 = 0 := by
  rw [getLsbD_eq_extract _ 58]
  simp (disch := decide) only [packNode, extract_append_low, extract_append_high, Nat.reduceSub, extract_all]
  simp

theorem packCode_fields (c : CodeRec) :
    (packCode c).extractLsb' 0 255 = c.bits ∧ (packCode c).getLsbD 255 = false ∧ (packCode c).extractLsb' 256 9 = c.len ∧
    (packCode c).getLsbD 265 = c.valid ∧ (packCode c).extractLsb' 266 6 = 0 := by
  rw [getLsbD_eq_extract _ 255, getLsbD_eq_extract _ 265]
  simp (disch := decide) only [packCode, extract_append_low, extract_append_high, Nat.reduceSub, extract_all]
  simp

/-! ## Which elements there are -/

/-- The number of elements of each address space (R70). -/
def spaceSize (p : Params) : Space → Nat
  | .reg => 15
  | .ibuf => p.inCap
  | .obuf => p.outCap
  | .freq => nsym
  | .node => nodeCap
  | .code => nsym
  | .pq => nodeCap

theorem observe_absent (s : State) (sp : Space) {i : Nat} (h : spaceSize s.params sp ≤ i) : observe s sp i = .absent := by
  have hi := Nat.not_lt.mpr h
  cases sp with
  | reg =>
    obtain ⟨k, rfl⟩ := Nat.exists_eq_add_of_le' h
    rfl
  | ibuf => exact if_neg hi
  | obuf => exact if_neg hi
  | freq => exact if_neg hi
  | node => exact if_neg hi
  | code => exact if_neg hi
  | pq => exact if_neg hi

/-- After a fault no memory has a value (60_exceptions.md R275). -/
theorem observe_faulted {s : State} {sp : Space} {i : Nat} (hf : s.fault = true) (hsp : sp ≠ .reg)
    (h : i < spaceSize s.params sp) : observe s sp i = .unspecified := by
  cases sp with
  | reg => exact absurd rfl hsp
  | ibuf => exact (if_pos h).trans (by rw [hf]; rfl)
  | obuf => exact (if_pos h).trans (by rw [hf]; rfl)
  | freq => exact (if_pos h).trans (by rw [hf]; rfl)
  | node => exact (if_pos h).trans (by rw [hf]; rfl)
  | code => exact (if_pos h).trans (by rw [hf]; rfl)
  | pq => exact (if_pos h).trans (by rw [hf]; rfl)

/-- After a fault no register has a value but the record, STATUS and `CIX`. -/
theorem observe_reg_faulted {s : State} {i : Nat} (hf : s.fault = true)
    (hi : i ∈ [0x05, 0x06, 0x07, 0x08, 0x09, 0x0A, 0x0B, 0x0C, 0x0D]) : observe s .reg i = .unspecified := by
  have hlive : ∀ (b : Bool) v, obsIf (!s.fault && b) v = .unspecified := fun b v => by rw [hf]; rfl
  have hlive' : ∀ v, obsIf (!s.fault) v = .unspecified := fun v => by rw [hf]; rfl
  simp only [List.mem_cons, List.not_mem_nil, or_false] at hi
  rcases hi with rfl | rfl | rfl | rfl | rfl | rfl | rfl | rfl | rfl
  · exact hlive' _
  · exact hlive' _
  · exact hlive' _
  · exact hlive _ _
  · exact hlive _ _
  · exact hlive' _
  · exact hlive _ _
  · exact hlive _ _
  · exact hlive _ _

/-! ## A block that has not faulted -/

/-- The registers, those under a flag included. -/
theorem observe_reg_live {s : State} (hf : s.fault = false) :
    observe s .reg 0x05 = .reg s.ilen ∧ observe s .reg 0x06 = .reg s.ipos ∧ observe s .reg 0x07 = .reg s.olen ∧
    observe s .reg 0x0A = .reg (s.ncnt.setWidth 32) ∧
    observe s .reg 0x08 = (if s.freqV then .reg (s.dsym.setWidth 32) else .unspecified) ∧
    observe s .reg 0x09 = (if s.heapV then .reg (s.hsize.setWidth 32) else .unspecified) ∧
    observe s .reg 0x0B = (if s.treeV then .reg (s.root.setWidth 32) else .unspecified) ∧
    observe s .reg 0x0C = (if s.xrV then .reg (s.xr.setWidth 32) else .unspecified) ∧
    observe s .reg 0x0D = (if s.treeV then .reg (s.cur.setWidth 32) else .unspecified) := by
  simp [observe, observeReg, obsIf, hf]

/-- The bytes of the buffers and the counts. -/
theorem observe_bytes_live {s : State} {i : Nat} (hf : s.fault = false) :
    (i < s.params.inCap → observe s .ibuf i = (if i < s.ilen.toNat then .byte (ibufAt s i) else .unspecified)) ∧
    (i < s.params.outCap → observe s .obuf i = (if i < s.olen.toNat then .byte (obufAt s i) else .unspecified)) ∧
    (i < nsym → observe s .freq i = (if s.freqV then .count (freqAt s i) else .unspecified)) := by
  refine ⟨fun hi => ?_, fun hi => ?_, fun hi => ?_⟩ <;> simp [observe, obsIf, hf, hi]

theorem observe_pq_live {s : State} {n : NodeIdx} (hf : s.fault = false) (hn : n.toNat < nodeCap) :
    observe s .pq n.toNat = (if s.heapV then .member (if n ∈ s.pq then 1 else 0) else .unspecified) := by
  by_cases hmem : n ∈ s.pq <;> simp [observe, obsIf, hf, hn, hmem]

/-- A node is read packed while the arena is in use and below `NCNT`. -/
theorem observe_node_live {s : State} {n : NodeIdx} (hf : s.fault = false) (hn : n.toNat < nodeCap) :
    observe s .node n.toNat =
      if (s.heapV || s.treeV) = true ∧ n.toNat < s.ncnt.toNat then .node (packNode (nodeAt s n)) else .unspecified := by
  simp [observe, obsIf, hf, hn]

/-- A code is read packed while the table is valid. -/
theorem observe_code_live {s : State} (y : Byte) (hf : s.fault = false) :
    observe s .code y.toNat = if s.codeV then .code (packCode (codeAt s y)) else .unspecified := by
  simp [observe, obsIf, hf, nsym, y.isLt]

/-! ## The statement -/

/-- Settles O25: space by space, by the index, the fault and the flag. -/
theorem observationPort : Obligations.ObservationPort := by
  refine ⟨fun s => ⟨rfl, rfl, rfl, rfl, rfl, rfl⟩, fun s => observe_reg_live, fun s i => observe_bytes_live,
    fun s n hf hn => ⟨observe_pq_live hf hn, fun hv => ?_, fun hv hlt => ⟨packNode (nodeAt s n), ?_, packNode_fields _⟩⟩,
    fun s y hf => ⟨fun hv => ?_, fun hv => ⟨packCode (codeAt s y), ?_, packCode_fields _⟩⟩,
    fun s i hf => ⟨observe_reg_faulted hf, observe_faulted (sp := .ibuf) hf (by decide), observe_faulted (sp := .obuf) hf (by decide),
      fun hi => ⟨observe_faulted (sp := .freq) hf (by decide) hi, observe_faulted (sp := .code) hf (by decide) hi⟩,
      fun hi => ⟨observe_faulted (sp := .node) hf (by decide) hi, observe_faulted (sp := .pq) hf (by decide) hi⟩⟩,
    fun s i => ⟨observe_absent s .reg, observe_absent s .ibuf, observe_absent s .obuf,
      fun hi => ⟨observe_absent s .freq hi, observe_absent s .code hi⟩,
      fun hi => ⟨observe_absent s .node hi, observe_absent s .pq hi⟩⟩⟩
  · rw [observe_node_live hf hn, if_neg]
    rintro ⟨huse, hlt⟩
    rcases hv with ⟨hheap, htree⟩ | hle
    · simp [hheap, htree] at huse
    · exact Nat.not_lt.mpr hle hlt
  · rw [observe_node_live hf hn, if_pos ⟨by simpa using hv, hlt⟩]
  · rw [observe_code_live y hf, hv]
    rfl
  · rw [observe_code_live y hf, hv]
    rfl

end Sys2Proof.Machine
end

section
/-!
PROOFS about which command can raise what (60_exceptions.md R281), and what each command does first after reset
(70_reset_and_hazards.md R311).
-/

namespace Sys2Proof.Machine

open Sys2Proof.Config

/-! ## What the decoder's steps raise -/

theorem need_bind_raised {ok : Bool} {st st' : Stage} {s : State} {f : State → Res State} {k : ErrKind}
    {off : Option (BitVec 32)} (h : (need ok st s).bind f = .raised k st' off) :
    (ok = false ∧ k = .sequence ∧ st' = st) ∨ (ok = true ∧ f s = .raised k st' off) := by
  cases ok
  · cases h
    exact .inl ⟨rfl, rfl, rfl⟩
  · exact .inr ⟨rfl, h⟩

theorem decStep_raised {b : Byte} {off o : Option (BitVec 32)} {s : State} {k : ErrKind} {st : Stage}
    (h : decStep b off s = .raised k st o) : (k = .badBitSymbol ∨ k = .io) ∧ st = .dec := by
  unfold decStep at h
  split at h
  · cases h
    exact ⟨.inl rfl, rfl⟩
  rcases Res.bind_eq_raised.mp h with h | ⟨r, _, h⟩
  · exact absurd h readNode_ne_raised
  split at h
  · split at h
    · cases h
      exact ⟨.inl rfl, rfl⟩
    · obtain ⟨rfl, rfl, _⟩ := outAppend_raised h
      exact ⟨.inr rfl, rfl⟩
  rcases Res.bind_eq_raised.mp h with h | ⟨n, _, h⟩
  · exact absurd h readNode_ne_raised
  rcases Res.bind_eq_raised.mp h with h | ⟨m, _, h⟩
  · exact absurd h readNode_ne_raised
  split at h
  · rcases Res.bind_eq_raised.mp h with h | ⟨u, _, h⟩
    · obtain ⟨rfl, rfl, _⟩ := outAppend_raised h
      exact ⟨.inr rfl, rfl⟩
    · cases h
  · cases h

theorem decBytes_raised {bs : List Byte} {s : State} {k : ErrKind} {st : Stage} {off : Option (BitVec 32)}
    (h : decBytes bs s = .raised k st off) : (k = .badBitSymbol ∨ k = .io) ∧ st = .dec := by
  induction bs generalizing s with
  | nil => cases h
  | cons b bs ih =>
    rcases Res.bind_eq_raised.mp h with h | ⟨u, _, h⟩
    · exact decStep_raised h
    · exact ih h

theorem atRoot_raised {off o : Option (BitVec 32)} {s : State} {k : ErrKind} {st : Stage}
    (h : atRoot off s = .raised k st o) : k = .truncatedStream ∧ st = .dec := by
  unfold atRoot at h
  split at h
  · cases h
  · cases h
    exact ⟨rfl, rfl⟩

/-- What DEC raises once there is a tree. -/
theorem dec_raised {s : State} {k : ErrKind} {st : Stage} {off : Option (BitVec 32)} (hv : s.treeV = true)
    (h : dec s = .raised k st off) : (k = .badBitSymbol ∨ k = .io ∨ k = .truncatedStream) ∧ st = .dec := by
  rcases need_bind_raised h with ⟨hno, _⟩ | ⟨_, h⟩
  · exact absurd hno (by simp [hv])
  rcases Res.bind_eq_raised.mp h with h | ⟨rest, _, h⟩
  · exact absurd h restBytes_ne_raised
  rcases Res.bind_eq_raised.mp h with h | ⟨u, _, h⟩
  · obtain ⟨hk, hst⟩ := decBytes_raised h
    exact ⟨hk.imp_right .inl, hst⟩
  · obtain ⟨hk, hst⟩ := atRoot_raised h
    exact ⟨.inr (.inr hk), hst⟩

/-- What DLMS raises. -/
theorem dlms_raises {s : State} {k : ErrKind} {st : Stage} {off : Option (BitVec 32)} (h : dlms s = .raised k st off) :
    k = .malformedTree ∧ st = .delim := by
  rcases Res.bind_eq_raised.mp h with h | ⟨rest, _, h⟩
  · exact absurd h restBytes_ne_raised
  · split at h
    · cases h
      exact ⟨rfl, rfl⟩
    · cases h

/-- What TDES raises. -/
theorem tdes_raises {s : State} {k : ErrKind} {st : Stage} {off : Option (BitVec 32)} (hs : Good s)
    (h : tdes s = .raised k st off) : k = .malformedTree ∧ st = .des := by
  rcases tdes_cases hs.live.buffers.ilen with ⟨_, _, _, _, hdone⟩ | ⟨_, _, hraised⟩
  · rw [hdone] at h
    cases h
  · rw [hraised] at h
    cases h
    exact ⟨rfl, rfl⟩

/-! ## What each command raises -/

/-- From a good state the pseudocode raises nothing but the listed kinds at the listed stages. -/
def RaisesIn (f : State → Res State) (l : List (ErrKind × Stage)) : Prop :=
  ∀ s k st off, Good s → f s = .raised k st off → (k, st) ∈ l

theorem ipush_raises (imm : Byte) : RaisesIn (ipush imm) (faultsOf (.ipush imm)) := by
  intro s k st off _ h
  unfold ipush at h
  split at h
  · cases h
    exact List.mem_singleton_self _
  · split at h <;> cases h

theorem omov_raises : RaisesIn omov (faultsOf .omov) := by
  intro s k st off hs h
  rcases Nat.lt_or_ge s.params.inCap s.olen.toNat with hlarge | hfits
  · rw [omov_raised hlarge] at h
    cases h
    exact List.mem_singleton_self _
  · rw [omov_done hfits hs.live.buffers.olen] at h
    cases h

theorem fscan_raises : RaisesIn fscan (faultsOf .fscan) := by
  intro s k st off hs h
  rw [fscan_done hs.live.buffers.ilen] at h
  cases h

theorem pqbuild_raises : RaisesIn pqbuild (faultsOf .pqbuild) := by
  intro s k st off _ h
  rcases need_bind_raised h with ⟨_, rfl, rfl⟩ | ⟨_, h⟩
  · exact List.mem_singleton_self _
  · cases h

theorem pqins_raises : RaisesIn pqins (faultsOf .pqins) := by
  intro s k st off _ h
  rcases need_bind_raised h with ⟨_, rfl, rfl⟩ | ⟨_, h⟩
  · exact List.mem_singleton_self _
  · rcases Res.bind_eq_raised.mp h with h | ⟨u, _, h⟩
    · unfold pqInsert at h
      split at h <;> cases h
    · cases h

theorem pqext_raises : RaisesIn pqext (faultsOf .pqext) := by
  intro s k st off hs h
  rcases need_bind_raised h with ⟨_, rfl, rfl⟩ | ⟨hv, h⟩
  · simp [faultsOf]
  · rcases pqExtractMin_cases (st := .pq) (hs.live.heap hv).size with ⟨_, hraised⟩ | ⟨x, _, _, hdone⟩
    · rw [hraised] at h
      cases h
      simp [faultsOf]
    · rw [hdone] at h
      cases h

theorem merge_raises : RaisesIn merge (faultsOf .merge) := by
  intro s k st off hs h
  rcases need_bind_raised h with ⟨_, rfl, rfl⟩ | ⟨hv, _⟩
  · simp [faultsOf]
  · rcases merge_cases hs hv with ⟨_, hraised⟩ | ⟨_, _, _, _, _, _, _, _, hdone⟩
    · rw [hraised] at h
      cases h
      simp [faultsOf]
    · rw [hdone] at h
      cases h

theorem troot_raises : RaisesIn troot (faultsOf .troot) := by
  intro s k st off hs h
  rcases need_bind_raised h with ⟨_, rfl, rfl⟩ | ⟨hv, _⟩
  · simp [faultsOf]
  · rcases troot_cases hs hv with ⟨_, hraised⟩ | ⟨_, hraised⟩ | ⟨_, _, hdone⟩
    · rw [hraised] at h
      cases h
      simp [faultsOf]
    · rw [hraised] at h
      cases h
      simp [faultsOf]
    · rw [hdone] at h
      cases h

theorem tbuild_raised_of_no_table {s : State} (hv : s.freqV = false) : tbuild s = .raised .sequence .build none := by
  rw [tbuild, hv, need_false, Res.raised_bind]

theorem tbuild_raised_of_empty {s : State} (hv : s.freqV = true) (hd : s.dsym = 0) :
    tbuild s = .raised .emptyInput .build none := by
  rw [tbuild, hv, need_true, Res.done_bind, if_pos hd]

theorem tbuild_raises : RaisesIn tbuild (faultsOf .tbuild) := by
  intro s k st off hs h
  rcases need_bind_raised h with ⟨_, rfl, rfl⟩ | ⟨hv, _⟩
  · simp [faultsOf]
  · by_cases hd : s.dsym = 0
    · rw [tbuild_raised_of_empty hv hd] at h
      cases h
      simp [faultsOf]
    · obtain ⟨_, _, _, _, hdone, _⟩ := tbuild_built hs hv hd
      rw [hdone] at h
      cases h

theorem cgen_raises : RaisesIn cgen (faultsOf .cgen) := by
  intro s k st off _ h
  rcases need_bind_raised h with ⟨_, rfl, rfl⟩ | ⟨_, h⟩
  · exact List.mem_singleton_self _
  · rcases Res.bind_eq_raised.mp h with h | ⟨tr, _, h⟩
    · exact absurd h treeAt_ne_raised
    · cases h

theorem tser_raises : RaisesIn tser (faultsOf .tser) := by
  intro s k st off _ h
  rcases need_bind_raised h with ⟨_, rfl, rfl⟩ | ⟨_, h⟩
  · simp [faultsOf]
  · rcases Res.bind_eq_raised.mp h with h | ⟨tr, _, h⟩
    · exact absurd h treeAt_ne_raised
    · obtain ⟨rfl, rfl⟩ := outAppendAll_raised h
      simp [faultsOf]

theorem encByte_raised {i : Nat} {y : Byte} {s : State} {k : ErrKind} {st : Stage} {off : Option (BitVec 32)}
    (h : encByte i y s = .raised k st off) : (k = .unknownSymbol ∨ k = .io) ∧ st = .enc := by
  simp only [encByte] at h
  split at h
  · cases h
    exact ⟨.inl rfl, rfl⟩
  split at h
  · cases h
  · obtain ⟨rfl, rfl⟩ := outAppendAll_raised h
    exact ⟨.inr rfl, rfl⟩

theorem encBytes_raised {i : Nat} {ys : List Byte} {s : State} {k : ErrKind} {st : Stage} {off : Option (BitVec 32)}
    (h : encBytes i ys s = .raised k st off) : (k = .unknownSymbol ∨ k = .io) ∧ st = .enc := by
  induction ys generalizing i s with
  | nil => cases h
  | cons y ys ih =>
    rcases Res.bind_eq_raised.mp h with h | ⟨u, _, h⟩
    · exact encByte_raised h
    · exact ih h

theorem enc_raises : RaisesIn enc (faultsOf .enc) := by
  intro s k st off _ h
  rcases need_bind_raised h with ⟨_, rfl, rfl⟩ | ⟨_, h⟩
  · simp [faultsOf]
  · rcases Res.bind_eq_raised.mp h with h | ⟨bs, _, h⟩
    · exact absurd h scanInput_ne_raised
    · obtain ⟨rfl | rfl, rfl⟩ := encBytes_raised h <;> simp [faultsOf]

theorem dlmw_raises : RaisesIn dlmw (faultsOf .dlmw) := by
  intro s k st off _ h
  obtain ⟨rfl, rfl⟩ := outAppendAll_raised h
  exact List.mem_singleton_self _

/-- No symbol is present in an empty input. -/
theorem presentSymbols_countOf_nil : presentSymbols (countOf []) = [] := by
  simp [presentSymbols, countOf]

/-- COMP on an empty input (45_encoder.md R225). -/
theorem comp_raised_of_empty {s : State} (h : s.ilen = 0) : comp s = .raised .emptyInput .build none := by
  have hbytes : inputBytes s.clearOut = [] := List.length_eq_zero_iff.mp (by rw [inputBytes_length, State.clearOut_ilen, h]; rfl)
  have hzero : s.clearOut.scanned.dsym = 0 := by
    refine BitVec.eq_of_toNat_eq ?_
    rw [scanned_dsym, hbytes, presentSymbols_countOf_nil]
    rfl
  rw [comp, fscan_done (by rw [State.clearOut_ilen, h]; exact Nat.zero_le _), Res.done_bind,
    tbuild_raised_of_empty rfl hzero, Res.raised_bind]

theorem comp_raises : RaisesIn comp (faultsOf .comp) := by
  intro s k st off hs h
  by_cases hempty : s.ilen = 0
  · rw [comp_raised_of_empty hempty] at h
    cases h
    simp [faultsOf]
  · obtain ⟨u, tr, _, ⟨_, hdone⟩ | ⟨_, st', hst, hraised⟩⟩ := comp_container hs hempty
    · rw [hdone] at h
      cases h
    · rw [hraised] at h
      cases h
      simp only [List.mem_cons, List.not_mem_nil, or_false] at hst
      rcases hst with rfl | rfl | rfl <;> simp [faultsOf]

theorem dstep_raises (imm : Byte) : RaisesIn (dstep imm) (faultsOf (.dstep imm)) := by
  intro s k st off _ h
  rcases need_bind_raised h with ⟨_, rfl, rfl⟩ | ⟨_, h⟩
  · simp [faultsOf]
  · obtain ⟨rfl | rfl, rfl⟩ := decStep_raised h <;> simp [faultsOf]

theorem dend_raises : RaisesIn dend (faultsOf .dend) := by
  intro s k st off _ h
  rcases need_bind_raised h with ⟨_, rfl, rfl⟩ | ⟨_, h⟩
  · simp [faultsOf]
  · obtain ⟨rfl, rfl⟩ := atRoot_raised h
    simp [faultsOf]

theorem dec_raises : RaisesIn dec (faultsOf .dec) := by
  intro s k st off _ h
  cases hv : s.treeV
  · rw [dec, hv] at h
    cases h
    simp [faultsOf]
  · obtain ⟨rfl | rfl | rfl, rfl⟩ := dec_raised hv h <;> simp [faultsOf]

/-- DECOMP raises what TDES, DLMS and DEC raise; TDES has made a tree for DEC. -/
theorem decomp_raises : RaisesIn decomp (faultsOf .decomp) := by
  intro s k st off hs h
  have hs' : Good { s.clearOut with ipos := 0 } := ((irew_keeps s.clearOut (clearOut_good hs)).2 _ rfl).1
  rcases Res.bind_eq_raised.mp h with h | ⟨u, hu, h⟩
  · obtain ⟨rfl, rfl⟩ := tdes_raises hs' h
    simp [faultsOf]
  rcases Res.bind_eq_raised.mp h with h | ⟨v, hv, h⟩
  · obtain ⟨rfl, rfl⟩ := dlms_raises h
    simp [faultsOf]
  · have htree : v.treeV = true := by rw [dlms_frame hv, tdes_frame hu]
    obtain ⟨rfl | rfl | rfl, rfl⟩ := dec_raised htree h <;> simp [faultsOf]

/-- The table of R281, command by command. -/
theorem body_raises (i : Instr) : RaisesIn (body i) (faultsOf i) := by
  cases i with
  | ipush imm => exact ipush_raises imm
  | iclr => intro s k st off _ h; cases h
  | irew => intro s k st off _ h; cases h
  | oclr => intro s k st off _ h; cases h
  | omov => exact omov_raises
  | fscan => exact fscan_raises
  | pqbuild => exact pqbuild_raises
  | pqins => exact pqins_raises
  | pqext => exact pqext_raises
  | merge => exact merge_raises
  | troot => exact troot_raises
  | tbuild => exact tbuild_raises
  | cgen => exact cgen_raises
  | tser => exact tser_raises
  | tdes => intro s k st off hs h; obtain ⟨rfl, rfl⟩ := tdes_raises hs h; exact List.mem_singleton_self _
  | enc => exact enc_raises
  | dlmw => exact dlmw_raises
  | comp => exact comp_raises
  | dlms => intro s k st off _ h; obtain ⟨rfl, rfl⟩ := dlms_raises h; exact List.mem_singleton_self _
  | dstep imm => exact dstep_raises imm
  | dend => exact dend_raises
  | dec => exact dec_raises
  | decomp => exact decomp_raises

/-! ## First after reset -/

/-- A command whose pseudocode completes retires. -/
theorem retires_of_done {i : Instr} {s t : State} (hf : s.fault = false) (hb : body i s = .done t) :
    ∃ u, exec i s = .next u ∧ u.fault = false := by
  obtain ⟨hfault, _⟩ := body_record hb
  exact ⟨t.retire, exec_of_done hf hb, hfault.trans hf⟩

/-- TDES at the end of the input finds no marker (44_tree_serdes.md R204). -/
theorem tdes_raised_at_end {s : State} (hin : s.ilen.toNat ≤ s.params.inCap)
    (h : (inputBytes s).drop s.ipos.toNat = []) : tdes s = .raised .malformedTree .des (some s.ipos) := by
  rw [tdes, restBytes_done hin, Res.done_bind, h]
  rfl

/-- DLMS finds no delimiter in an empty input (46_decoder.md R240). -/
theorem dlms_raised_of_empty {s : State} (hne : s.params.delim ≠ []) (h : s.ilen = 0) :
    dlms s = .raised .malformedTree .delim (some s.ipos) := by
  have hin : s.ilen.toNat = 0 := by rw [h]; rfl
  refine dlms_raised (by omega) hne fun p hp => ?_
  obtain ⟨_, hfits, _⟩ := hp
  have := List.length_pos_iff.mpr hne
  omega

/-! ## The statements -/

/-- Settles O13: a command that faults has raised one of its faults and entered the fault state with it. -/
theorem commandsRaiseOnlyTheirFaults : Obligations.CommandsRaiseOnlyTheirFaults := by
  intro i s t hs hf h ht
  rcases exec_eq_next h with ⟨hfaulted, _⟩ | ⟨_, hretired, _⟩ | ⟨_, k, st, off, hraised, rfl⟩
  · exact absurd hfaulted (by simp [hf])
  · exact absurd ht (by simp [hretired])
  · exact ⟨k, st, off, body_raises i s k st off (hs.good hf) hraised, faultRecord_enterFault _ k st off s⟩

/-- Settles O14: after reset every flag is 0, so the guarded commands raise at once; the buffers are empty, and the capacities
and the delimiter are not. -/
theorem firstCommandAfterReset : Obligations.FirstCommandAfterReset := by
  intro p imm s hp hs
  obtain ⟨hin, _, _, hcap, hdelim, _, hout⟩ := params_bounds hp
  have hparams : s.params = p := by rw [hs]
  have hf : s.fault = false := by rw [hs]; rfl
  have hilen : s.ilen = 0 := by rw [hs]; rfl
  have holen : s.olen.toNat = 0 := by rw [hs]; rfl
  have hi0 : s.ilen.toNat = 0 := by rw [hilen]; rfl
  have hipos : s.ipos = 0 := by rw [hs]; rfl
  have hraised {i : Instr} {k : ErrKind} {st : Stage} {off : Option (BitVec 32)} (h : body i s = .raised k st off) :
      Faults i s k st off := faults_of_raised hf h
  have htdes : tdes s = .raised .malformedTree .des (some 0) := by
    rw [tdes_raised_at_end (by omega), hipos]
    exact List.drop_eq_nil_of_le (by rw [inputBytes_length]; omega)
  refine ⟨fun i hi => ?_, hraised (comp_raised_of_empty hilen), fun i hi => ?_, hraised ?_, fun i hi => ?_, fun i hi => ?_,
    hraised (by rw [hs]; rfl), hraised (by rw [hs]; rfl), hraised (by rw [hs]; rfl), fun i hi => ?_⟩
  · simp only [List.mem_cons, List.not_mem_nil, or_false] at hi
    rcases hi with rfl | rfl | rfl | rfl | rfl | rfl | rfl
    · exact retires_of_done hf (ipush_done imm (by rw [hparams]; omega))
    · exact retires_of_done (i := .iclr) hf rfl
    · exact retires_of_done (i := .irew) hf rfl
    · exact retires_of_done (i := .oclr) hf rfl
    · exact retires_of_done hf (omov_done (by omega) (by omega))
    · exact retires_of_done hf (fscan_done (by omega))
    · exact retires_of_done hf (outAppendAll_done (by rw [hparams]; exact hcap) (by rw [hparams]; omega))
  · simp only [List.mem_cons, List.not_mem_nil, or_false] at hi
    have hstart : ({ s.clearOut with ipos := 0 } : State) = s := by rw [hs]; rfl
    rcases hi with rfl | rfl
    · exact hraised htdes
    · exact hraised (by rw [body, decomp, hstart, htdes, Res.raised_bind])
  · have hne : s.params.delim ≠ [] := by rw [hparams]; exact List.length_pos_iff.mp hdelim
    rw [body, dlms_raised_of_empty hne hilen, hipos]
  · simp only [List.mem_cons, List.not_mem_nil, or_false] at hi
    rcases hi with rfl | rfl | rfl <;> exact hraised (by rw [hs]; rfl)
  · simp only [List.mem_cons, List.not_mem_nil, or_false] at hi
    rcases hi with rfl | rfl | rfl <;> exact hraised (by rw [hs]; rfl)
  · simp only [List.mem_cons, List.not_mem_nil, or_false] at hi
    rcases hi with rfl | rfl | rfl <;> exact hraised (by rw [hs]; rfl)

end Sys2Proof.Machine
end

section
/-!
PROOFS about the frequency table, the queue and the builder: the counts (40_buffers_freq.md R137), PQINS and successive extractions
(41_priority_queue.md R156, R159), MERGE, TBUILD and the tree it builds (42_tree_builder.md R170 to R177).
-/

namespace Sys2Proof.Machine

open Sys2Proof.Config

/-! ## The frequency table -/

/-- FSCAN that retires has made the scanned state. -/
theorem fscan_eq_scanned {s t : State} (h : fscan s = .done t) : t = s.scanned := by
  obtain ⟨bs, hbs, _⟩ := Res.bind_eq_done.mp h
  rw [fscan_done (scanInput_eq_done hbs).2] at h
  cases h
  rfl

/-- Every count is that of a byte of the input. -/
theorem scanned_counts_sum (s : State) : ((List.range 256).map fun y => (freqAt s.scanned y).toNat).sum = s.ilen.toNat := by
  rw [← inputBytes_length s, ← count_sum]
  refine congrArg List.sum (List.map_congr_left fun y hy => ?_)
  rw [scanned_freqAt (List.mem_range.mp hy), countOf_inputBytes_toNat]

/-- The distinct symbols are bytes of the input. -/
theorem present_length_le (s : State) : (presentSymbols (countOf (inputBytes s))).length ≤ s.ilen.toNat := by
  have hlen : (inputBytes s).length < 2 ^ 32 := by rw [inputBytes_length]; exact s.ilen.isLt
  have hsub := (presentSymbols_nodup (countOf (inputBytes s))).subperm
    fun y hy => (mem_inputBytes_symbols hlen y).mp hy
  simpa using hsub.length_le

/-- No symbol is present exactly when the input is empty. -/
theorem scanned_dsym_eq_zero_iff (s : State) : s.scanned.dsym = 0 ↔ s.ilen = 0 := by
  rw [← BitVec.toNat_inj, ← BitVec.toNat_inj, scanned_dsym]
  constructor
  · intro h
    by_contra hne
    refine present_ne_nil (bs := inputBytes s) (fun hnil => hne ?_) ?_ (List.length_eq_zero_iff.mp h)
    · rw [← inputBytes_length s, hnil]
      rfl
    · rw [inputBytes_length]
      exact s.ilen.isLt
  · intro h
    have := present_length_le s
    rw [h] at this
    exact Nat.le_zero.mp this

/-! ## The queue -/

/-- The state PQINS makes (R156). -/
def State.inserted (s : State) : State := { s with pq := pqAdd s.xr s.pq, hsize := s.hsize + 1, xrV := false }

theorem pqins_done {s : State} (hv : s.heapV = true) (hx : s.xrV = true) (hlt : s.xr.toNat < nodeCap) :
    pqins s = .done s.inserted := by
  rw [pqins, hv, hx, Bool.and_self, need_true, Res.done_bind, pqInsert_done hlt]
  rfl

theorem pqins_raised {s : State} (h : s.heapV = false ∨ s.xrV = false) : pqins s = .raised .sequence .pq none := by
  rw [pqins, Bool.and_eq_false_iff.mpr h, need_false, Res.raised_bind]

/-- With a node in hand the queue has at most 255 members (R40). -/
theorem HeapInv.hsize_lt {s : State} (h : HeapInv s) (hx : s.xrV = true) : s.hsize.toNat < 256 := by
  have hlen := h.pending_length
  rw [pending, if_pos hx, List.length_cons] at hlen
  rw [h.size]
  exact hlen

/-- PQEXT that retires has taken the least member. -/
theorem pqext_eq_tookInHand {s t : State} (h : pqext s = .done t) :
    ∃ x, pqLeast s s.pq = some x ∧ s.heapV = true ∧ t = s.tookInHand x := by
  obtain ⟨hv, h⟩ := need_bind_done h
  obtain ⟨⟨x, u⟩, hu, h⟩ := Res.bind_eq_done.mp h
  unfold pqExtractMin at hu
  split at hu
  · cases hu
  split at hu
  · cases hu
  · rename_i y hy
    cases hu
    cases h
    exact ⟨x, hy, hv, rfl⟩

/-! ## The builder -/

theorem rootTree_retire (s : State) : rootTree s.retire = rootTree s := rootTree_cix (s.cix + 1) s

/-- A list of commands whose pseudocode completes retires, `CIX` counting the commands. -/
theorem execAll_of_bodyAll {is : List Instr} {s t : State} (hf : s.fault = false) (h : bodyAll is s = .done t) :
    execAll is s = .next (t.setCix (s.cix + BitVec.ofNat 32 is.length)) := by
  induction is generalizing s t with
  | nil => cases h; simp [State.setCix]
  | cons i is ih =>
    obtain ⟨u, hu, h⟩ := Res.bind_eq_done.mp h
    obtain ⟨hfault, _, _, _, _, _, hcix, _⟩ := body_record hu
    have hrest : bodyAll is u.retire = .done (t.setCix (u.cix + 1)) := by
      rw [show u.retire = u.setCix (u.cix + 1) from rfl, bodyAll_cix is, h]
      rfl
    rw [execAll_cons (exec_of_done hf hu), ih (s := u.retire) (hfault.trans hf) hrest, State.retire_cix, hcix, List.length_cons,
      BitVec.add_assoc, ofNat_succ32]
    rfl

/-- Merges and a TROOT in a row do what the loop of R174 and its TROOT do. -/
theorem merges_eq_mergeLoop {count : Nat → BitVec 32} {ys : List Nat} {n fuel : Nat} {s : State} (h : Building count ys s)
    (hn : s.pq.length = n + 1) (hfuel : n ≤ fuel) :
    bodyAll (List.replicate n .merge ++ [.troot]) s = (mergeLoop fuel s).bind troot := by
  have hsize := (h.good.live.heap h.heapV).size
  induction n generalizing fuel s with
  | zero =>
    have hloop : mergeLoop fuel s = .done s := by
      cases fuel with
      | zero => rfl
      | succ fuel => rw [mergeLoop, if_neg (by omega)]
    rw [hloop]
    show (troot s).bind .done = troot s
    cases troot s <;> rfl
  | succ n ih =>
    obtain ⟨fuel, rfl⟩ := Nat.exists_eq_add_of_le' (Nat.lt_of_lt_of_le (Nat.succ_pos n) hfuel)
    rcases merge_cases h.good h.heapV with ⟨hlt, _⟩ | ⟨a, b, ham, hbm, hab, _, _, hroom, hdone⟩
    · omega
    have hb := h.merged ham hbm hab hroom
    have hlen : (s.merged a b).pq.length = n + 1 := by
      have h1 := hb.room
      have h2 := h.room
      rw [merged_ncnt hroom] at h1
      omega
    have hih := ih (fuel := fuel) hb hlen (by omega) (hb.good.live.heap hb.heapV).size
    rw [mergeLoop, if_pos (by omega), hdone, Res.done_bind, ← hih, List.replicate_succ]
    show (merge s).bind _ = _
    rw [hdone, Res.done_bind]
    rfl

/-- TBUILD and its parts complete alike (R176). -/
theorem tbuild_parts {s : State} (hs : Good s) (hv : s.freqV = true) (hd : s.dsym ≠ 0) :
    ∃ t, tbuild s = .done t ∧ Built (freqAt s) (presentSymbols (freqAt s)) t ∧
      bodyAll (.pqbuild :: (List.replicate (s.dsym.toNat - 1) .merge ++ [.troot])) s = .done t := by
  obtain ⟨t, u, hloop, hroot, hdone, hbuilt⟩ := tbuild_built hs hv hd
  have hdsym := (hs.live.freq hv).dsym
  have hpos : s.dsym.toNat ≠ 0 := fun h => hd (BitVec.eq_of_toNat_eq h)
  have hne : presentSymbols (freqAt s) ≠ [] := List.length_pos_iff.mp (by omega)
  have hlen : s.queued.pq.length = (s.dsym.toNat - 1) + 1 := by
    rw [State.queued, List.length_map, List.length_range]
    omega
  refine ⟨t, hdone, hbuilt, ?_⟩
  show (pqbuild s).bind _ = _
  rw [pqbuild_done hv, Res.done_bind,
    merges_eq_mergeLoop (fuel := (presentSymbols (freqAt s)).length) (queued_building hs hv hne) hlen (by omega), hloop,
    Res.done_bind, hroot]

/-- Absent symbols add nothing to a sum of counts. -/
theorem present_sum (count : Nat → BitVec 32) :
    ((presentSymbols count).map fun y => (count y).toNat).sum = ((List.range 256).map fun y => (count y).toNat).sum := by
  rw [presentSymbols, nsym]
  induction List.range 256 with
  | nil => rfl
  | cons y l ih =>
    by_cases hy : count y = 0
    · rw [List.filter_cons_of_neg (by simp [hy]), List.map_cons, List.sum_cons, hy, ih]
      exact (Nat.zero_add _).symm
    · rw [List.filter_cons_of_pos (by simpa using hy), List.map_cons, List.map_cons, List.sum_cons, List.sum_cons, ih]

/-! ## The statements -/

/-- Settles O32: every byte of the input is counted once. -/
theorem frequencyTableProperties : Obligations.FrequencyTableProperties := by
  intro s t _ h hf
  obtain ⟨_, u, hu, rfl⟩ := done_of h hf
  obtain rfl := fscan_eq_scanned hu
  refine ⟨scanned_counts_sum s, scanned_dsym_eq_zero_iff s, ?_⟩
  rw [State.retire_dsym, scanned_dsym]
  exact Nat.le_min.mpr ⟨present_length _, present_length_le s⟩

/-- Settles O35: the node in hand and the queue's members are pending roots, of which there are at most 256. -/
theorem pqinsInsertsTheNodeInHand : Obligations.PqinsInsertsTheNodeInHand := by
  refine fun s hf => ⟨fun h => faults_of_raised hf (pqins_raised h), fun hv hx hlt => ?_, fun hs hv hne => ?_⟩
  · refine ⟨s.inserted.retire, exec_of_done hf (pqins_done hv hx hlt), fun y => mem_pqAdd, fun hs => ?_, rfl⟩
    have hsize := (((hs.good hf).live.heap hv)).hsize_lt hx
    have hnext : (s.hsize + 1).toNat = s.hsize.toNat + 1 := bv_add_one (by omega)
    exact ⟨hnext, by rw [State.retire_hsize, State.inserted, hnext]; omega⟩
  · have hgood := hs.good hf
    have hsize : s.hsize ≠ 0 := by
      intro h
      have := (hgood.live.heap hv).size
      rw [h] at this
      exact hne (List.length_eq_zero_iff.mp this.symm)
    obtain ⟨x, hx⟩ := exists_pqLeast_eq_some s hne
    obtain ⟨hmem, _⟩ := pqLeast_spec hx
    have hext := exec_of_done (i := .pqext) hf (pqext_done hv hsize hx)
    have hins := exec_of_done (i := .pqins) (s := (s.tookInHand x).retire) hf
      (pqins_done hv rfl (hgood.form.pq.2 x hmem))
    refine ⟨(s.tookInHand x).retire.inserted.retire, by rw [execAll_cons hext, execAll_cons hins, execAll_nil], hf, pqAdd_pqDrop hgood.form.pq.1 hmem,
      BitVec.sub_add_cancel _ _, rfl⟩

/-- Settles O37: the second extraction finds a member the first one left, so the first was less. -/
theorem extractionsAscend : Obligations.ExtractionsAscend := by
  intro s t u hs hv h1 h2 hu
  obtain ⟨ht, v, hv2, rfl⟩ := done_of h2 hu
  obtain ⟨hf, w, hw, rfl⟩ := done_of h1 ht
  obtain ⟨x, hx, _, rfl⟩ := pqext_eq_tookInHand hw
  obtain ⟨y, hy, _, rfl⟩ := pqext_eq_tookInHand hv2
  obtain ⟨hymem, hyne⟩ := mem_pqDrop.mp (show y ∈ pqDrop x s.pq from (pqLeast_spec hy).1)
  exact (pqLeast_spec hx).2 y hymem hyne

/-- Settles O38: the two extracted nodes are the least ones, and the pending roots' weights and leaves bound the sum and the
arena. -/
theorem mergeJoinsTheTwoLeastNodes : Obligations.MergeJoinsTheTwoLeastNodes := by
  intro s hs hf
  have hgood := hs.good hf
  refine ⟨fun hv => faults_of_raised hf (by rw [body, merge, hv, need_false, Res.raised_bind]), fun hv hlt => ?_, fun hv hle => ?_⟩
  · have hsize := (hgood.live.heap hv).size
    rcases merge_cases hgood hv with ⟨_, hraised⟩ | ⟨a, b, ham, hbm, hab, _⟩
    · exact faults_of_raised hf hraised
    · have hlen := (pq_split hgood.form.pq ham hbm hab).length_eq
      simp only [List.length_cons] at hlen
      omega
  · have hheap := hgood.live.heap hv
    have hsize := hheap.size
    rcases merge_cases hgood hv with ⟨hlt, _⟩ | ⟨a, b, ham, hbm, hab, hamin, hbmin, hroom, hdone⟩
    · omega
    have hidx := ncnt_index hroom
    have hnew := merged_nodeAt_new (a := a) (b := b) hidx
    have hsum : (nodeAt s a).weight.toNat + (nodeAt s b).weight.toNat ≤ 4294967295 := by
      obtain ⟨l, hl⟩ := pending_pq (s := s)
      have hweights := hheap.weights
      rw [(hl.map _).sum_eq, List.map_append, List.sum_append, sum_perm_two (pq_split hgood.form.pq ham hbm hab)] at hweights
      omega
    have hpq : ∀ y, y ∈ (s.merged a b).pq ↔ y = s.ncnt.setWidth 9 ∨ (y ∈ s.pq ∧ y ≠ a ∧ y ≠ b) := fun y => by
      rw [show (s.merged a b).pq = pqAdd (s.ncnt.setWidth 9) (pqDrop b (pqDrop a s.pq)) from rfl, mem_pqAdd, mem_pqDrop,
        mem_pqDrop, and_assoc]
    have hsize' : (s.merged a b).hsize.toNat + 1 = s.hsize.toNat := by
      have := s.hsize.isLt
      have hone : (1 : BitVec 9).toNat = 1 := rfl
      simp only [State.merged, BitVec.toNat_add, BitVec.toNat_sub, hone]
      omega
    refine ⟨a, b, s.ncnt.setWidth 9, (s.merged a b).retire, exec_of_done hf hdone, ham, hamin, hbm, hab.symm, hbmin, hidx, hnew,
      ?_, fun j hj => Memory.read_write_other _ _ hj, hpq, merged_ncnt (a := a) (b := b) hroom,
      hsize', rfl⟩
    calc (nodeAt (s.merged a b) (s.ncnt.setWidth 9)).weight.toNat
        _ = ((nodeAt s a).weight + (nodeAt s b).weight).toNat := by rw [hnew]; rfl
        _ = (nodeAt s a).weight.toNat + (nodeAt s b).weight.toNat := by rw [BitVec.toNat_add, Nat.mod_eq_of_lt (by omega)]

/-- Settles O40: TBUILD's loop merges `D − 1` times, as the invariant of the loop tells. -/
theorem tbuildBuildsTheTree : Obligations.TbuildBuildsTheTree := by
  intro s hs hf
  have hgood := hs.good hf
  refine ⟨fun hv => faults_of_raised hf (tbuild_raised_of_no_table hv),
    fun hv hd => faults_of_raised hf (tbuild_raised_of_empty hv hd), fun hv hd => ?_⟩
  obtain ⟨t, hdone, hbuilt, hparts⟩ := tbuild_parts hgood hv hd
  have hdsym := (hgood.live.freq hv).dsym
  have hncnt := hbuilt.ncnt
  have hroot := hbuilt.root
  have hframe : t = { s with node := t.node, ncnt := t.ncnt, root := t.root, cur := t.root, pq := [], hsize := 0, heapV := false, treeV := true, xrV := false } := by
    conv_lhs => rw [tbuild_frame hdone, hbuilt.pq, hbuilt.hsize, hbuilt.cur]
  refine ⟨t.retire, exec_of_done hf hdone, ?_, by rw [State.retire_ncnt]; omega, by rw [State.retire_root]; omega, hbuilt.cur, ?_⟩
  · have hlen : (Instr.pqbuild :: (List.replicate (s.dsym.toNat - 1) .merge ++ [.troot])).length = s.dsym.toNat + 1 := by
      simp only [List.length_cons, List.length_append, List.length_replicate, List.length_nil]
      omega
    rw [execAll_of_bodyAll hf hparts, hlen]
    rfl
  · conv_lhs => rw [hframe]
    rfl

/-- Settles O41: the invariant of the merge loop, at its end. -/
theorem builtTreeProperties : Obligations.BuiltTreeProperties := by
  intro s t hs hv h hf ys hys
  obtain ⟨hlive, u, hu, rfl⟩ := done_of h hf
  have hgood := hs.good hlive
  rw [← presentSymbols_eq_filter_pos] at hys
  subst hys
  have hdsym := (hgood.live.freq hv).dsym
  have hd : s.dsym ≠ 0 := fun h0 => by
    rw [body, tbuild_raised_of_empty hv h0] at hu
    cases hu
  obtain ⟨t, hdone, hbuilt, _⟩ := tbuild_parts hgood hv hd
  obtain rfl : t = u := by
    rw [body, hdone] at hu
    cases hu
    rfl
  refine ⟨?_, hbuilt.leaves, fun n hle hlt => hbuilt.parents n (hdsym ▸ hle) hlt, hbuilt.weight.trans (present_sum _)⟩
  obtain ⟨tr, htree, hsym⟩ := hbuilt.tree
  refine ⟨tr, (rootTree_retire t).trans htree, ?_, hsym⟩
  rw [← tr.symbols_length, hsym.length_eq, List.length_map, hdsym]

end Sys2Proof.Machine
end

section
/-!
PROOFS about codes and the serialized tree: no code begins another (43_code_generator.md R192), what TDES rebuilds (44_tree_serdes.md R203)
and the four ways it faults (R204), and the round trip through the buffers (R207).
-/

namespace Sys2Proof.Machine

open Sys2Proof.Config

/-- What the root's tree depends on. -/
theorem rootTree_congr {s t : State} (hnode : t.node = s.node) (hfree : t.freeCount = s.freeCount) (hroot : t.root = s.root) :
    rootTree t = rootTree s := by
  rw [rootTree, rootTree, treeAt_same hnode hfree, hroot]

/-! ## Prefix-free codes -/

/-- The entry of a valid symbol is the code of one of its leaves. -/
theorem coded_codeAt_valid {s : State} {tr : Tree} {y : Byte} (hnodup : tr.symbols.Nodup)
    (hv : (codeAt (s.coded tr) y).valid = true) : ∃ p, (y, p) ∈ tr.codes ∧ codeAt (s.coded tr) y = codeOfPath p := by
  have hmem : y ∈ tr.symbols := by
    by_contra hno
    rw [coded_codeAt_other s hno] at hv
    cases hv
  rw [← tr.codes_symbols, List.mem_map] at hmem
  obtain ⟨⟨z, p⟩, he, rfl⟩ := hmem
  exact ⟨p, he, by simp [codeAt, State.coded, codeTable_mem hnodup he]⟩

/-- Two entries of the list of codes are apart, whichever comes first. -/
theorem Tree.codes_apart_of_ne (t : Tree) {e e' : Byte × List Bool} (he : e ∈ t.codes) (he' : e' ∈ t.codes) (hne : e ≠ e') :
    Apart e.2 e'.2 :=
  have : Std.Symm fun e e' : Byte × List Bool => Apart e.2 e'.2 := ⟨fun _ _ h => ⟨h.2, h.1⟩⟩
  t.codes_apart.forall he he' hne

/-! ## What TDES rebuilds -/

/-- What each entry of a tree's layout is: a leaf, or an internal node whose left child follows it with its own layout and
whose right child follows that (R203). -/
theorem Tree.layout_entry (t : Tree) {n : Nat} {e : Nat × NodeRec} (he : e ∈ t.layout n) :
    (∃ y, e.2 = desLeaf y) ∨
    ∃ l : Tree, e.2 = desInternal (e.1 + 1) (e.1 + 1 + l.size) ∧ l.layout (e.1 + 1) ⊆ t.layout n ∧ e.1 + 1 + l.size < n + t.size := by
  induction t generalizing n with
  | leaf y =>
    obtain rfl := List.mem_singleton.mp he
    exact .inl ⟨y, rfl⟩
  | node l r ihl ihr =>
    have hsub : ∀ x, x ∈ l.layout (n + 1) ∨ x ∈ r.layout (n + 1 + l.size) → x ∈ (Tree.node l r).layout n :=
      fun x hx => List.mem_cons_of_mem _ (List.mem_append.mpr hx)
    have hr := r.size_eq
    have hrpos := r.leaves_pos
    simp only [Tree.size]
    rcases List.mem_cons.mp he with rfl | he
    · exact .inr ⟨l, rfl, fun x hx => hsub x (.inl hx), by omega⟩
    · rcases List.mem_append.mp he with he | he
      · rcases ihl he with hleaf | ⟨l', heq, hin, hlt⟩
        · exact .inl hleaf
        · exact .inr ⟨l', heq, fun x hx => hsub x (.inl (hin hx)), by omega⟩
      · rcases ihr he with hleaf | ⟨l', heq, hin, hlt⟩
        · exact .inl hleaf
        · exact .inr ⟨l', heq, fun x hx => hsub x (.inr (hin hx)), by omega⟩

/-- A tree that fits the arena is shallow enough for a traversal (R44). -/
theorem Tree.depth_lt_levels {t : Tree} (h : t.size ≤ nodeCap) : t.depth < treeLevels := by
  have := t.depth_lt_leaves
  have := t.size_eq
  simp only [nodeCap, treeLevels] at *
  omega

/-- The arena after TDES is the layout of the tree. -/
theorem deserialized_node {s : State} {t : Tree} {n : NodeIdx} (hn : n.toNat < t.size) :
    (n.toNat, nodeAt (s.deserialized t) n) ∈ t.layout 0 := by
  have hd : Defined (t.layout 0) t.size := by simpa using Defined.nil.append_layout t
  obtain ⟨r, hr⟩ := hd.read hn
  have hnode : nodeAt (s.deserialized t) n = r := by simp [nodeAt, State.deserialized, hr]
  rw [hnode]
  exact Memory.read_mem hr

/-- Each node TDES makes (R203). -/
theorem deserialized_nodeAt {s : State} {t : Tree} (ht : t.size ≤ nodeCap) {n : NodeIdx} (hn : n.toNat < t.size) :
    (∃ y, nodeAt (s.deserialized t) n = desLeaf y) ∨
    ∃ l : Tree, nodeAt (s.deserialized t) n = desInternal (n.toNat + 1) (n.toNat + 1 + l.size) ∧
      n.toNat + 1 + l.size < t.size ∧ treeAt (s.deserialized t) treeLevels (BitVec.ofNat 9 (n.toNat + 1)) = .done l := by
  rcases t.layout_entry (deserialized_node (s := s) hn) with hleaf | ⟨l, hnode, hsub, hlt⟩
  · exact .inl hleaf
  · refine .inr ⟨l, hnode, by simpa using hlt, treeAt_layout l (fun e he => ?_) (by omega) (Tree.depth_lt_levels (by omega))⟩
    have hd : Defined (t.layout 0) t.size := by simpa using Defined.nil.append_layout t
    exact Memory.read_of_mem hd.wf (hsub he)

/-- The fields R203 gives the nodes TDES makes. -/
theorem deserialized_fields {s : State} {t : Tree} (ht : t.size ≤ nodeCap) {n : NodeIdx} (hn : n.toNat < t.size) :
    (nodeAt (s.deserialized t) n).weight = 0 ∧
    ((nodeAt (s.deserialized t) n).kind = .leaf →
      (nodeAt (s.deserialized t) n).left = 0 ∧ (nodeAt (s.deserialized t) n).right = 0) ∧
    ((nodeAt (s.deserialized t) n).kind = .internal → (nodeAt (s.deserialized t) n).sym = 0 ∧
      (nodeAt (s.deserialized t) n).left.toNat = n.toNat + 1 ∧
      ∃ l, treeAt (s.deserialized t) treeLevels (nodeAt (s.deserialized t) n).left = .done l ∧
        (nodeAt (s.deserialized t) n).right.toNat = n.toNat + 2 * l.leaves) := by
  rcases deserialized_nodeAt (s := s) ht hn with ⟨y, hnode⟩ | ⟨l, hnode, hlt, htree⟩
  · rw [hnode]
    exact ⟨rfl, fun _ => ⟨rfl, rfl⟩, fun hk => (nomatch hk)⟩
  · have hsize := l.size_eq
    simp only [nodeCap] at ht
    rw [hnode]
    refine ⟨rfl, fun hk => (nomatch hk), fun _ => ⟨rfl, ?_, l, htree, ?_⟩⟩
    · simp only [desInternal, BitVec.toNat_ofNat]
      omega
    · simp only [desInternal, BitVec.toNat_ofNat]
      omega

/-- The cursor after TDES, which does not wrap. -/
theorem deserialized_ipos {s : State} {t : Tree} {tail : List Byte} (h : (inputBytes s).drop s.ipos.toNat = t.ser ++ tail) :
    (s.deserialized t).ipos.toNat = s.ipos.toNat + t.ser.length := by
  have hlen := congrArg List.length h
  rw [List.length_drop, inputBytes_length, List.length_append] at hlen
  have := t.ser_length
  have := t.leaves_pos
  have := s.ilen.isLt
  simp only [State.deserialized, BitVec.toNat_add, BitVec.toNat_ofNat]
  omega

/-! ## Node tokens -/

/-- The node tokens of a tree, in pre-order (30_encoding.md R111). -/
def Tree.tokens : Tree → List (Option Byte)
  | .leaf y => [some y]
  | .node l r => none :: (l.tokens ++ r.tokens)

theorem tokenBytes_append (ts us : List (Option Byte)) : tokenBytes (ts ++ us) = tokenBytes ts ++ tokenBytes us := by
  induction ts with
  | nil => rfl
  | cons t ts ih => cases t <;> simp [tokenBytes, ih]

theorem Tree.tokenBytes_tokens (t : Tree) : tokenBytes t.tokens = t.ser := by
  induction t with
  | leaf y => rfl
  | node l r ihl ihr => simp [Tree.tokens, tokenBytes, tokenBytes_append, ihl, ihr, Tree.ser]

theorem Tree.tokens_length (t : Tree) : t.tokens.length = t.size := by
  induction t with
  | leaf y => rfl
  | node l r ihl ihr =>
    simp only [Tree.tokens, List.length_cons, List.length_append, ihl, ihr, Tree.size]
    omega

/-- Tokens are read off their bytes in one way. -/
theorem tokens_prefix_of_bytes {ts us : List (Option Byte)} {more : List Byte} (h : tokenBytes us = tokenBytes ts ++ more) :
    ∃ vs, us = ts ++ vs ∧ more = tokenBytes vs := by
  induction ts generalizing us with
  | nil => exact ⟨us, rfl, h.symm⟩
  | cons t ts ih =>
    cases us with
    | nil => cases t <;> cases h
    | cons u us =>
      cases t with
      | none =>
        cases u with
        | none =>
          obtain ⟨vs, rfl, hmore⟩ := ih (List.cons.inj h).2
          exact ⟨vs, rfl, hmore⟩
        | some z => exact absurd (List.cons.inj h).1 (by decide)
      | some y =>
        cases u with
        | none => exact absurd (List.cons.inj h).1 (by decide)
        | some z =>
          obtain ⟨rfl, hrest⟩ := List.cons.inj (List.cons.inj h).2
          obtain ⟨vs, rfl, hmore⟩ := ih hrest
          exact ⟨vs, rfl, hmore⟩

/-- After the tokens a tree needs a further node. -/
def NeedsNode (ts : List (Option Byte)) : Prop := ∃ (tr : Tree) (vs : List (Option Byte)), tr.tokens = ts ++ vs ∧ vs ≠ []

theorem needsNode_iff_bytes {ts : List (Option Byte)} :
    NeedsNode ts ↔ ∃ (tr : Tree) (more : List Byte), tr.ser = tokenBytes ts ++ more ∧ more ≠ [] := by
  constructor
  · rintro ⟨tr, vs, htokens, hne⟩
    refine ⟨tr, tokenBytes vs, by rw [← tr.tokenBytes_tokens, htokens, tokenBytes_append], fun hnil => hne ?_⟩
    cases vs with
    | nil => rfl
    | cons v vs => cases v <;> cases hnil
  · rintro ⟨tr, more, hser, hne⟩
    rw [← tr.tokenBytes_tokens] at hser
    obtain ⟨vs, htokens, rfl⟩ := tokens_prefix_of_bytes hser
    exact ⟨tr, vs, htokens, fun hnil => hne (by rw [hnil]; rfl)⟩

theorem needsNode_nil : NeedsNode [] := ⟨.leaf 0, [some 0], rfl, by simp⟩

theorem NeedsNode.left {ts : List (Option Byte)} (h : NeedsNode ts) : NeedsNode (none :: ts) := by
  obtain ⟨tr, vs, htokens, hne⟩ := h
  exact ⟨.node tr (.leaf 0), vs ++ [some 0], by simp [Tree.tokens, htokens], by simp⟩

theorem NeedsNode.right {ts : List (Option Byte)} (l : Tree) (h : NeedsNode ts) : NeedsNode (none :: (l.tokens ++ ts)) := by
  obtain ⟨tr, vs, htokens, hne⟩ := h
  exact ⟨.node l tr, vs, by simp [Tree.tokens, htokens], hne⟩

/-! ## Where the parse stops -/

/-- What stands in the input where node `n` is to be read, when `parse()` raises `j` bytes further on (R204): nothing, a
leaf's marker alone, a byte that is no marker, or a marker for which the arena has no node. -/
inductive Stuck (n : Nat) : List Byte → Nat → Prop where
  | ended : Stuck n [] 0
  | noPayload (h : n < 511) : Stuck n [0x31] 1
  | noMarker (m : Byte) (after : List Byte) (h0 : m ≠ 0x30) (h1 : m ≠ 0x31) : Stuck n (m :: after) 0
  | noRoom (m : Byte) (after : List Byte) (h : n = 511) : Stuck n (m :: after) 0

theorem kindOfMarker_eq_none_iff {m : Byte} : kindOfMarker m = none ↔ m ≠ 0x30 ∧ m ≠ 0x31 := by
  unfold kindOfMarker
  split
  · rename_i h
    simp [h, markLeaf]
  · rename_i h1
    split
    · rename_i h0
      simp [h0, markInt]
    · rename_i h0
      exact iff_of_true rfl ⟨h0, h1⟩

theorem parseNode_stuck {fuel : Nat} {p : ParseState} {j : Nat} (h : Stuck p.n p.rest j) :
    parseNode (fuel + 1) p = .raised .malformedTree .des (some (p.ipos + BitVec.ofNat 32 j)) := by
  obtain ⟨rest, ipos, n, node⟩ := p
  cases h with
  | ended => simp [parseNode]
  | noPayload hn =>
    have hk : kindOfMarker 49#8 = some .leaf := rfl
    have hn' : n ≠ 511 := Nat.ne_of_lt hn
    simp [parseNode, hk, nodeCap, hn', ParseState.took, ParseState.create]
  | noMarker m after h0 h1 => simp [parseNode, kindOfMarker_eq_none_iff.mpr ⟨h0, h1⟩]
  | noRoom m after hn =>
    obtain rfl : n = 511 := hn
    cases hk : kindOfMarker m <;> simp [parseNode, hk, nodeCap]

/-- The state of the parse in which the left child of node `p.n` is read. -/
def ParseState.descend (rest : List Byte) (p : ParseState) : ParseState :=
  ((p.took rest).create).put p.n (desInternal 0 0)

theorem ParseState.descend_defined {p : ParseState} (rest : List Byte) (hd : Defined p.node p.n) :
    Defined (p.descend rest).node (p.descend rest).n := by
  simpa [ParseState.descend, ParseState.took, ParseState.create, ParseState.put] using hd.succ (desInternal 0 0)

/-- The state of the parse in which the right child of node `n` is read, after the left child `l`, the root of tree `t`. -/
def ParseState.turn (rest : List Byte) (t : Tree) (l n : Nat) (p : ParseState) : ParseState :=
  { rest := rest, ipos := p.ipos + BitVec.ofNat 32 t.ser.length, n := p.n + t.size,
    node := Memory.write (p.node ++ t.layout p.n) n (desInternal l 0) }

theorem ParseState.turn_defined {p : ParseState} (rest : List Byte) (t : Tree) (l : Nat) {n : Nat} (hd : Defined p.node p.n)
    (hn : n < p.n) : Defined (p.turn rest t l n).node (p.turn rest t l n).n :=
  (hd.append_layout t).write_lt _ (Nat.lt_add_right _ hn)

/-- At an internal node's marker with room for it, `parse()` reads the left child, then the right one. -/
theorem parseNode_int {fuel : Nat} {p : ParseState} {rest : List Byte} (hr : p.rest = markInt :: rest) (hn : p.n ≠ nodeCap) :
    parseNode (fuel + 1) p = (parseNode fuel (p.descend rest)).bind fun l =>
      (parseNode fuel (l.2.put p.n (desInternal l.1 0))).bind fun r => .done (p.n, r.2.put p.n (desInternal l.1 r.1)) := by
  simp only [parseNode, hr, kindOfMarker_int, if_neg hn]
  rfl

/-- What is left of that once the left child has been read as the tree `l`. -/
theorem parseNode_int_right {fuel : Nat} {p : ParseState} {rest : List Byte} {l : Tree} (hd : Defined p.node p.n)
    (hr : p.rest = markInt :: (l.ser ++ rest)) (hn : p.n ≠ nodeCap) (hfuel : l.depth < fuel) (hroom : p.n + 1 + l.size ≤ nodeCap) :
    parseNode (fuel + 1) p = (parseNode fuel ((p.descend (l.ser ++ rest)).turn rest l (p.n + 1) p.n)).bind fun r =>
      .done (p.n, r.2.put p.n (desInternal (p.n + 1) r.1)) := by
  rw [parseNode_int hr hn, parseNode_ser l (p := p.descend (l.ser ++ rest)) rfl hfuel hroom (p.descend_defined _ hd)]
  rfl

/-- A count of bytes read in two parts. -/
theorem ofNat_add_add32 (x : BitVec 32) (a b : Nat) : x + BitVec.ofNat 32 a + BitVec.ofNat 32 b = x + BitVec.ofNat 32 (a + b) := by
  rw [BitVec.add_assoc, BitVec.ofNat_add]

/-- The tokens of two subtrees, split where a node is still missing: it is in the left subtree, or in the right one. -/
theorem Tree.tokens_split {l r : Tree} {ts vs : List (Option Byte)} (h : l.tokens ++ r.tokens = ts ++ vs) :
    (∃ us, l.tokens = ts ++ us ∧ us ≠ []) ∨ ∃ us, ts = l.tokens ++ us ∧ r.tokens = us ++ vs := by
  rcases List.append_eq_append_iff.mp h with ⟨us, hts, hr⟩ | ⟨us, hl, hvs⟩
  · exact .inr ⟨us, hts, hr⟩
  · cases us with
    | nil => exact .inr ⟨[], by simpa using hl.symm, by simpa using hvs.symm⟩
    | cons u us => exact .inl ⟨u :: us, hl, by simp⟩

/-- `parse()` raises where the tokens it has read leave a node to read and the input is stuck there (R204). -/
theorem parseNode_raises {t : Tree} {ts vs : List (Option Byte)} {fuel j : Nat} {p : ParseState} {rest : List Byte}
    (ht : t.tokens = ts ++ vs) (hne : vs ≠ []) (hr : p.rest = tokenBytes ts ++ rest) (hd : Defined p.node p.n)
    (hn : p.n + ts.length ≤ nodeCap) (hfuel : nodeCap - p.n < fuel) (hstuck : Stuck (p.n + ts.length) rest j) :
    parseNode fuel p = .raised .malformedTree .des (some (p.ipos + BitVec.ofNat 32 ((tokenBytes ts).length + j))) := by
  induction t generalizing ts vs fuel p rest with
  | leaf y =>
    obtain ⟨fuel, rfl⟩ := Nat.exists_eq_add_of_le' (Nat.lt_of_le_of_lt (Nat.zero_le _) hfuel)
    obtain rfl : ts = [] := by
      rcases ts with _ | ⟨token, ts⟩
      · rfl
      · exact absurd (List.append_eq_nil_iff.mp (List.cons.inj ht).2.symm).2 hne
    rw [parseNode_stuck (j := j) (by rw [hr]; exact hstuck)]
    simp [tokenBytes]
  | node l r ihl ihr =>
    obtain ⟨fuel, rfl⟩ := Nat.exists_eq_add_of_le' (Nat.lt_of_le_of_lt (Nat.zero_le _) hfuel)
    cases ts with
    | nil =>
      rw [parseNode_stuck (j := j) (by rw [hr]; exact hstuck)]
      simp [tokenBytes]
    | cons token ts =>
      obtain ⟨rfl, htail⟩ := List.cons.inj ht
      rw [List.length_cons] at hn hstuck
      have hcap : p.n ≠ nodeCap := by omega
      rcases Tree.tokens_split htail with ⟨us, hl, hus⟩ | ⟨us, rfl, hright⟩
      · have hraised := ihl (fuel := fuel) (p := p.descend (tokenBytes ts ++ rest)) hl hus rfl (p.descend_defined _ hd)
          (by show p.n + 1 + ts.length ≤ nodeCap; omega) (by show nodeCap - (p.n + 1) < fuel; omega)
          (by show Stuck (p.n + 1 + ts.length) rest j; rwa [Nat.add_right_comm])
        have hr' : p.rest = markInt :: (tokenBytes ts ++ rest) := hr
        rw [parseNode_int hr' hcap, hraised, Res.raised_bind, tokenBytes, List.length_cons, Nat.add_right_comm, Nat.add_comm _ 1,
          ← ofNat_add_add32 p.ipos 1]
        rfl
      · rw [List.length_append, l.tokens_length] at hn hstuck
        rw [tokenBytes, tokenBytes_append, l.tokenBytes_tokens, List.cons_append, List.append_assoc] at hr
        have hdepth := l.depth_lt_leaves
        have hsize := l.size_eq
        have hraised := ihr (fuel := fuel)
          (p := (p.descend (l.ser ++ (tokenBytes us ++ rest))).turn (tokenBytes us ++ rest) l (p.n + 1) p.n) hright hne rfl
          (ParseState.turn_defined _ _ _ (p.descend_defined _ hd) (Nat.lt_succ_self _))
          (by show p.n + 1 + l.size + us.length ≤ nodeCap; omega) (by show nodeCap - (p.n + 1 + l.size) < fuel; omega)
          (by show Stuck (p.n + 1 + l.size + us.length) rest j; rwa [show p.n + 1 + l.size + us.length = p.n + (l.size + us.length + 1) by omega])
        rw [parseNode_int_right hd hr hcap (by omega) (by omega), hraised, Res.raised_bind, tokenBytes, tokenBytes_append,
          l.tokenBytes_tokens, List.length_cons, List.length_append,
          show l.ser.length + (tokenBytes us).length + 1 + j = 1 + (l.ser.length + ((tokenBytes us).length + j)) by omega,
          ← ofNat_add_add32 p.ipos 1, ← ofNat_add_add32 (p.ipos + BitVec.ofNat 32 1)]
        rfl

/-- When `parse()` raises, it has read tokens that leave a node to read, and is stuck there (R204). -/
theorem stuck_of_parseNode_raised {fuel : Nat} {p : ParseState} {k : ErrKind} {st : Stage} {off : Option (BitVec 32)}
    (h : parseNode fuel p = .raised k st off) (hd : Defined p.node p.n) (hn : p.n ≤ nodeCap) :
    ∃ ts rest j, p.rest = tokenBytes ts ++ rest ∧ NeedsNode ts ∧ p.n + ts.length ≤ nodeCap ∧ Stuck (p.n + ts.length) rest j := by
  induction fuel generalizing p with
  | zero => cases h
  | succ fuel ih =>
    have here {rest : List Byte} {j : Nat} (hr : p.rest = rest) (hstuck : Stuck p.n rest j) :
        ∃ ts rest j, p.rest = tokenBytes ts ++ rest ∧ NeedsNode ts ∧ p.n + ts.length ≤ nodeCap ∧ Stuck (p.n + ts.length) rest j :=
      ⟨[], rest, j, hr, needsNode_nil, hn, hstuck⟩
    rcases hrest : p.rest with _ | ⟨m, rest⟩
    · rw [← hrest]
      exact here hrest .ended
    rw [← hrest]
    cases hk : kindOfMarker m with
    | none =>
      obtain ⟨h0, h1⟩ := kindOfMarker_eq_none_iff.mp hk
      exact here hrest (.noMarker m rest h0 h1)
    | some kind =>
      by_cases hcap : p.n = nodeCap
      · exact here hrest (.noRoom m rest hcap)
      cases kind with
      | leaf =>
        obtain rfl := kindOfMarker_eq_leaf hk
        cases rest with
        | nil => exact here hrest (.noPayload (Nat.lt_of_le_of_ne hn hcap))
        | cons y rest => simp [parseNode, hrest, kindOfMarker_leaf, hcap, ParseState.took, ParseState.create] at h
      | internal =>
        obtain rfl := kindOfMarker_eq_int hk
        rw [parseNode_int hrest hcap] at h
        have hroom : (p.descend rest).n ≤ nodeCap := by show p.n + 1 ≤ nodeCap; omega
        rcases Res.bind_eq_raised.mp h with hleft | ⟨⟨i, q⟩, hleft, _⟩
        · obtain ⟨ts, rest', j, hr, hneeds, hlen, hstuck⟩ := ih hleft (p.descend_defined _ hd) hroom
          refine ⟨none :: ts, rest', j, by rw [hrest, show rest = (p.descend rest).rest from rfl, hr]; rfl, hneeds.left, ?_, ?_⟩
          · rw [List.length_cons]
            have : p.n + 1 + ts.length ≤ nodeCap := hlen
            omega
          · rw [List.length_cons, ← Nat.add_assoc, Nat.add_right_comm]
            exact hstuck
        · obtain ⟨l, hser, hdepth, hsize⟩ := parseNode_eq_done hleft (p.descend_defined _ hd) hroom
          have hser' : rest = l.ser ++ q.rest := hser
          rw [← parseNode_int hrest hcap, parseNode_int_right hd (by rw [hrest, ← hser']) hcap hdepth hsize] at h
          rcases Res.bind_eq_raised.mp h with hright | ⟨_, _, h⟩
          · obtain ⟨ts, rest', j, hr, hneeds, hlen, hstuck⟩ := ih hright
              (ParseState.turn_defined _ _ _ (p.descend_defined _ hd) (Nat.lt_succ_self _)) hsize
            have hr' : q.rest = tokenBytes ts ++ rest' := hr
            have hn' : p.n + 1 + l.size + ts.length = p.n + (none :: (l.tokens ++ ts)).length := by
              rw [List.length_cons, List.length_append, l.tokens_length]
              omega
            refine ⟨none :: (l.tokens ++ ts), rest', j, ?_, hneeds.right l, hn' ▸ hlen, hn' ▸ hstuck⟩
            rw [hrest, hser', hr', tokenBytes, tokenBytes_append, l.tokenBytes_tokens, List.cons_append, List.append_assoc]
          · cases h

/-! ## TDES -/

theorem tdes_eq_parse {s : State} (hin : s.ilen.toNat ≤ s.params.inCap) :
    tdes s = (parseNode parseLevels { rest := (inputBytes s).drop s.ipos.toNat, ipos := s.ipos, n := 0, node := [] }).bind fun r =>
      .done { s with ipos := r.2.ipos, node := r.2.node, ncnt := BitVec.ofNat 10 r.2.n, root := BitVec.ofNat 9 r.1, cur := BitVec.ofNat 9 r.1, treeV := true, heapV := false, xrV := false } := by
  rw [tdes, restBytes_done hin, Res.done_bind]

/-- TDES raises where the tokens it has read leave a node to read and the input is stuck there (R204). -/
theorem tdes_raises_of_stuck {s : State} {ts : List (Option Byte)} {rest : List Byte} {j : Nat}
    (hin : s.ilen.toNat ≤ s.params.inCap) (hneeds : NeedsNode ts) (hlen : ts.length ≤ nodeCap)
    (hr : (inputBytes s).drop s.ipos.toNat = tokenBytes ts ++ rest) (hstuck : Stuck ts.length rest j) :
    tdes s = .raised .malformedTree .des (some (s.ipos + BitVec.ofNat 32 ((tokenBytes ts).length + j))) := by
  obtain ⟨tr, vs, htokens, hne⟩ := hneeds
  rw [tdes_eq_parse hin,
    parseNode_raises (p := { rest := (inputBytes s).drop s.ipos.toNat, ipos := s.ipos, n := 0, node := [] }) htokens hne hr
      Defined.nil (by simpa using hlen) (show nodeCap - 0 < parseLevels by decide) (by simpa using hstuck), Res.raised_bind]

/-- When TDES raises, it has read tokens that leave a node to read, and is stuck there (R204). -/
theorem stuck_of_tdes_raised {s : State} {k : ErrKind} {st : Stage} {off : Option (BitVec 32)}
    (hin : s.ilen.toNat ≤ s.params.inCap) (h : tdes s = .raised k st off) :
    ∃ ts rest j, (inputBytes s).drop s.ipos.toNat = tokenBytes ts ++ rest ∧ NeedsNode ts ∧ ts.length ≤ nodeCap ∧
      Stuck ts.length rest j := by
  rw [tdes_eq_parse hin] at h
  rcases Res.bind_eq_raised.mp h with h | ⟨_, _, h⟩
  · simpa using stuck_of_parseNode_raised h Defined.nil (Nat.zero_le _)
  · cases h

/-- The offset at the end of the input. -/
theorem ipos_add_rest {s : State} {n : Nat} (hip : s.ipos.toNat ≤ s.ilen.toNat)
    (h : ((inputBytes s).drop s.ipos.toNat).length = n) : s.ipos + BitVec.ofNat 32 n = s.ilen := by
  rw [List.length_drop, inputBytes_length] at h
  have := s.ilen.isLt
  refine BitVec.eq_of_toNat_eq ?_
  rw [BitVec.toNat_add, BitVec.toNat_ofNat]
  omega

/-- OMOV's input is the old output. -/
theorem inputBytes_moved (s : State) : inputBytes s.moved = outputBytes s :=
  List.map_congr_left fun _ hk => moved_ibufAt (List.mem_range.mp hk)

/-- A tree's serialization alone in the output, moved to the input and parsed. -/
theorem tdes_of_moved {s : State} {tr : Tree} (hin : s.olen.toNat ≤ s.params.inCap) (hbytes : outputBytes s = tr.ser)
    (hfits : tr.size ≤ nodeCap) :
    tdes s.moved = .done (s.moved.deserialized tr) ∧ (s.moved.deserialized tr).ipos = (s.moved.deserialized tr).ilen := by
  have hrest : (inputBytes s.moved).drop s.moved.ipos.toNat = tr.ser ++ [] := by
    rw [inputBytes_moved, hbytes, List.append_nil]
    rfl
  refine ⟨tdes_of_ser hin hrest hfits, BitVec.eq_of_toNat_eq ((deserialized_ipos hrest).trans ?_)⟩
  rw [← hbytes, outputBytes_length]
  exact Nat.zero_add _

/-- Bytes appended to a cleared output are the output. -/
theorem output_of_clearOut_pushAll (s : State) {bs : List Byte} (h : bs.length < 2 ^ 32) :
    outputBytes (s.clearOut.pushAll bs) = bs ∧ (s.clearOut.pushAll bs).olen.toNat = bs.length := by
  have hlen : s.clearOut.olen.toNat + bs.length < 2 ^ 32 := by simpa using h
  refine ⟨(outputBytes_pushAll Defined.nil hlen).trans ?_, (State.pushAll_olen_toNat hlen).trans (by simp)⟩
  rw [List.length_eq_zero_iff.mp (outputBytes_length s.clearOut), List.nil_append]

/-! ## The statements -/

/-- Settles O43: valid entries are codes of leaves, which are apart. -/
theorem codesArePrefixFree : Obligations.CodesArePrefixFree := by
  intro s t tr hv ht hnodup h hf y z hne hy hz
  obtain ⟨_, u, hu, rfl⟩ := done_of h hf
  obtain rfl : s.coded tr = u := by
    rw [body, cgen_done hv ht] at hu
    cases hu
    rfl
  obtain ⟨p, hp, hcy⟩ := coded_codeAt_valid (s := s) hnodup hy
  obtain ⟨q, hq, hcz⟩ := coded_codeAt_valid (s := s) hnodup hz
  have hpath {x : Byte} {c : List Bool} (hc : (x, c) ∈ tr.codes) : pathOfCode (codeOfPath c) = c :=
    pathOfCode_codeOfPath (rootTree_codes_fit ht hc)
  show ¬ pathOfCode (codeAt (s.coded tr) y) <+: pathOfCode (codeAt (s.coded tr) z)
  rw [hcy, hcz, hpath hp, hpath hq]
  exact (tr.codes_apart_of_ne hp hq fun heq => hne (congrArg Prod.fst heq)).1

/-- Settles O45: the arena TDES makes is the tree's layout in pre-order. -/
theorem tdesRebuildsTheTree : Obligations.TdesRebuildsTheTree := by
  intro s tr tail hf hin hser hsize
  have hleaves := tr.size_eq
  have hfits : tr.size ≤ nodeCap := by simp only [nodeCap]; omega
  have hncnt : (s.deserialized tr).ncnt.toNat = tr.size := by
    simp only [State.deserialized, BitVec.toNat_ofNat, nodeCap] at hfits ⊢
    omega
  have hlen := tr.ser_length
  obtain ⟨_, _, htree⟩ := deserialized_inv (s := s) hfits
  refine ⟨(s.deserialized tr).retire, exec_of_done hf (tdes_of_ser hin hser hfits), (rootTree_retire _).trans htree, ?_, ?_,
    fun n hn => ?_, rfl⟩
  · rw [State.retire_ncnt, hncnt]
    omega
  · rw [State.retire_ipos, deserialized_ipos hser]
    omega
  · have hfields := deserialized_fields (s := s) hfits (n := n) (by rw [← hncnt]; exact hn)
    obtain ⟨hweight, hleaf, hint⟩ := hfields
    refine ⟨hweight, hleaf, fun hk => ?_⟩
    obtain ⟨hsym, hleft, l, hl, hright⟩ := hint hk
    exact ⟨hsym, hleft, l, (treeAt_cix _ (s.deserialized tr) _ _).trans hl, hright⟩

/-- Settles O46: TDES raises exactly where it is stuck at a node that the tokens before it leave to read. -/
theorem tdesFaultsInExactlyFourCases : Obligations.TdesFaultsInExactlyFourCases := by
  intro s input hf hin hip hinput
  refine ⟨?_, fun needs hneeds => ?_⟩
  · rcases tdes_cases hin with ⟨tr, _, _, _, hdone⟩ | ⟨j, _, hraised⟩
    · exact ⟨_, exec_of_done (i := .tdes) hf hdone⟩
    · exact ⟨_, exec_of_raised (i := .tdes) hf hraised⟩
  have hneeds' (ts : List (Option Byte)) : needs ts ↔ ts.length ≤ 511 ∧ NeedsNode ts := by
    rw [hneeds, needsNode_iff_bytes]
  refine ⟨fun ts hts => ?_, fun t h ht => ?_⟩
  · obtain ⟨hlen, hnode⟩ := (hneeds' ts).mp hts
    have hraised {rest : List Byte} {j n : Nat} (hr : input = tokenBytes ts ++ rest) (hstuck : Stuck ts.length rest j)
        (hn : (tokenBytes ts).length + j = n) : Faults .tdes s .malformedTree .des (some (s.ipos + BitVec.ofNat 32 n)) :=
      hn ▸ faults_of_raised hf (tdes_raises_of_stuck hin hnode hlen (hinput ▸ hr) hstuck)
    refine ⟨fun hr => ?_, fun hr hlt => ?_, fun m after hr hbad => ?_⟩
    · rw [← ipos_add_rest hip (congrArg List.length (hinput ▸ hr))]
      exact hraised (by rw [hr, List.append_nil]) .ended (Nat.add_zero _)
    · rw [← ipos_add_rest hip (congrArg List.length (hinput ▸ hr)), List.length_append]
      exact hraised hr (.noPayload hlt) rfl
    · rcases hbad with ⟨h0, h1⟩ | hfull
      · exact hraised hr (.noMarker m after h0 h1) (Nat.add_zero _)
      · exact hraised hr (.noRoom m after hfull) (Nat.add_zero _)
  · rcases exec_eq_next h with ⟨hfaulted, _⟩ | ⟨_, hretired, _⟩ | ⟨_, k, st, off, hraised, _⟩
    · exact absurd hfaulted (by simp [hf])
    · exact absurd ht (by simp [hretired])
    obtain ⟨ts, rest, j, hr, hnode, hlen, hstuck⟩ := stuck_of_tdes_raised hin hraised
    rw [← hinput] at hr
    refine ⟨ts, (hneeds' ts).mpr ⟨hlen, hnode⟩, ?_⟩
    cases hstuck with
    | ended => exact .inl (by simpa using hr)
    | noPayload hlt => exact .inr (.inl ⟨hr, hlt⟩)
    | noMarker m after h0 h1 => exact .inr (.inr ⟨m, after, hr, .inl ⟨h0, h1⟩⟩)
    | noRoom m after hfull => exact .inr (.inr ⟨m, after, hr, .inr hfull⟩)

/-- Settles O47: TSER writes the tree's serialization alone, OMOV makes it the input, and TDES consumes it whole. -/
theorem serializationRoundTrip : Obligations.SerializationRoundTrip := by
  intro s tr hs hf hv ht hin hout
  have hgood := hs.good hf
  obtain ⟨_, hincap, _, hcap, _⟩ := params_bounds hs.params
  obtain ⟨tr', ht', hleaves⟩ := (hgood.live.tree hv).tree
  obtain rfl : tr' = tr := by
    rw [ht] at ht'
    cases ht'
    rfl
  have hfits : tr'.size ≤ nodeCap := by
    have := tr'.size_eq
    simp only [nodeCap]
    omega
  have htree0 : rootTree s.clearOut = .done tr' := (rootTree_congr (s := s) (t := s.clearOut) rfl rfl rfl).trans ht
  have hser : tser s.clearOut = .done (s.clearOut.pushAll tr'.ser) := by
    rw [tser_eq_outAppendAll (s := s.clearOut) hv htree0]
    exact outAppendAll_done hcap (by simpa using hout)
  obtain ⟨hbytes, holen⟩ := output_of_clearOut_pushAll s (bs := tr'.ser) (by omega)
  have hmov : omov (s.clearOut.pushAll tr'.ser) = .done (s.clearOut.pushAll tr'.ser).moved :=
    omov_done (by rw [holen, pushAll_params]; exact hin) (by rw [holen, pushAll_params]; exact hout)
  obtain ⟨hdes, hipos⟩ := tdes_of_moved (by rw [holen, pushAll_params]; exact hin) hbytes hfits
  have hall : bodyAll [.oclr, .tser, .omov, .tdes] s = .done ((s.clearOut.pushAll tr'.ser).moved.deserialized tr') := by
    show ((tser s.clearOut).bind _) = _
    rw [hser, Res.done_bind]
    show ((omov _).bind _) = _
    rw [hmov, Res.done_bind]
    show ((tdes _).bind _) = _
    rw [hdes]
    rfl
  obtain ⟨_, _, htree⟩ := deserialized_inv (s := (s.clearOut.pushAll tr'.ser).moved) hfits
  obtain ⟨hfault, _⟩ := bodyAll_record hall
  exact ⟨_, execAll_of_bodyAll hf hall, hfault.trans hf, (rootTree_cix _ _).trans htree, hipos⟩

end Sys2Proof.Machine
end

section
/-!
PROOFS about the composite commands COMP and DECOMP: they equal their parts (45_encoder.md R226, 46_decoder.md R251), what they
write (R225, R250), when COMP completes (R116, R193), and the round trip (R252).
-/

namespace Sys2Proof.Machine

open Sys2Proof.Config

/-! ## A composite command and its parts -/

@[simp] theorem Res.bind_done {α : Type} (r : Res α) : r.bind .done = r := by cases r <;> rfl

theorem bodyAll_singleton (i : Instr) : bodyAll [i] = body i := funext fun s => Res.bind_done (body i s)

/-- A command whose pseudocode runs that of a list of commands reaches the same state but for `CIX`, or faults with the same
record but for the command word. -/
theorem exec_of_parts {i : Instr} {is : List Instr} {s u : State} (hparts : body i s = bodyAll is s) (hf : s.fault = false)
    (h : execAll is s = .next u) :
    (u.fault = false → exec i s = .next { u with cix := s.cix + 1 }) ∧
    (u.fault = true → ∃ t, exec i s = .next t ∧ t.fault = true ∧ t.err = u.err ∧ t.errStage = u.errStage ∧
      t.errOff = u.errOff ∧ t.erroffV = u.erroffV ∧ t.errCmd = encode i ∧ t.cix = s.cix) := by
  rcases execAll_body hf h with ⟨t, ht, rfl⟩ | ⟨k, st, off, hr, hfault, herr, hstage, hoffV, hoff⟩
  · obtain ⟨hfault, hcix⟩ := bodyAll_record ht
    refine ⟨fun _ => ?_, fun hu => absurd hu (by simp [hfault, hf])⟩
    rw [exec_of_done hf (hparts.trans ht), State.retire, hcix]
    rfl
  · refine ⟨fun hu => absurd hu (by simp [hfault]), fun _ => ?_⟩
    exact ⟨_, exec_of_raised hf (hparts.trans hr), rfl, herr.symm, hstage.symm, hoff.symm, hoffV.symm, rfl, rfl⟩

theorem comp_eq_bodyAll (s : State) : comp s = bodyAll [.oclr, .fscan, .tbuild, .cgen, .tser, .dlmw, .enc] s := by
  unfold comp
  rw [show enc = bodyAll [.enc] from (bodyAll_singleton .enc).symm]
  rfl

theorem decomp_eq_bodyAll (s : State) : decomp s = bodyAll [.irew, .oclr, .tdes, .dlms, .dec] s := by
  unfold decomp
  rw [show dec = bodyAll [.dec] from (bodyAll_singleton .dec).symm]
  rfl

/-! ## The container -/

/-- The path code of each symbol of the input, as CGEN wrote it. -/
def codeBits (u : State) (y : Byte) : List Bool := pathOfCode (codeAt u y)

/-- The container of the input `bs` with the tree and the codes of the tabled state `u` (30_encoding.md R110). -/
def containerOf (u : State) (delim : List Byte) (tr : Tree) (bs : List Byte) : List Byte :=
  container delim tr (bs.flatMap (codeBits u))

/-- A code of the input is a code of the tree. -/
theorem Tabled.codeBits_mem {s u : State} {tr : Tree} (h : Tabled s u tr) {y : Byte} (hy : y ∈ inputBytes s) :
    (y, codeBits u y) ∈ tr.codes := by
  obtain ⟨p, hp⟩ := h.code_of_input hy
  rw [codeBits, h.path hp]
  exact hp

/-- A code has 1 to 255 bits (43_code_generator.md R193). -/
theorem Tabled.codeBits_length {s u : State} {tr : Tree} (h : Tabled s u tr) {y : Byte} (hy : y ∈ inputBytes s) :
    1 ≤ (codeBits u y).length ∧ (codeBits u y).length ≤ maxLen :=
  ⟨(tr.codes_length (h.codeBits_mem hy)).1, (h.codeAt_mem (h.codeBits_mem hy)).2⟩

theorem Tabled.leaves_le {s u : State} {tr : Tree} (h : Tabled s u tr) : tr.leaves ≤ 256 := by
  obtain ⟨tr', ht', hleaves⟩ := (h.good.live.tree (by rw [h.frame])).tree
  rw [h.tree] at ht'
  cases ht'
  exact hleaves

theorem length_flatMap_bounds {α : Type} {l : List α} {f : α → List Bool} {m : Nat}
    (h : ∀ a ∈ l, 1 ≤ (f a).length ∧ (f a).length ≤ m) :
    l.length ≤ (l.flatMap f).length ∧ (l.flatMap f).length ≤ m * l.length := by
  induction l with
  | nil => simp
  | cons a l ih =>
    obtain ⟨h1, h2⟩ := h a List.mem_cons_self
    obtain ⟨ih1, ih2⟩ := ih fun b hb => h b (List.mem_cons_of_mem a hb)
    rw [List.flatMap_cons, List.length_append, List.length_cons, Nat.mul_succ]
    omega

theorem length_container (delim : List Byte) (tr : Tree) (bits : List Bool) :
    (container delim tr bits).length = tr.ser.length + delim.length + bits.length := by
  simp [container, Nat.add_assoc]

/-- The container has at least one byte per input byte, and is sure to fit where 767 bytes of tree, the delimiter and 255 bits per
input byte do (R116, R193). -/
theorem Tabled.container_length {s u : State} {tr : Tree} (h : Tabled s u tr) (delim : List Byte) :
    s.ilen.toNat ≤ (containerOf u delim tr (inputBytes s)).length ∧
      (containerOf u delim tr (inputBytes s)).length ≤ 767 + delim.length + 255 * s.ilen.toNat := by
  have hbits := length_flatMap_bounds (f := codeBits u) fun y (hy : y ∈ inputBytes s) => h.codeBits_length hy
  have hser := tr.ser_length
  have hleaves := h.leaves_le
  rw [inputBytes_length, maxLen] at hbits
  rw [containerOf, length_container]
  omega

/-- What COMP does on a non-empty input (45_encoder.md R225). -/
theorem comp_cases {s : State} (hs : Good s) (hne : s.ilen ≠ 0) :
    ∃ u tr, Tabled s u tr ∧
      (((containerOf u s.params.delim tr (inputBytes s)).length ≤ s.params.outCap ∧
        comp s = .done (u.pushAll (containerOf u s.params.delim tr (inputBytes s)))) ∨
      (s.params.outCap < (containerOf u s.params.delim tr (inputBytes s)).length ∧
        ∃ st ∈ [Stage.ser, .delim, .enc], comp s = .raised .io st (some (BitVec.ofNat 32 s.params.outCap)))) :=
  comp_container hs hne

/-- Appending to a tabled state, whose output is empty: the output is the bytes appended. -/
theorem Tabled.output {s u : State} {tr : Tree} (h : Tabled s u tr) {bs : List Byte} (hlen : bs.length < 2 ^ 32) :
    outputBytes (u.pushAll bs) = bs ∧ (u.pushAll bs).olen.toNat = bs.length := by
  have holen : u.olen.toNat = 0 := by rw [h.frame]; rfl
  have hempty : outputBytes u = [] := List.length_eq_zero_iff.mp ((outputBytes_length u).trans holen)
  have hfit : u.olen.toNat + bs.length < 2 ^ 32 := by rw [holen]; omega
  constructor
  · rw [outputBytes_pushAll h.good.live.buffers.obuf hfit, hempty, List.nil_append]
  · rw [State.pushAll_olen_toNat hfit, holen, Nat.zero_add]

/-- The state after COMP: all but the buffers' bytes is as the tables left it. -/
theorem Tabled.pushAll_frame {s u : State} {tr : Tree} (h : Tabled s u tr) (bs : List Byte) :
    u.pushAll bs = { s with obuf := (u.pushAll bs).obuf, olen := (u.pushAll bs).olen, freq := u.freq, dsym := u.dsym, freqV := true, node := u.node, ncnt := u.ncnt, pq := [], hsize := 0, root := u.root, cur := u.root, heapV := false, treeV := true, xrV := false, code := codeTable tr, codeV := true } := by
  conv_lhs => rw [State.pushAll_frame]
  generalize (u.pushAll bs).obuf = obuf
  generalize (u.pushAll bs).olen = olen
  conv_lhs => rw [h.frame]
  rfl

theorem Tabled.pushAll_tree {s u : State} {tr : Tree} (h : Tabled s u tr) (bs : List Byte) :
    rootTree (u.pushAll bs) = .done tr := by
  have hframe := State.pushAll_frame bs u
  exact (rootTree_congr (s := u) (by rw [hframe]) (by rw [hframe]) (by rw [hframe])).trans h.tree

/-! ## The statements -/

/-- Settles O50: COMP's pseudocode is that of its parts in a row. -/
theorem compEqualsItsParts : Obligations.CompEqualsItsParts := fun s _ hf h => exec_of_parts (comp_eq_bodyAll s) hf h

/-- Settles O51: the tree and the codes are those of the tabled state, to which COMP appends the container. -/
theorem compWritesTheContainer : Obligations.CompWritesTheContainer := by
  intro s hs hf
  refine ⟨fun h0 => faults_of_raised hf (comp_raised_of_empty h0), fun hne => ?_⟩
  obtain ⟨_, _, _, hcap, _⟩ := params_bounds hs.params
  obtain ⟨u, tr, hT, hcases⟩ := comp_cases (hs.good hf) hne
  refine ⟨tr, codeBits u, containerOf u s.params.delim tr (inputBytes s), hT.nodup, hT.symbols, fun e he => hT.path he, rfl,
    fun hfits => ?_, fun hfull => ?_⟩
  · rcases hcases with ⟨_, hdone⟩ | ⟨hfull, _⟩
    · generalize containerOf u s.params.delim tr (inputBytes s) = out at hfits hdone
      have hframe := hT.pushAll_frame out
      obtain ⟨hout, _⟩ := hT.output (Nat.lt_of_le_of_lt hfits hcap)
      have hdsym : (u.pushAll out).dsym = u.dsym := by rw [hframe]
      have hncnt : (u.pushAll out).ncnt = u.ncnt := by rw [hframe]
      have hroot : (u.pushAll out).root = u.root := by rw [hframe]
      have h1 := hT.dsym
      have h2 := hT.ncnt
      have h3 := hT.root
      refine ⟨(u.pushAll out).retire, exec_of_done hf hdone, hout, (rootTree_retire _).trans (hT.pushAll_tree out),
        by rw [State.retire_dsym, hdsym, h1], by rw [State.retire_ncnt, State.retire_dsym, hncnt, hdsym]; omega,
        by rw [State.retire_root, State.retire_dsym, hroot, hdsym]; omega, ?_⟩
      rw [hframe]
      exact ⟨rfl, rfl, rfl, rfl, rfl, rfl, by simp only [State.retire, hf]⟩
    · exact absurd hfits (Nat.not_le.mpr hfull)
  · rcases hcases with ⟨hfits, _⟩ | ⟨_, st, hst, hraised⟩
    · exact absurd hfits (Nat.not_le.mpr hfull)
    · exact ⟨st, hst, faults_of_raised hf hraised⟩

/-- Settles O52: the bound of the container's length rules out the fault. -/
theorem compCompletes : Obligations.CompCompletes := by
  intro s hs hf hne hroom
  obtain ⟨u, tr, hT, ⟨_, hdone⟩ | ⟨hfull, _⟩⟩ := comp_cases (hs.good hf) hne
  · have hframe := hT.pushAll_frame (containerOf u s.params.delim tr (inputBytes s))
    refine ⟨_, exec_of_done (i := .comp) hf hdone, ?_⟩
    rw [hframe]
    exact ⟨hf, rfl, rfl, rfl, rfl⟩
  · have := (hT.container_length s.params.delim).2
    omega

/-- Settles O58: DECOMP's pseudocode is that of its parts in a row. -/
theorem decompEqualsItsParts : Obligations.DecompEqualsItsParts := fun s _ hf h => exec_of_parts (decomp_eq_bodyAll s) hf h

/-- Settles O59: TDES rebuilds the tree, DLMS skips the delimiter after it, and DEC decodes the codes after that. -/
theorem decompDecodesAContainer : Obligations.DecompDecodesAContainer := by
  intro s tr es hs hf hsize hes hroom hin
  have hfits : tr.size ≤ nodeCap := by
    have := tr.size_eq
    simp only [nodeCap]
    omega
  obtain ⟨t, hdone, hout, holen, htree, hframe⟩ := decomp_container (hs.good hf) hfits hes hroom hin
  exact ⟨t.retire, exec_of_done hf hdone, hout, holen, (rootTree_retire t).trans htree, congrArg State.retire hframe⟩

/-- Settles O60: what COMP appends is a container, whose bit stream stands for the input. -/
theorem compressionRoundTrip : Obligations.CompressionRoundTrip := by
  intro s t hs hf hcomp ht hin
  have hgood := hs.good hf
  obtain ⟨_, _, _, hcap, _⟩ := params_bounds hs.params
  obtain ⟨_, v, hv, rfl⟩ := done_of hcomp ht
  have hne : s.ilen ≠ 0 := fun h0 => by
    rw [body, comp_raised_of_empty h0] at hv
    cases hv
  obtain ⟨u, tr, hT, ⟨hfits, hdone⟩ | ⟨_, _, _, hraised⟩⟩ := comp_cases hgood hne
  swap
  · rw [body, hraised] at hv
    cases hv
  obtain rfl : u.pushAll (containerOf u s.params.delim tr (inputBytes s)) = v := by
    rw [body, hdone] at hv
    cases hv
    rfl
  have hlong := (hT.container_length s.params.delim).1
  generalize hout : containerOf u s.params.delim tr (inputBytes s) = out at *
  obtain ⟨hbytes, holen⟩ := hT.output (Nat.lt_of_le_of_lt hfits hcap)
  have hparams : (u.pushAll out).params = s.params := by rw [hT.pushAll_frame]
  have hmov : omov (u.pushAll out) = .done (u.pushAll out).moved :=
    omov_done (by rw [hparams]; exact hin) (by rw [hparams, holen]; exact hfits)
  have hgood' : Good (u.pushAll out).moved := ((omov_keeps _ ((comp_keeps s hgood).2 _ hdone).1).2 _ hmov).1
  have hsize : tr.size ≤ nodeCap := by
    have := tr.size_eq
    have := hT.leaves_le
    simp only [nodeCap]
    omega
  obtain ⟨w, hdecomp, hresult, _⟩ := decomp_container (s := (u.pushAll out).moved) (tr := tr)
    (es := (inputBytes s).map fun y => (y, codeBits u y)) hgood' hsize
    (fun e he => by obtain ⟨y, hy, rfl⟩ := List.mem_map.mp he; exact hT.codeBits_mem hy)
    (by rw [List.length_map, inputBytes_length]; show _ ≤ (u.pushAll out).params.outCap; rw [hparams]; omega)
    (by rw [inputBytes_moved, hbytes, List.flatMap_map, show (u.pushAll out).moved.params = s.params from hparams, ← hout]; rfl)
  have hall : bodyAll [.comp, .omov, .decomp] s = .done w := by
    show (comp s).bind _ = _
    rw [hdone, Res.done_bind]
    show (omov _).bind _ = _
    rw [hmov, Res.done_bind, bodyAll_singleton]
    exact hdecomp
  obtain ⟨hfault, _⟩ := bodyAll_record hall
  refine ⟨_, execAll_of_bodyAll hf hall, hfault.trans hf, Eq.trans (b := outputBytes w) rfl (hresult.trans ?_)⟩
  rw [List.map_map]
  exact List.map_id _

end Sys2Proof.Machine
end

section
/-!
PROOFS about DEC (46_decoder.md R248, R249): it is DSTEP of each remaining byte and DEND, and it decodes sequences of codes.
-/

namespace Sys2Proof.Machine

open Sys2Proof.Config

/-! ## DEC and the streaming decoder -/

/-- The second result is the first with `IPOS` at `x`; of a raised error only kind and stage need agree. -/
inductive Alike (x : BitVec 32) : Res State → Res State → Prop where
  | done (t : State) : Alike x (.done t) (.done { t with ipos := x })
  | raised (k : ErrKind) (st : Stage) (off off' : Option (BitVec 32)) : Alike x (.raised k st off) (.raised k st off')
  | stopped (e : Fault) : Alike x (.stopped e) (.stopped e)

theorem Alike.bind {x y : BitVec 32} {r r' : Res State} {f g : State → Res State} (h : Alike x r r')
    (hfg : ∀ t, r = .done t → Alike y (f t) (g { t with ipos := x })) : Alike y (r.bind f) (r'.bind g) := by
  cases h with
  | done t => exact hfg t rfl
  | raised k st off off' => exact .raised k st off off'
  | stopped e => exact .stopped e

theorem outAppend_alike (st : Stage) (b : Byte) (s : State) (x : BitVec 32) :
    Alike x (outAppend st b s) (outAppend st b { s with ipos := x }) := by
  unfold outAppend
  split
  · exact .raised _ _ _ _
  split
  · exact .stopped _
  · exact .done _

/-- One step of the decoder neither reads nor writes the read cursor. -/
theorem decStep_alike (b : Byte) (off off' : Option (BitVec 32)) (s : State) (x : BitVec 32) :
    Alike x (decStep b off s) (decStep b off' { s with ipos := x }) := by
  have hread (i : NodeIdx) : readNode { s with ipos := x } i = readNode s i := rfl
  unfold decStep
  cases bitOfSymbol b with
  | none => exact .raised _ _ _ _
  | some c =>
    simp only [hread]
    cases readNode s s.root with
    | raised k st o => exact .raised _ _ _ _
    | stopped e => exact .stopped _
    | done r =>
      simp only [Res.done_bind]
      cases r.kind with
      | leaf =>
        cases c
        · exact outAppend_alike _ _ s x
        · exact .raised _ _ _ _
      | internal =>
        simp only []
        cases readNode s s.cur with
        | raised k st o => exact .raised _ _ _ _
        | stopped e => exact .stopped _
        | done n =>
          simp only [Res.done_bind]
          cases readNode s (childOf n c) with
          | raised k st o => exact .raised _ _ _ _
          | stopped e => exact .stopped _
          | done m =>
            simp only [Res.done_bind]
            cases m.kind with
            | leaf => exact (outAppend_alike _ _ s x).bind fun t _ => .done _
            | internal => exact .done _

/-- DSTEP of each byte and DEND do what DEC's loop and its test at the end do, but for the read cursor (R249). -/
theorem streaming_alike (bs : List Byte) {s : State} (hv : s.treeV = true) (x : BitVec 32) :
    Alike (x + BitVec.ofNat 32 bs.length) (bodyAll (bs.map Instr.dstep ++ [.dend]) s)
      ((decBytes bs { s with ipos := x }).bind fun t => atRoot (some t.ilen) t) := by
  induction bs generalizing s x with
  | nil =>
    rw [List.map_nil, List.nil_append, bodyAll_singleton, List.length_nil, show x + BitVec.ofNat 32 0 = x from BitVec.add_zero x]
    show Alike x (dend s) (atRoot (some s.ilen) { s with ipos := x })
    by_cases hcur : s.cur = s.root
    · rw [dend_done hv hcur, atRoot, if_pos hcur]
      exact .done s
    · rw [dend_raised_inside hv hcur, atRoot, if_neg hcur]
      exact .raised _ _ _ _
  | cons b bs ih =>
    show Alike _ ((dstep b s).bind (bodyAll (bs.map Instr.dstep ++ [.dend])))
      (((decStep b (some x) { s with ipos := x }).bind fun t => decBytes bs { t with ipos := t.ipos + 1 }).bind _)
    rw [Res.bind_assoc, dstep_eq_decStep b hv, List.length_cons, ← ofNat_succ32, ← BitVec.add_assoc]
    exact (decStep_alike b none (some x) s x).bind fun t ht => ih (by rw [decStep_frame ht]; exact hv) (x + 1)

theorem dec_alike {s : State} (hin : s.ilen.toNat ≤ s.params.inCap) (hv : s.treeV = true) :
    Alike (s.ipos + BitVec.ofNat 32 ((inputBytes s).drop s.ipos.toNat).length)
      (bodyAll (((inputBytes s).drop s.ipos.toNat).map Instr.dstep ++ [.dend]) s) (dec s) := by
  rw [dec, hv, need_true, Res.done_bind, restBytes_done hin, Res.done_bind]
  exact streaming_alike _ hv s.ipos

/-! ## DEC on codes -/

theorem treeAt_walked (s : State) (n : Nat) (c : NodeIdx) (fuel : Nat) (i : NodeIdx) :
    treeAt (s.walked n c) fuel i = treeAt s fuel i :=
  treeAt_same (s := s) (s' := s.walked n c) rfl rfl fuel i

theorem walked_walked (s : State) (m n : Nat) (c d : NodeIdx) : (s.walked m c).walked n d = s.walked (m + n) d := by
  simp only [State.walked, ofNat_add_add32]

/-- Reading a part of a code: the cursor goes down one level per bit, to an inner node's tree, and nothing is emitted. -/
theorem decBytes_inside {t : Tree} {s : State} {fuel : Nat} {y : Byte} {p q : List Bool} (hroot : s.root.toNat < nodeCap)
    (hk : (nodeAt s s.root).kind = .internal) (ht : treeAt s fuel s.cur = .done t) (hq : (y, p ++ q) ∈ t.walk [])
    (hne : q ≠ []) :
    ∃ x f v, decBytes (p.map symbolOfBit) s = .done (s.walked p.length x) ∧ treeAt s f x = .done v ∧
      v.size + p.length ≤ t.size := by
  induction p generalizing s fuel t with
  | nil => exact ⟨s.cur, fuel, t, congrArg Res.done (walked_zero s).symm, ht, Nat.le_refl _⟩
  | cons c p ih =>
    cases t with
    | leaf z => simp [Tree.walk] at hq
    | node l r =>
      obtain ⟨c', q', heq, hq'⟩ := Tree.walk_node hq
      obtain ⟨rfl, rfl⟩ := List.cons.inj heq
      obtain ⟨hcur, _, hchild⟩ := treeAt_child ht
      obtain ⟨f, hf⟩ := hchild c
      have hsub : (if c then r else l).size + 1 ≤ (Tree.node l r).size := by
        cases c <;> simp only [Tree.size, Bool.false_eq_true, if_false, if_true] <;> omega
      generalize (if c then r else l) = sub at hq' hf hsub
      cases sub with
      | leaf z =>
        simp only [Tree.walk, List.mem_singleton, Prod.mk.injEq] at hq'
        exact absurd (List.append_eq_nil_iff.mp hq'.2).2 hne
      | node a b =>
        obtain ⟨hx, hkx, _⟩ := treeAt_child hf
        obtain ⟨hinner, _⟩ := decStep_edge (off := some s.ipos) hroot hk hcur rfl hx
        obtain ⟨x, g, v, hdone, hv, hsize⟩ := ih (s := s.walked 1 (childOf (nodeAt s s.cur) c)) hroot hk
          ((treeAt_walked _ _ _ _ _).trans hf) hq'
        refine ⟨x, g, v, ?_, (treeAt_walked _ _ _ _ _).symm.trans hv, by rw [List.length_cons]; omega⟩
        rw [List.map_cons, decBytes, hinner hkx, Res.done_bind]
        exact hdone.trans (by rw [walked_walked, List.length_cons, Nat.add_comm])

/-- A node holds one tree, whatever the levels it is read with. -/
theorem treeAt_unique {s : State} {f g : Nat} {i : NodeIdx} {t u : Tree} (ht : treeAt s f i = .done t)
    (hu : treeAt s g i = .done u) : t = u := by
  have h := (treeAt_levels ht (fuel' := max f g) (Nat.lt_of_lt_of_le (treeAt_depth ht) (Nat.le_max_left f g))).symm.trans
    (treeAt_levels hu (Nat.lt_of_lt_of_le (treeAt_depth hu) (Nat.le_max_right f g)))
  cases h
  rfl

/-- After a proper part of a code the cursor is not at the root: the tree there is smaller. -/
theorem decBytes_inside_root {tr : Tree} {s : State} {e : Byte × List Bool} {p q : List Bool} (ht : rootTree s = .done tr)
    (hcur : s.cur = s.root) (he : e ∈ tr.codes) (hp : p ≠ []) (hq : q ≠ []) (hpq : e.2 = p ++ q) :
    ∃ x, decBytes (p.map symbolOfBit) s = .done (s.walked p.length x) ∧ x ≠ s.root := by
  obtain ⟨y, code⟩ := e
  obtain rfl : code = p ++ q := hpq
  have hplen := List.length_pos_iff.mpr hp
  cases tr with
  | leaf z =>
    have hlen : (p ++ q).length = 1 := by
      simp only [Tree.codes, singleCode, List.mem_singleton, Prod.mk.injEq] at he
      rw [he.2]
      rfl
    have := List.length_pos_iff.mpr hq
    rw [List.length_append] at hlen
    omega
  | node l r =>
    obtain ⟨hroot, hk, _⟩ := treeAt_child ht
    obtain ⟨x, f, v, hdone, hv, hsize⟩ := decBytes_inside (fuel := treeLevels) hroot hk (by rw [hcur]; exact ht) he hq
    refine ⟨x, hdone, fun hx => ?_⟩
    rw [hx] at hv
    rw [treeAt_unique hv ht] at hsize
    omega

/-- DEC after whole codes: it goes on with what follows them in the input, from the root (R248). -/
theorem dec_after_codes {s : State} {tr : Tree} {es : List (Byte × List Bool)} {rest : List Byte} (hs : Good s)
    (hv : s.treeV = true) (hcur : s.cur = s.root) (ht : rootTree s = .done tr) (hes : ∀ e ∈ es, e ∈ tr.codes)
    (hr : (inputBytes s).drop s.ipos.toNat = (es.flatMap fun e => e.2.map symbolOfBit) ++ rest)
    (hroom : s.olen.toNat + es.length ≤ s.params.outCap) :
    dec s = (decBytes rest ((s.pushAll (es.map Prod.fst)).walked (es.flatMap fun e => e.2.map symbolOfBit).length s.root)).bind
      fun t => atRoot (some t.ilen) t := by
  obtain ⟨_, _, _, hcap, _⟩ := params_bounds hs.live.buffers.params
  rw [dec, hv, need_true, Res.done_bind, restBytes_done hs.live.buffers.ilen, Res.done_bind, hr,
    decBytes_codes ht hes hcur hcap hroom]

/-- The state DEC has reached after whole codes has the root, the tree and the input length it began with. -/
theorem walked_pushAll_frame (s : State) (bs : List Byte) (n : Nat) (c : NodeIdx) :
    ((s.pushAll bs).walked n c).root = s.root ∧ ((s.pushAll bs).walked n c).ilen = s.ilen ∧
      ((s.pushAll bs).walked n c).ipos = s.ipos + BitVec.ofNat 32 n ∧
      rootTree ((s.pushAll bs).walked n c) = rootTree s := by
  have hframe := State.pushAll_frame bs s
  have hroot : (s.pushAll bs).root = s.root := by rw [hframe]
  refine ⟨hroot, ?_, ?_, rootTree_congr ?_ ?_ hroot⟩
  · show (s.pushAll bs).ilen = s.ilen
    rw [hframe]
  · show (s.pushAll bs).ipos + BitVec.ofNat 32 n = _
    rw [hframe]
  · show (s.pushAll bs).node = s.node
    rw [hframe]
  · show (s.pushAll bs).freeCount = s.freeCount
    rw [hframe]

/-! ## The statements -/

/-- Settles O56: DEC's loop and DSTEP take the same steps of the decoder. -/
theorem decEqualsStreaming : Obligations.DecEqualsStreaming := by
  intro s u hs hf hv h
  have hb := (hs.good hf).live.buffers
  have halike := dec_alike hb.ilen hv
  rw [ipos_add_rest hb.ipos rfl] at halike
  rcases execAll_body hf h with ⟨t, ht, rfl⟩ | ⟨k, st, off, hr, hfault, herr, hstage, _, _⟩
  · obtain ⟨hfault, hcix⟩ := bodyAll_record ht
    refine ⟨fun _ => ?_, fun hu => absurd hu (by simp [hfault, hf])⟩
    rw [ht] at halike
    generalize hdec : dec s = r at halike
    cases halike
    rw [exec_of_done (i := .dec) hf hdec]
    exact congrArg (Host.Outcome.next ∘ State.retire) (dec_frame hdec)
  · refine ⟨fun hu => absurd hu (by simp [hfault]), fun _ => ?_⟩
    rw [hr] at halike
    generalize hdec : dec s = r at halike
    cases halike with
    | raised _ _ _ off' => exact ⟨_, exec_of_raised (i := .dec) hf hdec, rfl, herr.symm, hstage.symm, rfl, rfl⟩

/-- Settles O57: whole codes emit their symbols and return to the root; what follows them decides. -/
theorem decDecodesCodeSequences : Obligations.DecDecodesCodeSequences := by
  intro s hs hf
  have hgood := hs.good hf
  refine ⟨fun hv => faults_of_raised hf (by rw [body, dec, hv, need_false, Res.raised_bind]), ?_⟩
  intro tr es rest hv hcur ht hes hr hroom
  have hdec := dec_after_codes hgood hv hcur ht hes hr hroom
  obtain ⟨hroot, hilen, hipos, htree⟩ :=
    walked_pushAll_frame s (es.map Prod.fst) (es.flatMap fun e => e.2.map symbolOfBit).length s.root
  obtain ⟨_, _, _, hcap, _⟩ := params_bounds hs.params
  refine ⟨fun hnil => ?_, fun b rest' hcons h0 h1 => ?_, fun e p q he hp hq hpq hpart => ?_⟩
  · rw [hnil, List.append_nil] at hr
    refine ⟨_, exec_of_done (i := .dec) hf (dec_codes hgood hv ht hcur hes hr hroom),
      appended_pushAll (by rw [List.length_map]; omega), ?_⟩
    exact congrArg (fun t : State => State.retire { t with ipos := s.ilen }) (State.pushAll_frame (es.map Prod.fst) s)
  · refine faults_of_raised hf ?_
    rw [body, hdec, hcons, decBytes, hipos, decStep_raised_of_bad_symbol _ h0 h1, Res.raised_bind, Res.raised_bind]
  · refine faults_of_raised hf ?_
    obtain ⟨x, hdone, hx⟩ := decBytes_inside_root (htree.trans ht) hroot.symm he hp hq hpq
    rw [body, hdec, hpart, hdone, Res.done_bind, atRoot]
    exact (if_neg hx).trans (congrArg (fun n => Res.raised .truncatedStream .dec (some n)) hilen)

end Sys2Proof.Machine
end

section
/-!
PROOFS about the assembler (30_encoding.md R119): the line of every command, in every form of its operand, with a comment or not.
-/

namespace Sys2Proof.Machine

open Sys2Proof.Config

/-! ## Blanks, comments and the ends of lines -/

/-- What follows the last word of a line: nothing, or a blank and a comment (R119). -/
def LineEnd (tail : List Char) : Prop := tail = [] ∨ ∃ comment, tail = ' ' :: ';' :: comment

theorem LineEnd.nil : LineEnd [] := .inl rfl

theorem LineEnd.comment (comment : List Char) : LineEnd (' ' :: ';' :: comment) := .inr ⟨comment, rfl⟩

theorem LineEnd.atEnd {tail : List Char} (h : LineEnd tail) : atEnd tail = true := by
  obtain rfl | ⟨comment, rfl⟩ := h <;> rfl

theorem LineEnd.head? {tail : List Char} (h : LineEnd tail) : tail = [] ∨ ∃ cs, tail = ' ' :: cs :=
  h.imp id fun ⟨comment, h⟩ => ⟨';' :: comment, h⟩

theorem skipBlanks_cons {c : Char} (hspace : c ≠ ' ') (htab : c ≠ '\t') (cs : List Char) :
    skipBlanks (c :: cs) = c :: cs := by
  simp [skipBlanks, hspace, htab]

theorem assemble_single {line : List Char} {i : Instr} (h : assembleLine line = some [i]) :
    assemble [line] = some [encode i] := by
  simp [assemble, h]

/-- A line whose first word is in upper case is the command that word and the rest of the line stand for. -/
theorem assembleLine_command {word rest : List Char} {i : Instr} (hne : word ≠ []) (hup : word.all Char.isUpper = true)
    (hrest : rest = [] ∨ ∃ cs, rest = ' ' :: cs) (h : readCommand word rest = some i) :
    assembleLine (word ++ rest) = some [i] := by
  obtain ⟨c, cs, rfl⟩ := List.exists_cons_of_ne_nil hne
  rw [List.all_eq_true] at hup
  have hc : c.isUpper = true := hup c List.mem_cons_self
  have hne : ∀ d : Char, d.isUpper = false → c ≠ d := fun d hd hcd => by simp [hcd, hd] at hc
  have hskip := skipBlanks_cons (hne ' ' (by decide)) (hne '\t' (by decide)) (cs ++ rest)
  have hend : atEnd (c :: (cs ++ rest)) = false := by
    simp [atEnd, hskip, hne ';' (by decide)]
  have htake : rest.takeWhile Char.isUpper = [] := by obtain rfl | ⟨ds, rfl⟩ := hrest <;> rfl
  have hdrop : rest.dropWhile Char.isUpper = rest := by obtain rfl | ⟨ds, rfl⟩ := hrest <;> rfl
  have hword : (c :: (cs ++ rest)).takeWhile Char.isUpper = c :: cs := by
    rw [← List.cons_append, List.takeWhile_append_of_pos hup, htake, List.append_nil]
  have htail : (c :: (cs ++ rest)).dropWhile Char.isUpper = rest := by
    rw [← List.cons_append, List.dropWhile_append_of_pos hup, hdrop]
  simp only [assembleLine, List.cons_append, hskip, hend, hword, htail, h, Bool.false_eq_true, if_false]

/-! ## The commands without an operand -/

/-- The mnemonics of the format-N commands are upper-case words other than those of format I (R103). -/
theorem plainCommands_word : ∀ i ∈ plainCommands,
    (mnemonic i).toList ≠ [] ∧ (mnemonic i).toList.all Char.isUpper = true ∧
    ¬((mnemonic i).toList = (mnemonic (.ipush 0)).toList ∨ (mnemonic i).toList = (mnemonic (.dstep 0)).toList) := by
  decide

/-- The mnemonics of the format-N commands are apart from each other (R103). -/
theorem plainCommands_find : ∀ i ∈ plainCommands,
    plainCommands.find? (fun j => (mnemonic i).toList = (mnemonic j).toList) = some i := by
  decide

theorem assemble_plain {i : Instr} (hi : i ∈ plainCommands) {tail : List Char} (ht : LineEnd tail) :
    assemble [(mnemonic i).toList ++ tail] = some [encode i] := by
  obtain ⟨hne, hup, hformat⟩ := plainCommands_word i hi
  refine assemble_single (assembleLine_command hne hup ht.head? ?_)
  rw [readCommand, if_neg hformat, if_pos ht.atEnd, plainCommands_find i hi]

/-! ## Numbers -/

theorem readDigits_cons {base acc d : Nat} {c : Char} (any : Bool) (hc : digitValue c = some d) (hd : d < base)
    (cs : List Char) : readDigits base acc any (c :: cs) = readDigits base (acc * base + d) true cs := by
  simp only [readDigits, hc, if_pos hd]

theorem readDigits_lineEnd (base acc : Nat) {tail : List Char} (ht : LineEnd tail) :
    readDigits base acc true tail = some (acc, tail) := by
  obtain rfl | ⟨comment, rfl⟩ := ht <;> rfl

theorem digitValue_hexDigit : ∀ n < 16, digitValue (hexDigit n) = some n := by decide

theorem digitValue_digitChar : ∀ n < 10, digitValue n.digitChar = some n := by decide

/-- The digits of a number are read back to it. -/
theorem readDigits_toDigits (n : Nat) (any : Bool) (rest : List Char) :
    readDigits 10 0 any (Nat.toDigits 10 n ++ rest) = readDigits 10 n true rest := by
  induction n using Nat.strongRecOn generalizing any rest with
  | ind n ih =>
    by_cases hn : n < 10
    · rw [Nat.toDigits_of_lt_base hn, List.singleton_append, readDigits_cons any (digitValue_digitChar n hn) hn,
        Nat.zero_mul, Nat.zero_add]
    · have hmod := Nat.mod_lt n (by decide : 0 < 10)
      rw [Nat.toDigits_of_base_le (by decide) (by omega), List.append_assoc, ih (n / 10) (by omega),
        List.singleton_append, readDigits_cons true (digitValue_digitChar _ hmod) hmod, Nat.div_add_mod']

/-- What opens with neither `0x` nor a quote is read as decimal. -/
theorem readNumber_decimal {c : Char} {cs : List Char} (hquote : c ≠ quoteChar) (hx : cs.head? ≠ some 'x') :
    readNumber (c :: cs) = readDigits 10 0 false (c :: cs) := by
  have hhex : (c :: cs).take 2 ≠ "0x".toList := by
    cases cs with
    | nil => simp
    | cons d ds => simpa using fun _ hd => hx (by simp [hd])
  rw [readNumber, if_neg hhex, if_neg]
  cases cs with
  | nil => simp
  | cons d ds => simp [hquote]

/-! ## Operands -/

/-- The text stands for the byte as the operand of a command, at the end of its line. -/
def OperandText (operand : List Char) (b : Byte) : Prop :=
  ∀ tail, LineEnd tail → readOperand (skipBlanks (operand ++ tail)) = some (b, tail)

theorem readOperand_of_readNumber {cs tail : List Char} {b : Byte} (h : readNumber cs = some (b.toNat, tail)) :
    readOperand cs = some (b, tail) := by
  simp [readOperand, h, b.isLt]

theorem operandText_hex (b : Byte) :
    OperandText ['0', 'x', hexDigit (b.toNat / 16), hexDigit (b.toNat % 16)] b := by
  intro tail ht
  have hhigh : b.toNat / 16 < 16 := by omega
  have hlow : b.toNat % 16 < 16 := by omega
  refine readOperand_of_readNumber ?_
  calc readNumber (skipBlanks _)
      = readDigits 16 0 false (hexDigit (b.toNat / 16) :: hexDigit (b.toNat % 16) :: tail) := by rfl
    _ = readDigits 16 b.toNat true tail := by
        rw [readDigits_cons _ (digitValue_hexDigit _ hhigh) hhigh, readDigits_cons _ (digitValue_hexDigit _ hlow) hlow,
          Nat.zero_mul, Nat.zero_add, Nat.div_add_mod']
    _ = some (b.toNat, tail) := readDigits_lineEnd 16 _ ht

theorem operandText_decimal (b : Byte) : OperandText b.toNat.repr.toList b := by
  intro tail ht
  have hdigit : ∀ c ∈ Nat.toDigits 10 b.toNat, c.isDigit = true := fun c => Nat.isDigit_of_mem_toDigits (by decide) (by decide)
  have hread := readDigits_toDigits b.toNat false tail
  rw [Nat.toList_repr]
  obtain ⟨c, cs, hcs⟩ := List.exists_cons_of_ne_nil (Nat.toDigits_ne_nil (b := 10) (n := b.toNat))
  rw [hcs] at hdigit hread ⊢
  have hne : ∀ d : Char, d.isDigit = false → c ≠ d := fun d hd hcd => by
    simpa [hcd, hd] using hdigit c (by simp)
  have hx : (cs ++ tail).head? ≠ some 'x' := by
    cases cs with
    | nil => obtain rfl | ⟨comment, rfl⟩ := ht <;> simp
    | cons d ds => exact fun h => by simpa [Option.some.inj h] using hdigit d (by simp)
  rw [List.cons_append, skipBlanks_cons (hne ' ' (by decide)) (hne '\t' (by decide))]
  refine readOperand_of_readNumber ?_
  rw [readNumber_decimal (hne quoteChar (by decide)) hx, ← List.cons_append, hread, readDigits_lineEnd 10 _ ht]

theorem operandText_quoted {b : Byte} (hb : b.toNat < 128) :
    OperandText [Char.ofNat 39, Char.ofNat b.toNat, Char.ofNat 39] b := by
  intro tail _
  refine readOperand_of_readNumber ?_
  have hchar : (Char.ofNat b.toNat).toNat = b.toNat := by
    rw [Char.toNat_ofNat, if_pos (.inl (by omega))]
  calc readNumber (skipBlanks _) = some ((Char.ofNat b.toNat).toNat, tail) := by rfl
    _ = some (b.toNat, tail) := by rw [hchar]

/-! ## The commands with an operand -/

theorem readCommand_operand {word operand tail : List Char} {b : Byte}
    (hword : word = (mnemonic (.ipush 0)).toList ∨ word = (mnemonic (.dstep 0)).toList)
    (ho : OperandText operand b) (ht : LineEnd tail) :
    readCommand word (' ' :: (operand ++ tail)) =
      some (if word = (mnemonic (.ipush 0)).toList then .ipush b else .dstep b) := by
  have hblank : skipBlanks (' ' :: (operand ++ tail)) = skipBlanks (operand ++ tail) := rfl
  simp only [readCommand, if_pos hword, hblank, ho tail ht, if_pos ht.atEnd]

theorem assemble_ipush {operand tail : List Char} {b : Byte} (ho : OperandText operand b) (ht : LineEnd tail) :
    assemble ["IPUSH ".toList ++ operand ++ tail] = some [encode (.ipush b)] := by
  refine assemble_single (assembleLine_command (word := "IPUSH".toList) (rest := ' ' :: (operand ++ tail))
    (by decide) (by decide) (.inr ⟨_, rfl⟩) ?_)
  exact readCommand_operand (.inl rfl) ho ht

theorem assemble_dstep {operand tail : List Char} {b : Byte} (ho : OperandText operand b) (ht : LineEnd tail) :
    assemble ["DSTEP ".toList ++ operand ++ tail] = some [encode (.dstep b)] := by
  refine assemble_single (assembleLine_command (word := "DSTEP".toList) (rest := ' ' :: (operand ++ tail))
    (by decide) (by decide) (.inr ⟨_, rfl⟩) ?_)
  exact readCommand_operand (.inr rfl) ho ht

/-! ## The statement -/

/-- The opcode map of R103 for the commands without an operand, in the order of their codes. -/
theorem plainCommands_rows : plainCommands.map (fun i => (mnemonic i, encode i)) =
    [("ICLR", 0x0200), ("IREW", 0x0300), ("OCLR", 0x0400), ("OMOV", 0x0500), ("FSCAN", 0x0800), ("PQBUILD", 0x1000), ("PQINS", 0x1100)] ++
    ([("PQEXT", 0x1200), ("MERGE", 0x1800), ("TROOT", 0x1900), ("TBUILD", 0x1A00), ("CGEN", 0x2000), ("TSER", 0x2800), ("TDES", 0x2900)] ++
    [("ENC", 0x3000), ("DLMW", 0x3100), ("COMP", 0x3200), ("DLMS", 0x3800), ("DEND", 0x3A00), ("DEC", 0x3B00), ("DECOMP", 0x3C00)]) := by
  rfl

theorem append_eq_ofNat (op imm : Byte) : op ++ imm = BitVec.ofNat 16 (op.toNat * 256 + imm.toNat) := by
  apply BitVec.eq_of_toNat_eq
  rw [BitVec.toNat_append, BitVec.toNat_ofNat, ← Nat.shiftLeft_add_eq_or_of_lt imm.isLt, Nat.shiftLeft_eq]
  omega

theorem encode_ipush (b : Byte) : encode (.ipush b) = BitVec.ofNat 16 (0x0100 + b.toNat) := append_eq_ofNat 0x01 b

theorem encode_dstep (b : Byte) : encode (.dstep b) = BitVec.ofNat 16 (0x3900 + b.toNat) := append_eq_ofNat 0x39 b

/-- Settles O3: a line is its mnemonic's word, its operand's text and the end of the line. -/
theorem assemblerReadsEveryCommand : Obligations.AssemblerReadsEveryCommand := by
  refine ⟨fun p comment hp => ?_, fun b operand ho => ?_, fun comment => rfl⟩
  · have hmem : p ∈ plainCommands.map (fun i => (mnemonic i, encode i)) := by
      rw [plainCommands_rows, List.mem_append, List.mem_append]
      exact hp
    obtain ⟨i, hi, rfl⟩ := List.mem_map.mp hmem
    refine ⟨?_, ?_⟩
    · simpa using assemble_plain hi .nil
    · simpa using assemble_plain hi (.comment comment)
  · have htext : OperandText operand b := by
      obtain rfl | rfl | ⟨hb, rfl⟩ := ho
      · exact operandText_hex b
      · exact operandText_decimal b
      · exact operandText_quoted hb
    rw [← encode_ipush, ← encode_dstep]
    refine ⟨?_, ?_, fun comment => ⟨?_, ?_⟩⟩
    · simpa using assemble_ipush htext .nil
    · simpa using assemble_dstep htext .nil
    · simpa using assemble_ipush htext (.comment comment)
    · simpa using assemble_dstep htext (.comment comment)

end Sys2Proof.Machine
end
